-- ==== Sys2Proof/Word.lean ====
section
/-!
DEFINITION. The byte, the one word type of the hardware: every memory access is one byte wide (20_memory.md R38).
-/

namespace Sys2Proof

/-- One byte of `CB`, `LUT` or `PB` (R30). -/
abbrev Byte := BitVec 8

end Sys2Proof
end

