-- ==== Sys2Proof/Config.lean ====
section
/-!
DEFINITION. The implementation parameters of 00_scope.md R5. Every one is a constant of the hardware (decision D28) and
R135 says that no rule has a free value, so nothing here is opaque.
-/

namespace Sys2Proof.Config

/-- `BLOCK_SIZE`: the bytes of `CB` (R5, R31). -/
abbrev blockSize : Nat := 921600

/-- `WIDTH`: the pixels of a row of `PB` (R5, R34). -/
abbrev width : Nat := 640

/-- `HEIGHT`: the rows of `PB` (R5, R34). -/
abbrev height : Nat := 480

/-- `PIXELS`: the pixels of `PB` (R5). -/
abbrev pixels : Nat := width * height

/-- `CAP`: the bytes of `PB`, three a pixel (R5, R33). -/
abbrev capacity : Nat := pixels * 3

/-- `HDR_BYTES`: the tag and the reserved byte (R5, R50). -/
abbrev headerBytes : Nat := 2

/-- `PAYLOAD_BITS`: the bits of `CB[2 .. 921,599]` (R5). -/
abbrev payloadBits : Nat := 7372784

/-- `LUT_SIZE` (R5, R32). -/
abbrev lutSize : Nat := 65536

/-- `MASK_INIT` (R5). -/
abbrev maskInit : BitVec 8 := 0x80#8

/-- `TAG_L`, ASCII `'L'` (R5, R53). -/
abbrev tagL : Byte := 0x4C#8

/-- `TAG_P`, ASCII `'P'` (R5, R53). -/
abbrev tagP : Byte := 0x50#8

/-- `L_LEN_BIAS` (R5, R59). -/
abbrev copyLengthBias : Nat := 2

/-- `SENTINEL_BITS`: the value of `bits` that is `P.END` (R5, R66). -/
abbrev sentinelBits : Nat := 24

/-- The value `bits` starts from in the extended run code (R94). -/
abbrev firstExtendedBits : Nat := 3

/-- `INC_00_0` (R5, R57). -/
abbrev inc1914 : Nat := 1914
/-- `INC_01` (R5, R57). -/
abbrev inc1917 : Nat := 1917
/-- `INC_10` (R5, R57). -/
abbrev inc1920 : Nat := 1920
/-- `INC_11` (R5, R57). -/
abbrev inc1923 : Nat := 1923
/-- `INC_00_1` (R5, R57). -/
abbrev inc1926 : Nat := 1926

/-- The longest code of the stream, `P.RUNX` with `k = 23` (R60). -/
abbrev maxCodeBits : Nat := 46

end Sys2Proof.Config
end

