-- ==== Sys2Proof/Syntax.lean ====
section
/-!
DEFINITION. The instructions: one constructor per row of spec/opcode_table.json, in the table's order. An instruction is
one code of the bitstream (00_scope.md R9), or one of the two operations no bits of the payload select, START and
FILL.STEP, or the tag byte that START decodes. Operands are the raw stream fields of 30_encoding.md R54 to R57.
-/

namespace Sys2Proof

/-- One instruction of the core. -/
inductive Instr where
  /-- `TAG.L`: the byte `0x4C` at `CB[0]`, decoded by START (R53, R127). -/
  | tagL
  /-- `TAG.P`: the byte `0x50` at `CB[0]`, decoded by START (R53, R127). -/
  | tagP
  /-- `L.LIT b`: append the literal byte `b` (R54, R82). -/
  | lLit (b : Byte)
  /-- `L.COPY o, n`: append `n + 3` bytes of `LUT` from index `o` on; `o` is not 0 (R54, R83). -/
  | lCopy (o : BitVec 16) (n : BitVec 4)
  /-- `L.END`: the terminator (R54, R84). -/
  | lEnd
  /-- `P.RUN0`: skip no pixel (R55, R91). -/
  | pRun0
  /-- `P.RUN1`: skip one pixel (R55, R92). -/
  | pRun1
  /-- `P.RUNS v`: skip `v + 2` pixels (R55, R93). -/
  | pRuns (v : BitVec 2)
  /-- `P.RUNX 3, v`: skip `2^3 - 2 + v` pixels (R55, R94). -/
  | pRunx3 (v : BitVec 3)
  /-- `P.RUNX 4, v`: skip `2^4 - 2 + v` pixels (R55, R94). -/
  | pRunx4 (v : BitVec 4)
  /-- `P.RUNX 5, v`: skip `2^5 - 2 + v` pixels (R55, R94). -/
  | pRunx5 (v : BitVec 5)
  /-- `P.RUNX 6, v`: skip `2^6 - 2 + v` pixels (R55, R94). -/
  | pRunx6 (v : BitVec 6)
  /-- `P.RUNX 7, v`: skip `2^7 - 2 + v` pixels (R55, R94). -/
  | pRunx7 (v : BitVec 7)
  /-- `P.RUNX 8, v`: skip `2^8 - 2 + v` pixels (R55, R94). -/
  | pRunx8 (v : BitVec 8)
  /-- `P.RUNX 9, v`: skip `2^9 - 2 + v` pixels (R55, R94). -/
  | pRunx9 (v : BitVec 9)
  /-- `P.RUNX 10, v`: skip `2^10 - 2 + v` pixels (R55, R94). -/
  | pRunx10 (v : BitVec 10)
  /-- `P.RUNX 11, v`: skip `2^11 - 2 + v` pixels (R55, R94). -/
  | pRunx11 (v : BitVec 11)
  /-- `P.RUNX 12, v`: skip `2^12 - 2 + v` pixels (R55, R94). -/
  | pRunx12 (v : BitVec 12)
  /-- `P.RUNX 13, v`: skip `2^13 - 2 + v` pixels (R55, R94). -/
  | pRunx13 (v : BitVec 13)
  /-- `P.RUNX 14, v`: skip `2^14 - 2 + v` pixels (R55, R94). -/
  | pRunx14 (v : BitVec 14)
  /-- `P.RUNX 15, v`: skip `2^15 - 2 + v` pixels (R55, R94). -/
  | pRunx15 (v : BitVec 15)
  /-- `P.RUNX 16, v`: skip `2^16 - 2 + v` pixels (R55, R94). -/
  | pRunx16 (v : BitVec 16)
  /-- `P.RUNX 17, v`: skip `2^17 - 2 + v` pixels (R55, R94). -/
  | pRunx17 (v : BitVec 17)
  /-- `P.RUNX 18, v`: skip `2^18 - 2 + v` pixels (R55, R94). -/
  | pRunx18 (v : BitVec 18)
  /-- `P.RUNX 19, v`: skip `2^19 - 2 + v` pixels (R55, R94). -/
  | pRunx19 (v : BitVec 19)
  /-- `P.RUNX 20, v`: skip `2^20 - 2 + v` pixels (R55, R94). -/
  | pRunx20 (v : BitVec 20)
  /-- `P.RUNX 21, v`: skip `2^21 - 2 + v` pixels (R55, R94). -/
  | pRunx21 (v : BitVec 21)
  /-- `P.RUNX 22, v`: skip `2^22 - 2 + v` pixels (R55, R94). -/
  | pRunx22 (v : BitVec 22)
  /-- `P.RUNX 23, v`: skip `2^23 - 2 + v` pixels (R55, R94). -/
  | pRunx23 (v : BitVec 23)
  /-- `P.END`: the sentinel, 23 one-bits (R55, R95). -/
  | pEnd
  /-- `P.COLOR r, g, b, s`: a literal colour; `stamp` is the stamp flag `s` (R56, R101). -/
  | pColor (r g b : Byte) (stamp : Bool)
  /-- `S.EXIT`: leave the stamp loop (R57, R104). -/
  | sExit
  /-- `S.1914` (R57, R105). -/
  | s1914
  /-- `S.1926` (R57, R106). -/
  | s1926
  /-- `S.1917` (R57, R107). -/
  | s1917
  /-- `S.1920` (R57, R108). -/
  | s1920
  /-- `S.1923` (R57, R109). -/
  | s1923
  /-- START: the host's write of 1 to `CTRL.START`, no bits of the stream (R125). -/
  | start
  /-- FILL.STEP: one pixel of the gap-fill pass, no bits of the stream (R121). -/
  | fillStep
  deriving DecidableEq, Repr

end Sys2Proof
end

