-- ==== Sys2Proof/WellFormed.lean ====
section
/-!
DEFINITION. Which instruction terms are instructions of the hardware. The operand types already bound every field to the
bits the encoding gives it (30_encoding.md R54 to R57, R62), so one check is left.
-/

namespace Sys2Proof

/-- `L.COPY` has a non-zero offset: offset 0 is `L.END` (R54, R66). Every other term is well formed. -/
def Instr.wellFormed : Instr → Bool
  | .lCopy o _ => o != 0#16
  | .tagL | .tagP | .lLit _ | .lEnd | .pRun0 | .pRun1 | .pRuns _ => true
  | .pRunx3 _ | .pRunx4 _ | .pRunx5 _ | .pRunx6 _ | .pRunx7 _ => true
  | .pRunx8 _ | .pRunx9 _ | .pRunx10 _ | .pRunx11 _ | .pRunx12 _ => true
  | .pRunx13 _ | .pRunx14 _ | .pRunx15 _ | .pRunx16 _ | .pRunx17 _ => true
  | .pRunx18 _ | .pRunx19 _ | .pRunx20 _ | .pRunx21 _ | .pRunx22 _ => true
  | .pRunx23 _ => true
  | .pEnd | .pColor _ _ _ _ | .sExit | .s1914 | .s1926 | .s1917 | .s1920 | .s1923 | .start | .fillStep => true

end Sys2Proof
end

