-- ==== Sys2Proof/Decode.lean ====
section
/-!
DEFINITION. The decoder and the encoder of 30_encoding.md. Bits are in stream order, first bit read first (R58): a field's
first bit is its most significant. What the bits mean depends on where the sequencer reads them (R51), so the decoder
takes that place as an argument. It is total on every bit string and every answer that is no code has a name.
-/

namespace Sys2Proof

/-- The places at which an instruction is decoded (R50, R51): the host's command register, the tag byte that START looks
at, the four stream phases, and the gap-fill pass. -/
inductive DecodeSite where
  /-- A write of 1 to `CTRL.START`: START, which has no bits (R24, R125). -/
  | command
  /-- `CB[0]` at START: format T (R53). -/
  | tag
  /-- Phase `L_CODE` (R54). -/
  | lCode
  /-- Phase `P_RUN` (R55). -/
  | pRun
  /-- Phase `P_COLOR` (R56). -/
  | pColor
  /-- Phase `P_STAMP` (R57). -/
  | pStamp
  /-- Phase `P_FILL`: FILL.STEP, which has no bits (R51, R121). -/
  | fill
  deriving DecidableEq, Repr

/-- What the decoder answers. -/
inductive DecodeResult where
  /-- One instruction and the bits after it. -/
  | code (i : Instr) (rest : List Bool)
  /-- The bits end inside a code: in the stream phases the only way not to parse (R61). -/
  | needsMoreBits
  /-- A tag byte other than `0x4C` and `0x50`, the one illegal encoding (R65). -/
  | illegalTag (b : Byte)
  deriving DecidableEq, Repr

/-! ### Fields -/

/-- The number whose binary digits are `bits`, the first the most significant (R36, R58). -/
def bitsToNat : List Bool → Nat
  | [] => 0
  | b :: bs => b.toNat * 2 ^ bs.length + bitsToNat bs

/-- The `n` low binary digits of `v`, the most significant first (R36, R58). -/
def natToBits : Nat → Nat → List Bool
  | 0, _ => []
  | n + 1, v => v.testBit n :: natToBits n v

/-- The bits of a field, in stream order (R58). -/
def fieldBits {n : Nat} (v : BitVec n) : List Bool := natToBits n v.toNat

/-- Split an `n`-bit field off the front of the stream, if the bits are there (R58). -/
def takeField (n : Nat) (bits : List Bool) : Option (BitVec n × List Bool) :=
  if n ≤ bits.length then some (BitVec.ofNat n (bitsToNat (bits.take n)), bits.drop n) else none

/-- A code that ends with one `n`-bit operand. -/
def withField (n : Nat) (f : BitVec n → Instr) (bits : List Bool) : DecodeResult :=
  match takeField n bits with
  | some (v, rest) => .code (f v) rest
  | none => .needsMoreBits

/-! ### Decoding -/

/-- Format T: all eight bits are compared (R53, R65). -/
def decodeTagByte (b : Byte) : Option Instr :=
  if b = Config.tagL then some .tagL
  else if b = Config.tagP then some .tagP
  else none

/-- Format T as bits: the whole byte `CB[0]` (R53). -/
def decodeTag (bits : List Bool) : DecodeResult :=
  match takeField 8 bits with
  | none => .needsMoreBits
  | some (b, rest) =>
    match decodeTagByte b with
    | some i => .code i rest
    | none => .illegalTag b

/-- The codes of phase `L_CODE` (R54): flag 1 is `L.LIT`; flag 0 and offset 0 is `L.END`, whose code ends there; any other
offset is `L.COPY`. -/
def decodeLCode : List Bool → DecodeResult
  | [] => .needsMoreBits
  | true :: bits => withField 8 Instr.lLit bits
  | false :: bits =>
    match takeField 16 bits with
    | none => .needsMoreBits
    | some (o, rest) => if o = 0#16 then .code .lEnd rest else withField 4 (Instr.lCopy o) rest

/-- The payload of `P.RUNX` for each value of the code's parameter `k` (R55). No other `k` occurs. -/
def decodeRunx (k : Nat) (bits : List Bool) : DecodeResult :=
  match k with
  | 3 => withField 3 Instr.pRunx3 bits
  | 4 => withField 4 Instr.pRunx4 bits
  | 5 => withField 5 Instr.pRunx5 bits
  | 6 => withField 6 Instr.pRunx6 bits
  | 7 => withField 7 Instr.pRunx7 bits
  | 8 => withField 8 Instr.pRunx8 bits
  | 9 => withField 9 Instr.pRunx9 bits
  | 10 => withField 10 Instr.pRunx10 bits
  | 11 => withField 11 Instr.pRunx11 bits
  | 12 => withField 12 Instr.pRunx12 bits
  | 13 => withField 13 Instr.pRunx13 bits
  | 14 => withField 14 Instr.pRunx14 bits
  | 15 => withField 15 Instr.pRunx15 bits
  | 16 => withField 16 Instr.pRunx16 bits
  | 17 => withField 17 Instr.pRunx17 bits
  | 18 => withField 18 Instr.pRunx18 bits
  | 19 => withField 19 Instr.pRunx19 bits
  | 20 => withField 20 Instr.pRunx20 bits
  | 21 => withField 21 Instr.pRunx21 bits
  | 22 => withField 22 Instr.pRunx22 bits
  | 23 => withField 23 Instr.pRunx23 bits
  | _ => .needsMoreBits

/-- The unary prefix of the extended run code (R55, R95). `left` one-bits are still missing from the sentinel: it is 21
at the start, and `bits` of the rule is `24 - left`. The test for 24 is made after each one-bit, so the 21st ends the
code. -/
def decodeExtended : (left : Nat) → List Bool → DecodeResult
  | 0, bits => .code .pEnd bits
  | _ + 1, [] => .needsMoreBits
  | left + 1, true :: bits => decodeExtended left bits
  | left + 1, false :: bits => decodeRunx (Config.sentinelBits - (left + 1)) bits

/-- The codes of phase `P_RUN` (R55). -/
def decodePRun : List Bool → DecodeResult
  | false :: false :: bits => .code .pRun0 bits
  | false :: true :: bits => .code .pRun1 bits
  | true :: false :: bits => withField 2 Instr.pRuns bits
  | true :: true :: bits => decodeExtended (Config.sentinelBits - Config.firstExtendedBits) bits
  | _ => .needsMoreBits

/-- The code of phase `P_COLOR` (R56): three bytes and the stamp flag. -/
def decodePColor (bits : List Bool) : DecodeResult :=
  match takeField 8 bits with
  | none => .needsMoreBits
  | some (r, bits) =>
    match takeField 8 bits with
    | none => .needsMoreBits
    | some (g, bits) =>
      match takeField 8 bits with
      | none => .needsMoreBits
      | some (b, bits) =>
        match bits with
        | [] => .needsMoreBits
        | stamp :: rest => .code (.pColor r g b stamp) rest

/-- The codes of phase `P_STAMP` (R57). -/
def decodePStamp : List Bool → DecodeResult
  | false :: false :: false :: bits => .code .sExit bits
  | false :: false :: true :: false :: bits => .code .s1914 bits
  | false :: false :: true :: true :: bits => .code .s1926 bits
  | false :: true :: bits => .code .s1917 bits
  | true :: false :: bits => .code .s1920 bits
  | true :: true :: bits => .code .s1923 bits
  | _ => .needsMoreBits

/-- The decoder (R51): one instruction from the front of `bits`, as the place `site` reads them. -/
def decode (site : DecodeSite) (bits : List Bool) : DecodeResult :=
  match site with
  | .command => .code .start bits
  | .tag => decodeTag bits
  | .lCode => decodeLCode bits
  | .pRun => decodePRun bits
  | .pColor => decodePColor bits
  | .pStamp => decodePStamp bits
  | .fill => .code .fillStep bits

/-! ### Encoding -/

/-- The place at which an instruction is decoded (R51, R53). -/
def Instr.site : Instr → DecodeSite
  | .tagL | .tagP => .tag
  | .lLit _ | .lCopy _ _ | .lEnd => .lCode
  | .pRun0 | .pRun1 | .pRuns _ => .pRun
  | .pRunx3 _ | .pRunx4 _ | .pRunx5 _ | .pRunx6 _ | .pRunx7 _ => .pRun
  | .pRunx8 _ | .pRunx9 _ | .pRunx10 _ | .pRunx11 _ | .pRunx12 _ => .pRun
  | .pRunx13 _ | .pRunx14 _ | .pRunx15 _ | .pRunx16 _ | .pRunx17 _ => .pRun
  | .pRunx18 _ | .pRunx19 _ | .pRunx20 _ | .pRunx21 _ | .pRunx22 _ => .pRun
  | .pRunx23 _ => .pRun
  | .pEnd => .pRun
  | .pColor _ _ _ _ => .pColor
  | .sExit | .s1914 | .s1926 | .s1917 | .s1920 | .s1923 => .pStamp
  | .start => .command
  | .fillStep => .fill

/-- `P.RUNX k, v`: `11`, `k - 3` one-bits, a zero-bit, and `v` in `k` bits (R55). -/
def encodeRunx {k : Nat} (v : BitVec k) : List Bool :=
  true :: true :: (List.replicate (k - Config.firstExtendedBits) true ++ false :: fieldBits v)

/-- The bits of an instruction in stream order (R53 to R57); START and FILL.STEP have none. -/
def encode : Instr → List Bool
  | .tagL => fieldBits Config.tagL
  | .tagP => fieldBits Config.tagP
  | .lLit b => true :: fieldBits b
  | .lCopy o n => false :: (fieldBits o ++ fieldBits n)
  | .lEnd => false :: fieldBits 0#16
  | .pRun0 => [false, false]
  | .pRun1 => [false, true]
  | .pRuns v => true :: false :: fieldBits v
  | .pRunx3 v => encodeRunx v
  | .pRunx4 v => encodeRunx v
  | .pRunx5 v => encodeRunx v
  | .pRunx6 v => encodeRunx v
  | .pRunx7 v => encodeRunx v
  | .pRunx8 v => encodeRunx v
  | .pRunx9 v => encodeRunx v
  | .pRunx10 v => encodeRunx v
  | .pRunx11 v => encodeRunx v
  | .pRunx12 v => encodeRunx v
  | .pRunx13 v => encodeRunx v
  | .pRunx14 v => encodeRunx v
  | .pRunx15 v => encodeRunx v
  | .pRunx16 v => encodeRunx v
  | .pRunx17 v => encodeRunx v
  | .pRunx18 v => encodeRunx v
  | .pRunx19 v => encodeRunx v
  | .pRunx20 v => encodeRunx v
  | .pRunx21 v => encodeRunx v
  | .pRunx22 v => encodeRunx v
  | .pRunx23 v => encodeRunx v
  | .pEnd => List.replicate 23 true
  | .pColor r g b stamp => fieldBits r ++ (fieldBits g ++ (fieldBits b ++ [stamp]))
  | .sExit => [false, false, false]
  | .s1914 => [false, false, true, false]
  | .s1926 => [false, false, true, true]
  | .s1917 => [false, true]
  | .s1920 => [true, false]
  | .s1923 => [true, true]
  | .start => []
  | .fillStep => []

/-- The number of bits of an instruction (R60). -/
def codeLength (i : Instr) : Nat := (encode i).length

/-! ### Words of the opcode table

The table writes a code as a bit string in stream order. A word of whole bytes is numbered from the first byte on, the
first byte its low eight bits; any other word is the code's own bit string as one number, its last bit bit 0. A number
does not carry the phase its row belongs to, so the hook for table words looks for the place whose code fills the word
(assumption 5). -/

/-- The bytes of a word from its low end on, each with its most significant bit first (R35). -/
def wordBytesBits : (count w : Nat) → List Bool
  | 0, _ => []
  | count + 1, w => natToBits 8 w ++ wordBytesBits count (w / 256)

/-- The bit strings a table word is tried as, each going on with zeros: as bytes if it has whole bytes, and as one number
with its last bit bit 0. -/
def tableStreams (nbits w : Nat) : List (List Bool) :=
  let number := natToBits nbits w ++ List.replicate Config.maxCodeBits false
  if nbits % 8 = 0 then [wordBytesBits (nbits / 8) w ++ List.replicate Config.maxCodeBits false, number] else [number]

/-- The length of the code that `site` reads from `bits`, if it reads one. -/
def codeLengthAt (site : DecodeSite) (bits : List Bool) : Option Nat :=
  match decode site bits with
  | .code i _ => some (codeLength i)
  | .needsMoreBits => none
  | .illegalTag _ => none

/-- The places a table word is tried at, in this order. -/
def tableSites : List DecodeSite := [.tag, .pRun, .lCode, .pColor, .pStamp, .command]

/-- Every bit string with every place. -/
def tableCandidates (nbits w : Nat) : List (DecodeSite × List Bool) :=
  (tableStreams nbits w).flatMap fun bits => tableSites.map fun site => (site, bits)

/-- The place and the bit string whose code is exactly `nbits` long, else the first whose code is `nbits` long when
counted in whole bytes. -/
def tableCandidate (nbits w : Nat) : Option (DecodeSite × List Bool) :=
  match (tableCandidates nbits w).find? (fun c => codeLengthAt c.1 c.2 == some nbits) with
  | some c => some c
  | none =>
    (tableCandidates nbits w).find? fun c =>
      match codeLengthAt c.1 c.2 with
      | some n => (n + 7) / 8 * 8 == nbits
      | none => false

/-- The instruction the decoder reads from a word of the opcode table. -/
def decodeTableWord (nbits w : Nat) : Option Instr :=
  match tableCandidate nbits w with
  | none => none
  | some (site, bits) =>
    match decode site bits with
    | .code i _ => some i
    | .needsMoreBits => none
    | .illegalTag _ => none

end Sys2Proof
end

