-- ==== Sys2Proof/Machine/State.lean ====
section
/-!
DEFINITION. The state of the core: 10_state.md and 20_memory.md, as plain data, with the reasons for which a step can
stop. `STATUS` is a function of `phase` (R21), `CTRL` stores nothing (R24) and the transient registers of R12 are locals
of the meanings (93_implementation_defined.md W10, assumption 8).
-/

namespace Sys2Proof.Machine

/-- The sequencer's control state (R11). -/
inductive Phase where
  /-- After power-on, no decode has run. -/
  | idle
  /-- FormatL, at the start of a code. -/
  | lCode
  /-- FormatP, expecting a run code. -/
  | pRun
  /-- FormatP, expecting a literal colour and the stamp flag. -/
  | pColor
  /-- FormatP, inside the stamp loop. -/
  | pStamp
  /-- FormatP, the gap-fill pass. -/
  | pFill
  /-- The decode finished without error. -/
  | done
  /-- The decode was stopped by an error. -/
  | error
  deriving DecidableEq, Repr

/-- Three bytes in stream order; the names are positions, not colours of a display (R34). -/
structure Rgb where
  r : Byte
  g : Byte
  b : Byte
  deriving DecidableEq, Repr

/-- The triple `(0,0,0)`. -/
def Rgb.zero : Rgb := { r := 0#8, g := 0#8, b := 0#8 }

/-- The four errors (R140), in the order of their codes (R141). -/
inductive DecodeError where
  /-- `CB[0]` is neither tag (R142). -/
  | unsupportedFormat
  /-- `IN_LEN` is below 921,600 (R143). -/
  | truncatedInput
  /-- A bit is needed and the payload is used up (R144). -/
  | streamOverrun
  /-- FormatL would emit byte number 921,600 (R145). -/
  | decodeOverflow
  deriving DecidableEq, Repr

/-- One access of the host to the core (R20 to R24, R155). -/
inductive HostAccess where
  /-- Write one byte of `CB`. -/
  | writeCb (a : Nat) (v : Byte)
  /-- Write `IN_LEN`. -/
  | writeInLen (v : BitVec 32)
  /-- Write `CTRL`, whose one field is `CTRL.START`. -/
  | writeCtrl (startBit : BitVec 1)
  /-- Read `CTRL`. -/
  | readCtrl
  /-- Read `STATUS`. -/
  | readStatus
  /-- Read `ERR`. -/
  | readErr
  /-- Read one byte of `PB`. -/
  | readPb (a : Nat)
  deriving DecidableEq, Repr

/-- A byte memory: the bytes that differ from `0`, addresses strictly rising (20_memory.md R30; assumption 1). -/
abbrev Memory := List Host.Cell

/-- The state of one core. -/
structure State where
  /-- The control state (R11). -/
  phase : Phase
  /-- `cur.byte`: the byte of `CB` that holds the next bit (R10). -/
  curByte : Nat
  /-- `cur.mask`: one bit set, the next bit's place in that byte (R10). -/
  curMask : BitVec 8
  /-- FormatL: the number of bytes appended so far (R12). -/
  outLen : Nat
  /-- FormatP: the address in `PB` of the next pixel of the main loop (R12). -/
  outputPos : Nat
  /-- FormatP: the address in `PB` of the stamp cursor (R12). -/
  stampPos : Nat
  /-- FormatP: the most recent literal colour (R12, R101). -/
  col : Rgb
  /-- FormatP: the address of the triple the gap-fill pass is at (R12, R120). -/
  fillPos : Nat
  /-- FormatP: the gap-fill pass's most recently seen colour (R12, R120). -/
  carry : Rgb
  /-- `ERR`: 0, or the code of the error that stopped the decode (R22). -/
  err : BitVec 3
  /-- `IN_LEN`: the length the host gave for its file (R23). -/
  inLen : BitVec 32
  /-- `CB`, the compressed block (R31). -/
  cb : Memory
  /-- `LUT`, FormatL's lookup table (R32). -/
  lut : Memory
  /-- `PB`, the pixel buffer (R33). -/
  pb : Memory
  /-- THE MODEL'S OWN: what the host does at each of the coming steps, `none` for a step at which it does nothing; after
  the last entry it does nothing (assumption 3). -/
  hostSlots : List (Option HostAccess)
  deriving DecidableEq, Repr

/-- The state after power-on reset (R26, R160): `phase`, `ERR` and `IN_LEN` as the spec says; for every other register the
spec gives no value and the model names one (assumption 2); nothing is listed in the memories (assumption 1). -/
def State.reset : State where
  phase := .idle
  curByte := 2
  curMask := 0x80#8
  outLen := 0
  outputPos := 0
  stampPos := 0
  col := Rgb.zero
  fillPos := 0
  carry := Rgb.zero
  err := 0#3
  inLen := 0#32
  cb := []
  lut := []
  pb := []
  hostSlots := []

/-- Why the machine stops with a fault. No rule of the spec reaches one (R44); both are safe. -/
inductive Fault where
  /-- An access to `PB` at an address that does not exist, 921,600 or above (R30, R33). Raised by `loadTriple`,
  `storePb` and the host's read of `PB`. Safe: the machine stops. -/
  | pbAddress (a : Nat)
  /-- A host write to `CB` at an address that does not exist (R30, R31). Raised by `hostAccess`. Safe. -/
  | cbAddress (a : Nat)
  deriving DecidableEq, Repr

/-- Why the model gives no answer. -/
inductive Refusal where
  /-- An instruction without a meaning. Raised by `exec` only, by name. Safe. -/
  | notModelled (mnemonic : String)
  /-- A host write of `CB` or `IN_LEN` while `STATUS` is BUSY, to which the spec gives no meaning (R155, D18, W5).
  Raised by `hostAccess`. Safe. -/
  | hostWriteWhileBusy
  /-- A host read of `PB` while `STATUS` is not DONE, outside the host's "may" column (R155, D18). Raised by
  `hostAccess`. Safe. -/
  | pbReadOutsideDone
  /-- `readBits(n)` with `n` outside 1 .. 24, which never occurs (R74, D24, W7). Raised by `readBits`. Safe. -/
  | readBitsWidth (n : Nat)
  /-- The decoder found no code in a stream phase. Raised by `runCodeAt`; it cannot happen, since every 46 bits begin
  with a code (R61). Safe. -/
  | noCode
  deriving DecidableEq, Repr

end Sys2Proof.Machine
end

