-- ==== Sys2Proof/Machine/Flags.lean ====
section
/-!
DEFINITION. The hardware has no condition codes (10_state.md R15). The status a host can see is the two-bit `STATUS`, a
function of `phase` (R21), and the numeric codes of `ERR` (R22, R141).
-/

namespace Sys2Proof.Machine

/-- `STATUS` (R21): 0 IDLE, 1 BUSY, 2 DONE, 3 ERROR (the numbers are decision D5). -/
def Phase.status : Phase → BitVec 2
  | .idle => 0#2
  | .lCode | .pRun | .pColor | .pStamp | .pFill => 1#2
  | .done => 2#2
  | .error => 3#2

/-- `STATUS = BUSY` (R21). -/
def Phase.busy (p : Phase) : Bool := p.status == 1#2

/-- The code of an error in `ERR` (R141; the numbers are decision D8). -/
def DecodeError.code : DecodeError → BitVec 3
  | .unsupportedFormat => 1#3
  | .truncatedInput => 2#3
  | .streamOverrun => 3#3
  | .decodeOverflow => 4#3

end Sys2Proof.Machine
end

