-- ==== Sys2Proof/Machine/Operands.lean ====
section
/-!
DEFINITION. The operands a code derives from its fields (30_encoding.md R58, R59). All are unsigned and exact (R7); the
only modular operation is the `LUT` index (20_memory.md R32).
-/

namespace Sys2Proof.Machine

/-- `length` of `L.COPY`: the four-bit field plus 2 (R59, R83). -/
def copyLength (n : BitVec 4) : Nat := n.toNat + Config.copyLengthBias

/-- A `LUT` index: `a & 0xFFFF`, that is `a` mod 65,536 (R8, R32). -/
def lutIndex (a : Nat) : Nat := a % Config.lutSize

/-- `runLength` of `P.RUNS v` (R59, R93). -/
def shortRunLength (v : BitVec 2) : Nat := v.toNat + 2

/-- `runLength` of `P.RUNX k, v`: `(2^k - 1) + v - 1` (R59, R94). -/
def extendedRunLength {k : Nat} (v : BitVec k) : Nat := (2 ^ k - 1) + v.toNat - 1

end Sys2Proof.Machine
end

