-- ==== Sys2Proof/Machine/Ops.lean ====
section
/-!
DEFINITION. The operations the meanings are written in: reading and writing the memories and the registers, the BitCursor
(40_bitcursor.md), raising an error (60_exceptions.md R146), and the shared halves of the codes (`append`, `runAdvance`,
`nextPixel`, `stampAdvance`, `enterFill`, the per-decode initialisation).
-/

namespace Sys2Proof.Machine

/-! ### Memory -/

/-- What a byte that no cell lists reads as: 0 (R27 for `LUT` and `PB` after START; assumption 1 for power-on). -/
def Memory.unlisted : Byte := 0#8

/-- Read one byte (R8, R38). -/
def Memory.read : Memory → Nat → Byte
  | [], _ => Memory.unlisted
  | (b, v) :: m, a => if b = a then v else Memory.read m a

/-- List the byte `x` at address `a`, at its place in the rising order. -/
def Memory.list : Memory → Nat → Byte → Memory
  | [], a, x => [(a, x)]
  | (b, v) :: m, a, x =>
    if b < a then (b, v) :: Memory.list m a x
    else if b = a then (a, x) :: m
    else (a, x) :: (b, v) :: m

/-- Write one byte (R8, R38). The list stays in its canonical form: a byte equal to what an unlisted address reads as is
not listed. -/
def Memory.write (m : Memory) (a : Nat) (x : Byte) : Memory :=
  if x = Memory.unlisted then m.filter fun c => c.1 != a else Memory.list m a x

/-- A memory whose every byte is 0 (R128). -/
def Memory.cleared : Memory := []

/-- The canonical form of a memory: addresses strictly rising, and no byte listed that an unlisted address reads as. -/
abbrev Memory.wf (m : Memory) : Prop :=
  m.Pairwise (fun c d => c.1 < d.1) ∧ ∀ c ∈ m, c.2 ≠ Memory.unlisted

/-- Every listed address is below `size`. -/
abbrev Memory.within (size : Nat) (m : Memory) : Prop := ∀ c ∈ m, c.1 < size

/-! ### Registers -/

/-- Write the cursor (R10). -/
def State.setCursor (s : State) (byte : Nat) (mask : BitVec 8) : State := { s with curByte := byte, curMask := mask }
/-- Write `phase`: the control transfer `phase <- p` (R8). -/
def State.setPhase (s : State) (p : Phase) : State := { s with phase := p }
/-- Write `outLen`. -/
def State.setOutLen (s : State) (n : Nat) : State := { s with outLen := n }
/-- Write `outputPos`. -/
def State.setOutputPos (s : State) (a : Nat) : State := { s with outputPos := a }
/-- Write `stampPos`. -/
def State.setStampPos (s : State) (a : Nat) : State := { s with stampPos := a }
/-- Write `col`. -/
def State.setCol (s : State) (c : Rgb) : State := { s with col := c }
/-- Write `fillPos`. -/
def State.setFillPos (s : State) (a : Nat) : State := { s with fillPos := a }
/-- Write `carry`. -/
def State.setCarry (s : State) (c : Rgb) : State := { s with carry := c }
/-- Write `err`. -/
def State.setErr (s : State) (e : BitVec 3) : State := { s with err := e }
/-- Write `inLen`. -/
def State.setInLen (s : State) (n : BitVec 32) : State := { s with inLen := n }
/-- Write `cb`. -/
def State.setCb (s : State) (m : Memory) : State := { s with cb := m }
/-- Write `lut`. -/
def State.setLut (s : State) (m : Memory) : State := { s with lut := m }
/-- Write `pb`. -/
def State.setPb (s : State) (m : Memory) : State := { s with pb := m }
/-- Write `hostSlots`. -/
def State.setHostSlots (s : State) (h : List (Option HostAccess)) : State := { s with hostSlots := h }

/-- One byte of `CB`. -/
def State.readCb (s : State) (a : Nat) : Byte := s.cb.read a
/-- One byte of `LUT`. -/
def State.readLut (s : State) (a : Nat) : Byte := s.lut.read a
/-- One byte of `PB`. -/
def State.readPb (s : State) (a : Nat) : Byte := s.pb.read a
/-- The triple of `PB` at `a`, `a + 1`, `a + 2` (R7). -/
def State.readTriple (s : State) (a : Nat) : Rgb :=
  { r := s.readPb a, g := s.readPb (a + 1), b := s.readPb (a + 2) }

/-! ### Sequencing inside an instruction -/

/-- Where a sub-step of an instruction leaves the machine (R147). -/
inductive Flow (α : Type) where
  /-- The sub-step has its value and the next sub-step follows. -/
  | go (v : α) (s : State)
  /-- An error was raised: it is recorded in the state, and nothing that follows executes (R146). -/
  | raised (s : State)
  /-- An address that does not exist. -/
  | fault (f : Fault)
  /-- Outside what the spec defines. -/
  | refused (r : Refusal)
  deriving DecidableEq, Repr

/-- Program order: the next sub-step runs only if this one went through (R146, R147). -/
def Flow.andThen {α β : Type} (x : Flow α) (k : α → State → Flow β) : Flow β :=
  match x with
  | .go v s => k v s
  | .raised s => .raised s
  | .fault f => .fault f
  | .refused r => .refused r

/-- The end of an instruction. A raised error is a next state: the machine is in phase ERROR. -/
def Flow.outcome {α : Type} (x : Flow α) : Host.Outcome State Fault Refusal :=
  match x with
  | .go _ s => .next s
  | .raised s => .next s
  | .fault f => .fault f
  | .refused r => .refused r

/-! ### Errors -/

/-- The state an error leaves (R146): `ERR` holds its code and the phase is ERROR; nothing else changes. -/
def State.withError (s : State) (e : DecodeError) : State := (s.setErr e.code).setPhase .error

/-- `raise` (R146). There is no return from it: only START and power-on leave ERROR (R149). -/
def raise {α : Type} (e : DecodeError) (s : State) : Flow α := .raised (s.withError e)

/-! ### The BitCursor -/

/-- `readBit()` (R71, R73). -/
def readBit (s : State) : Flow Bool :=
  if Config.blockSize ≤ s.curByte then raise .streamOverrun s
  else
    let bit := (s.readCb s.curByte &&& s.curMask) != 0#8
    let mask := s.curMask >>> 1
    .go bit (if mask = 0#8 then s.setCursor (s.curByte + 1) Config.maskInit else s.setCursor s.curByte mask)

/-- The loop of `readBits` (R72): `n` more bits, the first of them bit `n - 1` of the result. -/
def readBitsFrom : (n result : Nat) → State → Flow Nat
  | 0, result, s => .go result s
  | k + 1, result, s =>
    (readBit s).andThen fun bit s => readBitsFrom k (if bit then result ||| (1 <<< k) else result) s

/-- `readBits(n)` (R72), defined for 1 ≤ n ≤ 24 only (R74). -/
def readBits (n : Nat) (s : State) : Flow Nat :=
  if 1 ≤ n ∧ n ≤ 24 then readBitsFrom n 0 s else .refused (.readBitsWidth n)

/-- Consume the next `n` bits of the running instruction. Their values are the instruction's operands, which the decoder
has already split off; what is left to do is to move the cursor, or to raise StreamOverrun (R71, R147). -/
def takeBits (n : Nat) (s : State) : Flow Unit := (readBitsFrom n 0 s).andThen fun _ s => .go () s

/-- The next bits of the payload at the cursor, at most `n`, fewer at the end of the block (R71). Nothing is consumed. -/
def streamAhead : Nat → State → List Bool
  | 0, _ => []
  | n + 1, s =>
    match readBit s with
    | .go bit s' => bit :: streamAhead n s'
    | .raised _ => []
    | .fault _ => []
    | .refused _ => []

/-! ### Writing `PB` and `LUT` -/

/-- `PB[a] <- v`. An address outside `PB` does not exist (R30); no rule reaches one (R44). -/
def storePb (a : Nat) (v : Byte) (s : State) : Flow Unit :=
  if a < Config.capacity then .go () (s.setPb (s.pb.write a v)) else .fault (.pbAddress a)

/-- A triple write: three byte writes in ascending order (R38). -/
def storeTriple (a : Nat) (c : Rgb) (s : State) : Flow Unit :=
  (storePb a c.r s).andThen fun _ s =>
  (storePb (a + 1) c.g s).andThen fun _ s =>
  storePb (a + 2) c.b s

/-- A triple read (R7, R121). -/
def loadTriple (a : Nat) (s : State) : Flow Rgb :=
  if a + 2 < Config.capacity then .go (s.readTriple a) s else .fault (.pbAddress (a + 2))

/-- `LUT[a & 0xFFFF] <- v` (R32). -/
def storeLut (a : Nat) (v : Byte) (s : State) : Flow Unit := .go () (s.setLut (s.lut.write (lutIndex a) v))

/-- `phase <- p`, the last sub-step of most codes (R8). -/
def goPhase (p : Phase) (s : State) : Flow Unit := .go () (s.setPhase p)

/-! ### FormatL -/

/-- `append(v)` (R81): the table index is the output length after the byte was counted. -/
def append (v : Byte) (s : State) : Flow Unit :=
  if Config.capacity ≤ s.outLen then raise .decodeOverflow s
  else
    (storePb s.outLen v s).andThen fun _ s =>
    let s := s.setOutLen (s.outLen + 1)
    storeLut s.outLen v s

/-- The copy loop of `L.COPY` (R83): `count` more iterations, the next with loop counter `i`. Each reads the table at the
absolute index `(i + offset) & 0xFFFF` and appends before the next one reads (R87, R163). -/
def copyLoop (offset : Nat) : (count i : Nat) → State → Flow Unit
  | 0, _, s => .go () s
  | count + 1, i, s =>
    let value := s.readLut (lutIndex (i + offset))
    (append value s).andThen fun _ s => copyLoop offset count (i + 1) s

/-! ### FormatP -/

/-- `enterFill()` (R120). -/
def enterFill (s : State) : Flow Unit := goPhase .pFill ((s.setFillPos 0).setCarry Rgb.zero)

/-- `runAdvance(runLength)` (R96). -/
def runAdvance (runLength : Nat) (s : State) : Flow Unit :=
  let s := s.setOutputPos (s.outputPos + 3 * runLength)
  if Config.capacity ≤ s.outputPos then enterFill s else goPhase .pColor s

/-- `nextPixel()` (R102). -/
def nextPixel (s : State) : Flow Unit :=
  let s := s.setOutputPos (s.outputPos + 3)
  if s.outputPos < Config.capacity then goPhase .pRun s else enterFill s

/-- `stampAdvance(inc)` (R110). -/
def stampAdvance (inc : Nat) (s : State) : Flow Unit :=
  let s := s.setStampPos (s.stampPos + inc)
  if Config.capacity ≤ s.stampPos + 2 then nextPixel s
  else (storeTriple s.stampPos s.col s).andThen fun _ s => goPhase .pStamp s

/-- A run code of `length` bits (R91 to R94): its bits, then the run advance. -/
def runCode (length runLength : Nat) (s : State) : Flow Unit :=
  (takeBits length s).andThen fun _ s => runAdvance runLength s

/-- A stamp code of `length` bits (R105 to R109): its bits, then the stamp advance. -/
def stampCode (length inc : Nat) (s : State) : Flow Unit :=
  (takeBits length s).andThen fun _ s => stampAdvance inc s

/-! ### The dispatcher -/

/-- The per-decode initialisation (R128, R27). `stampPos`, `fillPos` and `carry` keep what they held. -/
def initDecode (s : State) : State :=
  (((((s.setLut Memory.cleared).setPb Memory.cleared).setCursor Config.headerBytes Config.maskInit).setOutLen 0).setOutputPos
    0).setCol Rgb.zero

end Sys2Proof.Machine
end

