-- ==== Sys2Proof/Machine/FormatL.lean ====
section
/-!
DEFINITION. The codes of phase `L_CODE` (41_format_l.md). Each meaning is the whole code: its bits are consumed first, so
StreamOverrun comes before DecodeOverflow (60_exceptions.md R148).
-/

namespace Sys2Proof.Machine

/-- `L.LIT b` (R82): 9 bits, then `append(b)`. -/
def execLLit (b : Byte) (s : State) : Host.Outcome State Fault Refusal :=
  ((takeBits 9 s).andThen fun _ s => (append b s).andThen fun _ s => goPhase .lCode s).outcome

/-- `L.COPY o, n` (R83): 21 bits, then `length + 1` iterations of the copy loop. -/
def execLCopy (o : BitVec 16) (n : BitVec 4) (s : State) : Host.Outcome State Fault Refusal :=
  ((takeBits 21 s).andThen fun _ s =>
    (copyLoop o.toNat (copyLength n + 1) 0 s).andThen fun _ s => goPhase .lCode s).outcome

/-- `L.END` (R84): 17 bits, then the decode is finished (R131). -/
def execLEnd (s : State) : Host.Outcome State Fault Refusal :=
  ((takeBits 17 s).andThen fun _ s => goPhase .done s).outcome

end Sys2Proof.Machine
end

