-- ==== Sys2Proof/Machine/FormatPPixel.lean ====
section
/-!
DEFINITION. The codes of the phases `P_COLOR` and `P_STAMP` (42_format_p.md R101 to R111).
-/

namespace Sys2Proof.Machine

/-- `P.COLOR r, g, b, s` (R101): the 24 colour bits are read, the three bytes are written, and only then the stamp flag is
read; an overrun on the flag leaves the colour written (R147, decision D21). -/
def execPColor (r g b : Byte) (stamp : Bool) (s : State) : Host.Outcome State Fault Refusal :=
  ((takeBits 24 s).andThen fun _ s =>
    (storeTriple s.outputPos { r := r, g := g, b := b } s).andThen fun _ s =>
    let s := s.setCol { r := r, g := g, b := b }
    (takeBits 1 s).andThen fun _ s =>
    if stamp then goPhase .pStamp (s.setStampPos s.outputPos) else nextPixel s).outcome

/-- `S.EXIT` (R104): 3 bits, then the next pixel. -/
def execSExit (s : State) : Host.Outcome State Fault Refusal :=
  ((takeBits 3 s).andThen fun _ s => nextPixel s).outcome

/-- `S.1914` (R105): 4 bits. -/
def execS1914 (s : State) : Host.Outcome State Fault Refusal := (stampCode 4 Config.inc1914 s).outcome

/-- `S.1926` (R106): 4 bits. -/
def execS1926 (s : State) : Host.Outcome State Fault Refusal := (stampCode 4 Config.inc1926 s).outcome

/-- `S.1917` (R107): 2 bits. -/
def execS1917 (s : State) : Host.Outcome State Fault Refusal := (stampCode 2 Config.inc1917 s).outcome

/-- `S.1920` (R108): 2 bits. -/
def execS1920 (s : State) : Host.Outcome State Fault Refusal := (stampCode 2 Config.inc1920 s).outcome

/-- `S.1923` (R109): 2 bits. -/
def execS1923 (s : State) : Host.Outcome State Fault Refusal := (stampCode 2 Config.inc1923 s).outcome

end Sys2Proof.Machine
end

