-- ==== Sys2Proof/Machine/FormatPRun.lean ====
section
/-!
DEFINITION. The codes of phase `P_RUN` (42_format_p.md R91 to R97).
-/

namespace Sys2Proof.Machine

/-- `P.RUN0` (R91): 2 bits, run of 0 pixels. -/
def execPRun0 (s : State) : Host.Outcome State Fault Refusal := (runCode 2 0 s).outcome

/-- `P.RUN1` (R92): 2 bits, run of 1 pixel. -/
def execPRun1 (s : State) : Host.Outcome State Fault Refusal := (runCode 2 1 s).outcome

/-- `P.RUNS v` (R93): 4 bits. -/
def execPRuns (v : BitVec 2) (s : State) : Host.Outcome State Fault Refusal := (runCode 4 (shortRunLength v) s).outcome

/-- `P.RUNX 3, v` (R94): 6 bits. -/
def execPRunx3 (v : BitVec 3) (s : State) : Host.Outcome State Fault Refusal :=
  (runCode 6 (extendedRunLength v) s).outcome

/-- `P.RUNX 4, v` (R94): 8 bits. -/
def execPRunx4 (v : BitVec 4) (s : State) : Host.Outcome State Fault Refusal :=
  (runCode 8 (extendedRunLength v) s).outcome

/-- `P.RUNX 5, v` (R94): 10 bits. -/
def execPRunx5 (v : BitVec 5) (s : State) : Host.Outcome State Fault Refusal :=
  (runCode 10 (extendedRunLength v) s).outcome

/-- `P.RUNX 6, v` (R94): 12 bits. -/
def execPRunx6 (v : BitVec 6) (s : State) : Host.Outcome State Fault Refusal :=
  (runCode 12 (extendedRunLength v) s).outcome

/-- `P.RUNX 7, v` (R94): 14 bits. -/
def execPRunx7 (v : BitVec 7) (s : State) : Host.Outcome State Fault Refusal :=
  (runCode 14 (extendedRunLength v) s).outcome

/-- `P.RUNX 8, v` (R94): 16 bits. -/
def execPRunx8 (v : BitVec 8) (s : State) : Host.Outcome State Fault Refusal :=
  (runCode 16 (extendedRunLength v) s).outcome

/-- `P.RUNX 9, v` (R94): 18 bits. -/
def execPRunx9 (v : BitVec 9) (s : State) : Host.Outcome State Fault Refusal :=
  (runCode 18 (extendedRunLength v) s).outcome

/-- `P.RUNX 10, v` (R94): 20 bits. -/
def execPRunx10 (v : BitVec 10) (s : State) : Host.Outcome State Fault Refusal :=
  (runCode 20 (extendedRunLength v) s).outcome

/-- `P.RUNX 11, v` (R94): 22 bits. -/
def execPRunx11 (v : BitVec 11) (s : State) : Host.Outcome State Fault Refusal :=
  (runCode 22 (extendedRunLength v) s).outcome

/-- `P.RUNX 12, v` (R94): 24 bits. -/
def execPRunx12 (v : BitVec 12) (s : State) : Host.Outcome State Fault Refusal :=
  (runCode 24 (extendedRunLength v) s).outcome

/-- `P.RUNX 13, v` (R94): 26 bits. -/
def execPRunx13 (v : BitVec 13) (s : State) : Host.Outcome State Fault Refusal :=
  (runCode 26 (extendedRunLength v) s).outcome

/-- `P.RUNX 14, v` (R94): 28 bits. -/
def execPRunx14 (v : BitVec 14) (s : State) : Host.Outcome State Fault Refusal :=
  (runCode 28 (extendedRunLength v) s).outcome

/-- `P.RUNX 15, v` (R94): 30 bits. -/
def execPRunx15 (v : BitVec 15) (s : State) : Host.Outcome State Fault Refusal :=
  (runCode 30 (extendedRunLength v) s).outcome

/-- `P.RUNX 16, v` (R94): 32 bits. -/
def execPRunx16 (v : BitVec 16) (s : State) : Host.Outcome State Fault Refusal :=
  (runCode 32 (extendedRunLength v) s).outcome

/-- `P.RUNX 17, v` (R94): 34 bits. -/
def execPRunx17 (v : BitVec 17) (s : State) : Host.Outcome State Fault Refusal :=
  (runCode 34 (extendedRunLength v) s).outcome

/-- `P.RUNX 18, v` (R94): 36 bits. -/
def execPRunx18 (v : BitVec 18) (s : State) : Host.Outcome State Fault Refusal :=
  (runCode 36 (extendedRunLength v) s).outcome

/-- `P.RUNX 19, v` (R94): 38 bits. -/
def execPRunx19 (v : BitVec 19) (s : State) : Host.Outcome State Fault Refusal :=
  (runCode 38 (extendedRunLength v) s).outcome

/-- `P.RUNX 20, v` (R94): 40 bits. -/
def execPRunx20 (v : BitVec 20) (s : State) : Host.Outcome State Fault Refusal :=
  (runCode 40 (extendedRunLength v) s).outcome

/-- `P.RUNX 21, v` (R94): 42 bits. -/
def execPRunx21 (v : BitVec 21) (s : State) : Host.Outcome State Fault Refusal :=
  (runCode 42 (extendedRunLength v) s).outcome

/-- `P.RUNX 22, v` (R94): 44 bits. -/
def execPRunx22 (v : BitVec 22) (s : State) : Host.Outcome State Fault Refusal :=
  (runCode 44 (extendedRunLength v) s).outcome

/-- `P.RUNX 23, v` (R94): 46 bits. -/
def execPRunx23 (v : BitVec 23) (s : State) : Host.Outcome State Fault Refusal :=
  (runCode 46 (extendedRunLength v) s).outcome

/-- `P.END` (R95): 23 bits, then the gap-fill pass starts; `outputPos` is not changed. -/
def execPEnd (s : State) : Host.Outcome State Fault Refusal :=
  ((takeBits 23 s).andThen fun _ s => enterFill s).outcome

end Sys2Proof.Machine
end

