-- ==== Sys2Proof/Machine/GapFill.lean ====
section
/-!
DEFINITION. The gap-fill pass (43_gapfill.md): one pixel per step.
-/

namespace Sys2Proof.Machine

/-- FILL.STEP (R121): a triple `(0,0,0)` takes the carry, any other triple becomes the carry. Black is a gap (R123). -/
def execFillStep (s : State) : Host.Outcome State Fault Refusal :=
  ((loadTriple s.fillPos s).andThen fun t s =>
    (if t = Rgb.zero then storeTriple s.fillPos s.carry s else .go () (s.setCarry t)).andThen fun _ s =>
    let s := s.setFillPos (s.fillPos + 3)
    if Config.capacity ≤ s.fillPos then goPhase .done s else .go () s).outcome

end Sys2Proof.Machine
end

