-- ==== Sys2Proof/Machine/Starting.lean ====
section
/-!
DEFINITION. START and the two tags (44_dispatcher.md R125 to R128).
-/

namespace Sys2Proof.Machine

/-- TAG.L (R127): FormatL is selected; the decode state is initialised and the first code is read in `L_CODE`. -/
def execTagL (s : State) : Host.Outcome State Fault Refusal := (goPhase .lCode (initDecode s)).outcome

/-- TAG.P (R127): FormatP is selected; the decode state is initialised and the first code is read in `P_RUN`. -/
def execTagP (s : State) : Host.Outcome State Fault Refusal := (goPhase .pRun (initDecode s)).outcome

/-- START (R125): clear `ERR`, check the length, decode the tag, initialise, hand over. While BUSY it has no effect
(R24). The decoded tag runs inside START, which is one step (R125, R169). -/
def execStart (s : State) : Host.Outcome State Fault Refusal :=
  if s.phase.busy then .next s
  else
    let s := s.setErr 0#3
    if s.inLen.toNat < Config.blockSize then .next (s.withError .truncatedInput)
    else
      match decodeTagByte (s.readCb 0) with
      | some .tagL => execTagL s
      | some .tagP => execTagP s
      | _ => .next (s.withError .unsupportedFormat)

end Sys2Proof.Machine
end

