-- ==== Sys2Proof/Machine/Dispatch.lean ====
section
/-! DEFINITION. The meaning of each instruction, one arm per constructor. -/

namespace Sys2Proof.Machine

def exec (i : Instr) (s : State) : Host.Outcome State Fault Refusal :=
  match i with
  | .tagL => Sys2Proof.Machine.execTagL s
  | .tagP => Sys2Proof.Machine.execTagP s
  | .lLit b => Sys2Proof.Machine.execLLit b s
  | .lCopy o n => Sys2Proof.Machine.execLCopy o n s
  | .lEnd => Sys2Proof.Machine.execLEnd s
  | .pRun0 => Sys2Proof.Machine.execPRun0 s
  | .pRun1 => Sys2Proof.Machine.execPRun1 s
  | .pRuns v => Sys2Proof.Machine.execPRuns v s
  | .pRunx3 v => Sys2Proof.Machine.execPRunx3 v s
  | .pRunx4 v => Sys2Proof.Machine.execPRunx4 v s
  | .pRunx5 v => Sys2Proof.Machine.execPRunx5 v s
  | .pRunx6 v => Sys2Proof.Machine.execPRunx6 v s
  | .pRunx7 v => Sys2Proof.Machine.execPRunx7 v s
  | .pRunx8 v => Sys2Proof.Machine.execPRunx8 v s
  | .pRunx9 v => Sys2Proof.Machine.execPRunx9 v s
  | .pRunx10 v => Sys2Proof.Machine.execPRunx10 v s
  | .pRunx11 v => Sys2Proof.Machine.execPRunx11 v s
  | .pRunx12 v => Sys2Proof.Machine.execPRunx12 v s
  | .pRunx13 v => Sys2Proof.Machine.execPRunx13 v s
  | .pRunx14 v => Sys2Proof.Machine.execPRunx14 v s
  | .pRunx15 v => Sys2Proof.Machine.execPRunx15 v s
  | .pRunx16 v => Sys2Proof.Machine.execPRunx16 v s
  | .pRunx17 v => Sys2Proof.Machine.execPRunx17 v s
  | .pRunx18 v => Sys2Proof.Machine.execPRunx18 v s
  | .pRunx19 v => Sys2Proof.Machine.execPRunx19 v s
  | .pRunx20 v => Sys2Proof.Machine.execPRunx20 v s
  | .pRunx21 v => Sys2Proof.Machine.execPRunx21 v s
  | .pRunx22 v => Sys2Proof.Machine.execPRunx22 v s
  | .pRunx23 v => Sys2Proof.Machine.execPRunx23 v s
  | .pEnd => Sys2Proof.Machine.execPEnd s
  | .pColor r g b stamp => Sys2Proof.Machine.execPColor r g b stamp s
  | .sExit => Sys2Proof.Machine.execSExit s
  | .s1914 => Sys2Proof.Machine.execS1914 s
  | .s1926 => Sys2Proof.Machine.execS1926 s
  | .s1917 => Sys2Proof.Machine.execS1917 s
  | .s1920 => Sys2Proof.Machine.execS1920 s
  | .s1923 => Sys2Proof.Machine.execS1923 s
  | .start => Sys2Proof.Machine.execStart s
  | .fillStep => Sys2Proof.Machine.execFillStep s

end Sys2Proof.Machine
end

