-- ==== Sys2Proof/Machine/Sequencer.lean ====
section
/-!
DEFINITION. What one step of the machine does around an instruction: fetching the code at the cursor in the phase's own
grammar (30_encoding.md R51), the host's access to the core (60_exceptions.md R155), and placing a table word where the
next step fetches it.
-/

namespace Sys2Proof.Machine

/-- What the decoder looks at: the payload's next bits, and beyond the end of the block zeros. The zeros decide nothing: a
code that needs one of them overruns before it does anything with it (R61, R144; assumption 7). -/
def fetchBits (s : State) : List Bool :=
  streamAhead Config.maxCodeBits s ++ List.replicate Config.maxCodeBits false

/-- Run the code at the cursor (R9, R51). -/
def runCodeAt (site : DecodeSite) (s : State) : Host.Outcome State Fault Refusal :=
  match decode site (fetchBits s) with
  | .code i _ => exec i s
  | .needsMoreBits => .refused .noCode
  | .illegalTag _ => .refused .noCode

/-- The sequencer's own step (R51): a code in the stream phases, a pixel in `P_FILL`, nothing in the others (R152). -/
def sequencerStep (s : State) : Host.Outcome State Fault Refusal :=
  match s.phase with
  | .idle => .next s
  | .lCode => runCodeAt .lCode s
  | .pRun => runCodeAt .pRun s
  | .pColor => runCodeAt .pColor s
  | .pStamp => runCodeAt .pStamp s
  | .pFill => exec .fillStep s
  | .done => .next s
  | .error => .next s

/-- One access of the host (R155). A write of `CB` or `IN_LEN` while BUSY and a read of `PB` outside DONE have no meaning
in the spec and are refused (D18); reads change nothing (R38); START is R24's write of 1. -/
def hostAccess (a : HostAccess) (s : State) : Host.Outcome State Fault Refusal :=
  match a with
  | .writeCb addr v =>
    if s.phase.busy then .refused .hostWriteWhileBusy
    else if addr < Config.blockSize then .next (s.setCb (s.cb.write addr v))
    else .fault (.cbAddress addr)
  | .writeInLen v => if s.phase.busy then .refused .hostWriteWhileBusy else .next (s.setInLen v)
  | .writeCtrl startBit => if startBit = 1#1 then exec .start s else .next s
  | .readCtrl => .next s
  | .readStatus => .next s
  | .readErr => .next s
  | .readPb addr =>
    if s.phase = .done then (if addr < Config.capacity then .next s else .fault (.pbAddress addr))
    else .refused .pbReadOutsideDone

/-- The value a host read returns, `none` for a write and for a read the contract does not allow (R21 to R24, R155). -/
def hostReadValue (a : HostAccess) (s : State) : Option Nat :=
  match a with
  | .writeCb _ _ => none
  | .writeInLen _ => none
  | .writeCtrl _ => none
  | .readCtrl => some 0
  | .readStatus => some s.phase.status.toNat
  | .readErr => some s.err.toNat
  | .readPb addr => if s.phase = .done ∧ addr < Config.capacity then some (s.readPb addr).toNat else none

/-- One step: the host's access if the coming slot holds one, else the sequencer's step (assumption 3). -/
def stepMachine (s : State) : Host.Outcome State Fault Refusal :=
  match s.hostSlots with
  | [] => sequencerStep s
  | none :: later => sequencerStep (s.setHostSlots later)
  | some a :: later => hostAccess a (s.setHostSlots later)

/-- Write `count` bytes of a bit string to `CB` from `addr` on, the first bit the most significant of the first byte
(R35). -/
def storeStream : (count addr : Nat) → List Bool → Memory → Memory
  | 0, _, _, m => m
  | count + 1, addr, bits, m =>
    storeStream count (addr + 1) (bits.drop 8) (m.write addr (BitVec.ofNat 8 (bitsToNat (bits.take 8))))

/-- The phase in which the codes of a place are read (R51). -/
def sitePhase : DecodeSite → Phase
  | .command => .idle
  | .tag => .idle
  | .lCode => .lCode
  | .pRun => .pRun
  | .pColor => .pColor
  | .pStamp => .pStamp
  | .fill => .pFill

/-- Place a table word so that the next step runs it (assumptions 5 and 6). A tag goes to `CB[0]` of a full-length block,
with the host's START as the next access; START needs that access only; a stream code goes to the start of the payload,
with the cursor there, the code's phase, and no host access at the next step. -/
def placeTableWord (s : State) (nbits w : Nat) : State :=
  match tableCandidate nbits w with
  | some (.tag, _) =>
    (((s.setCb (s.cb.write 0 (BitVec.ofNat 8 w))).setInLen (BitVec.ofNat 32 Config.blockSize)).setPhase .idle).setHostSlots
      (some (.writeCtrl 1#1) :: s.hostSlots)
  | some (.command, _) => (s.setPhase .idle).setHostSlots (some (.writeCtrl 1#1) :: s.hostSlots)
  | some (site, bits) =>
    (((s.setCb (storeStream 6 Config.headerBytes bits s.cb)).setCursor Config.headerBytes Config.maskInit).setPhase
      (sitePhase site)).setHostSlots (none :: s.hostSlots)
  | none => s.setHostSlots (none :: s.hostSlots)

end Sys2Proof.Machine
end

