-- ==== Sys2Proof/Machine/Step.lean ====
section
/-! DEFINITION. One step of the machine, and the host's hook that places an instruction for the next step. -/

namespace Sys2Proof.Machine

/-- One step (00_scope.md R9): the host's access of the coming slot, or one instruction of the sequencer. -/
def step (s : State) : Host.Outcome State Fault Refusal := stepMachine s

/-- `s` with a word of the opcode table where the next step runs it. -/
def State.withFetchWord (s : State) (nbits w : Nat) : State := placeTableWord s nbits w

end Sys2Proof.Machine
end

