-- ==== Sys2Proof/Safety.lean ====
section
/-!
DEFINITION. The terms in which claims speak of a state: where the cursor stands in the payload, which states are legal
(the ranges of 10_state.md R10 and R12 and the canonical form of the memories), which phase changes exist (30_encoding.md
R52), and how many steps a decode has left (70_reset_and_hazards.md R169).
-/

namespace Sys2Proof.Machine

/-- Bit `p` of the payload, counted from 0: bit `7 - (p mod 8)` of `CB[2 + p / 8]` (R35, R75). -/
def State.payloadBit (s : State) (p : Nat) : Bool := (s.readCb (2 + p / 8)).getLsbD (7 - p % 8)

/-- The cursor designates payload bit `p` (R10): byte `2 + p / 8`, and the mask of bit `7 - (p mod 8)`. For `p` equal to
the number of payload bits this is the resting place `(921,600, 0x80)` behind the last bit. -/
abbrev State.CursorAt (s : State) (p : Nat) : Prop := s.curByte = 2 + p / 8 ∧ s.curMask = 0x80#8 >>> (p % 8)

/-- R10's linear bit position, `8 · (cur.byte - 2) + (7 - log2 cur.mask)`. -/
def State.bitPos (s : State) : Nat := 8 * (s.curByte - 2) + (7 - s.curMask.toNat.log2)

/-- The ranges of R10, R12 and R22 and the canonical form of the three memories. -/
structure State.Legal (s : State) : Prop where
  /-- The cursor stands at a payload bit or just behind the last one (R10). -/
  cursor : s.CursorAt s.bitPos ∧ s.bitPos ≤ Config.payloadBits
  /-- R12. -/
  outLen : s.outLen ≤ Config.capacity
  /-- R12: a multiple of 3, at most 51,253,236. -/
  outputPos : s.outputPos % 3 = 0 ∧ s.outputPos ≤ 51253236
  /-- R12: in the main loop's phases the pixel lies in `PB`. -/
  mainLoop : s.phase = .pRun ∨ s.phase = .pColor ∨ s.phase = .pStamp → s.outputPos ≤ 921597
  /-- R12: a multiple of 3, at most 923,523. -/
  stampPos : s.stampPos % 3 = 0 ∧ s.stampPos ≤ 923523
  /-- R110, R111: inside the stamp loop the stamp lies in `PB`, at `outputPos` or beyond. -/
  stampLoop : s.phase = .pStamp → s.outputPos ≤ s.stampPos ∧ s.stampPos ≤ 921597
  /-- R12: a multiple of 3, at most 921,600. -/
  fillPos : s.fillPos % 3 = 0 ∧ s.fillPos ≤ 921600
  /-- R121: inside the pass the pixel lies in `PB`. -/
  fillLoop : s.phase = .pFill → s.fillPos ≤ 921597
  /-- R22, R146: `ERR` is 0 to 4, and it is 0 unless the phase is ERROR. -/
  err : s.err.toNat ≤ 4 ∧ (s.phase = .error ↔ s.err ≠ 0)
  /-- `CB` is canonical and has no byte outside its 921,600 (R31). -/
  cb : s.cb.wf ∧ s.cb.within Config.blockSize
  /-- `LUT` is canonical and has no byte outside its 65,536 (R32). -/
  lut : s.lut.wf ∧ s.lut.within Config.lutSize
  /-- `PB` is canonical and has no byte outside its 921,600 (R33). -/
  pb : s.pb.wf ∧ s.pb.within Config.capacity

/-- FormatL's table invariant (R85) and the part of `PB` not yet written (R84, R131): output byte number `k`, the last
one at its index, stands at table index `(k + 1) & 0xFFFF`; other indices and the bytes from `outLen` on are 0. -/
structure State.TableHolds (s : State) : Prop where
  /-- An index that some output length up to now has reached holds the latest such byte. -/
  written : ∀ m, 1 ≤ m → m ≤ s.outLen → s.outLen < m + Config.lutSize →
    s.readLut (m % Config.lutSize) = s.readPb (m - 1)
  /-- An index no output length has reached holds 0. -/
  unwritten : ∀ j, j < Config.lutSize → (∀ m, 1 ≤ m → m ≤ s.outLen → m % Config.lutSize ≠ j) → s.readLut j = 0
  /-- Nothing has been written from `outLen` on. -/
  beyond : ∀ a, s.outLen ≤ a → s.readPb a = 0

/-- The pairs of R52: the phases a step may lead to, each phase to itself aside. -/
def Phase.mayGoTo : Phase → List Phase
  | .idle => [.lCode, .pRun, .error]
  | .lCode => [.done, .error]
  | .pRun => [.pColor, .pFill, .error]
  | .pColor => [.pRun, .pStamp, .pFill, .error]
  | .pStamp => [.pRun, .pFill, .error]
  | .pFill => [.done]
  | .done => [.lCode, .pRun, .error]
  | .error => [.lCode, .pRun]

/-- A bound on the steps a decode has left (R169): every stream code uses two bits or more, and the gap-fill pass takes
one step a pixel. -/
def State.stepsLeft (s : State) : Nat :=
  match s.phase with
  | .idle => 0
  | .lCode | .pRun | .pColor | .pStamp => (Config.payloadBits - s.bitPos) / 2 + Config.pixels
  | .pFill => (Config.capacity - s.fillPos) / 3
  | .done => 0
  | .error => 0

/-- The next state of an outcome that has one. -/
def nextState (o : Host.Outcome State Fault Refusal) : Option State :=
  match o with
  | .next s => some s
  | .fault _ => none
  | .refused _ => none

/-- `n` steps, if each has a next state. -/
def runSteps : (n : Nat) → State → Option State
  | 0, s => some s
  | n + 1, s =>
    match nextState (step s) with
    | some t => runSteps n t
    | none => none

/-- The place at which a phase's codes are read; the other phases read none (R51). -/
def Phase.site : Phase → Option DecodeSite
  | .idle => none
  | .lCode => some .lCode
  | .pRun => some .pRun
  | .pColor => some .pColor
  | .pStamp => some .pStamp
  | .pFill => none
  | .done => none
  | .error => none

/-- The payload from bit `p` on, as far as the longest code reaches and the block goes. -/
def State.payloadFrom (s : State) (p : Nat) : List Bool :=
  (List.range' p (min Config.maxCodeBits (Config.payloadBits - p))).map s.payloadBit

/-- The host does nothing at the coming step, and `s0` is the state with that slot used up (assumption 3). -/
def State.HostPasses (s s0 : State) : Prop :=
  (s.hostSlots = [] ∧ s0 = s) ∨ ∃ later, s.hostSlots = none :: later ∧ s0 = s.setHostSlots later

/-- StreamOverrun and nothing else: every payload bit is consumed, `ERR` is 3 and the phase is ERROR (R144). -/
def State.overrun (s : State) : State := { s with curByte := 921600, curMask := 0x80#8, err := 3#3, phase := .error }

/-- The codes of the stream: those the payload holds (R54 to R57). -/
def isStreamCode (i : Instr) : Bool :=
  i.site == .lCode || i.site == .pRun || i.site == .pColor || i.site == .pStamp

/-- The number of bytes a FormatL code appends (R82 to R84), `none` for the other instructions. -/
def appendCount : Instr → Option Nat
  | .lLit _ => some 1
  | .lCopy _ n => some (n.toNat + 3)
  | .lEnd => some 0
  | _ => none

/-- R55's table: the length in bits and the run of each run code, `none` for the other instructions. -/
def runTable : Instr → Option (Nat × Nat)
  | .pRun0 => some (2, 0)
  | .pRun1 => some (2, 1)
  | .pRuns v => some (4, v.toNat + 2)
  | .pRunx3 v => some (6, 6 + v.toNat)
  | .pRunx4 v => some (8, 14 + v.toNat)
  | .pRunx5 v => some (10, 30 + v.toNat)
  | .pRunx6 v => some (12, 62 + v.toNat)
  | .pRunx7 v => some (14, 126 + v.toNat)
  | .pRunx8 v => some (16, 254 + v.toNat)
  | .pRunx9 v => some (18, 510 + v.toNat)
  | .pRunx10 v => some (20, 1022 + v.toNat)
  | .pRunx11 v => some (22, 2046 + v.toNat)
  | .pRunx12 v => some (24, 4094 + v.toNat)
  | .pRunx13 v => some (26, 8190 + v.toNat)
  | .pRunx14 v => some (28, 16382 + v.toNat)
  | .pRunx15 v => some (30, 32766 + v.toNat)
  | .pRunx16 v => some (32, 65534 + v.toNat)
  | .pRunx17 v => some (34, 131070 + v.toNat)
  | .pRunx18 v => some (36, 262142 + v.toNat)
  | .pRunx19 v => some (38, 524286 + v.toNat)
  | .pRunx20 v => some (40, 1048574 + v.toNat)
  | .pRunx21 v => some (42, 2097150 + v.toNat)
  | .pRunx22 v => some (44, 4194302 + v.toNat)
  | .pRunx23 v => some (46, 8388606 + v.toNat)
  | _ => none

/-- R57's table: the length in bits and the increment of each stamp code, `none` for the other instructions. -/
def stampTable : Instr → Option (Nat × Nat)
  | .s1914 => some (4, 1914)
  | .s1926 => some (4, 1926)
  | .s1917 => some (2, 1917)
  | .s1920 => some (2, 1920)
  | .s1923 => some (2, 1923)
  | _ => none

/-- The gap-fill pass is at its start (R120). -/
def State.AtFillStart (t : State) : Prop := t.phase = .pFill ∧ t.fillPos = 0 ∧ t.carry = Rgb.zero

/-- `t` closes the pixel record of `s` (R102). -/
def State.ClosesPixelOf (t s : State) : Prop :=
  t.outputPos = s.outputPos + 3 ∧
    (s.outputPos + 3 < Config.capacity → t.phase = .pRun) ∧ (Config.capacity ≤ s.outputPos + 3 → t.AtFillStart)

/-- What the `k`-th appended byte of `L.COPY o, n` is (R83): the table byte at `(k + o) & 0xFFFF`, unless an earlier
iteration `j` of the same code wrote that index, when it is the byte that iteration appended. -/
def State.CopiesByte (s t : State) (o k : Nat) : Prop :=
  (∀ j < k, (s.outLen + 1 + j) % 65536 = (k + o) % 65536 → t.readPb (s.outLen + k) = t.readPb (s.outLen + j)) ∧
    ((∀ j < k, (s.outLen + 1 + j) % 65536 ≠ (k + o) % 65536) →
      t.readPb (s.outLen + k) = s.readLut ((k + o) % 65536))

/-- `c` is the colour the gap-fill pass carries at pixel `q` of the buffer of `s` (R121, R122): the nearest one below `q`,
`(0,0,0)` if there is none. -/
def State.NearestColor (s : State) (q : Nat) (c : Rgb) : Prop :=
  (∃ j < q, s.readTriple (3 * j) ≠ Rgb.zero ∧ c = s.readTriple (3 * j) ∧
    ∀ m, j < m → m < q → s.readTriple (3 * m) = Rgb.zero) ∨
  ((∀ j < q, s.readTriple (3 * j) = Rgb.zero) ∧ c = Rgb.zero)

/-- The gap-fill pass that started on the buffer of `s0` has come as far as `s` (R121, R122): the pixels below `fillPos`
hold the pass's result, the bytes from there on are untouched, and the carry is the nearest colour. -/
structure State.PassHolds (s s0 : State) : Prop where
  /-- The pass stands at a pixel, or behind the last one. -/
  position : s.fillPos % 3 = 0 ∧ s.fillPos ≤ 921600
  /-- It is done when it has gone through all of `PB` (R132). -/
  phase : (s.fillPos < 921600 → s.phase = .pFill) ∧ (s.fillPos = 921600 → s.phase = .done)
  /-- A colour stays, a gap takes the nearest colour below it. -/
  behind : ∀ q, 3 * q < s.fillPos →
    (s0.readTriple (3 * q) ≠ Rgb.zero → s.readTriple (3 * q) = s0.readTriple (3 * q)) ∧
    (s0.readTriple (3 * q) = Rgb.zero → s0.NearestColor q (s.readTriple (3 * q)))
  /-- Nothing is written ahead of the pass. -/
  ahead : ∀ a, s.fillPos ≤ a → s.readPb a = s0.readPb a
  /-- The carry is the nearest colour. -/
  carry : s0.NearestColor (s.fillPos / 3) s.carry

/-- Two states agree on all that their phase reads from here on (R28): the inputs but for `CB[1]`, and of the rest what
the codes of the phase read before they write it; in DONE on the result. -/
structure State.Agrees (s1 s2 : State) : Prop where
  phase : s1.phase = s2.phase
  err : s1.err = s2.err
  inLen : s1.inLen = s2.inLen
  /-- The reserved byte does not matter (R67). -/
  cb : ∀ a, a ≠ 1 → s1.readCb a = s2.readCb a
  hostSlots : s1.hostSlots = s2.hostSlots
  cursor : s1.phase.site ≠ none → s1.curByte = s2.curByte ∧ s1.curMask = s2.curMask
  formatL : s1.phase = .lCode → s1.outLen = s2.outLen ∧ ∀ a, s1.readLut a = s2.readLut a
  formatP : s1.phase = .pRun ∨ s1.phase = .pColor ∨ s1.phase = .pStamp → s1.outputPos = s2.outputPos
  stamp : s1.phase = .pStamp → s1.stampPos = s2.stampPos ∧ s1.col = s2.col
  fill : s1.phase = .pFill → s1.fillPos = s2.fillPos ∧ s1.carry = s2.carry
  pb : s1.phase.busy = true ∨ s1.phase = .done → ∀ a, s1.readPb a = s2.readPb a

/-- The row of R52 that instruction `i`, run from `s`, ends in with `t`. -/
def PhaseRow (i : Instr) (s t : State) : Prop :=
  match i with
  | .tagL => t.phase = .lCode
  | .tagP => t.phase = .pRun
  | .lLit _ | .lCopy _ _ => t.phase = .lCode ∨ t.phase = .error
  | .lEnd => t.phase = .done ∨ t.phase = .error
  | .pRun0 | .pRun1 | .pRuns _ => RunRow t
  | .pRunx3 _ | .pRunx4 _ | .pRunx5 _ | .pRunx6 _ | .pRunx7 _ => RunRow t
  | .pRunx8 _ | .pRunx9 _ | .pRunx10 _ | .pRunx11 _ | .pRunx12 _ => RunRow t
  | .pRunx13 _ | .pRunx14 _ | .pRunx15 _ | .pRunx16 _ | .pRunx17 _ => RunRow t
  | .pRunx18 _ | .pRunx19 _ | .pRunx20 _ | .pRunx21 _ | .pRunx22 _ => RunRow t
  | .pRunx23 _ => RunRow t
  | .pEnd => t.phase = .pFill ∨ t.phase = .error
  | .pColor _ _ _ stamp => (if stamp then t.phase = .pStamp else PixelRow t) ∨ t.phase = .error
  | .sExit => PixelRow t ∨ t.phase = .error
  | .s1914 | .s1926 | .s1917 | .s1920 | .s1923 =>
    (t.phase = .pStamp ∧ t.stampPos + 2 < Config.capacity) ∨ (Config.capacity ≤ t.stampPos + 2 ∧ PixelRow t) ∨
      t.phase = .error
  | .start =>
    if s.inLen.toNat < Config.blockSize then t.phase = .error
    else if s.readCb 0 = 0x4C#8 then t.phase = .lCode
    else if s.readCb 0 = 0x50#8 then t.phase = .pRun
    else t.phase = .error
  | .fillStep =>
    (t.fillPos < Config.capacity ∧ t.phase = .pFill) ∨ (Config.capacity ≤ t.fillPos ∧ t.phase = .done)
where
  RunRow (t : State) : Prop :=
    (t.outputPos < Config.capacity ∧ t.phase = .pColor) ∨ (Config.capacity ≤ t.outputPos ∧ t.phase = .pFill) ∨
      t.phase = .error
  PixelRow (t : State) : Prop :=
    (t.outputPos < Config.capacity ∧ t.phase = .pRun) ∨ (Config.capacity ≤ t.outputPos ∧ t.phase = .pFill)

/-- The phase in which an instruction is executed: the phase whose codes it is among, `P_FILL` for FILL.STEP, and one that
is not BUSY for START (R52). -/
def RunsIn (i : Instr) (p : Phase) : Prop :=
  match i.site with
  | .command => p.busy = false
  | .tag => p.busy = false
  | .lCode => p = .lCode
  | .pRun => p = .pRun
  | .pColor => p = .pColor
  | .pStamp => p = .pStamp
  | .fill => p = .pFill

end Sys2Proof.Machine
end

