-- ==== Sys2Proof/Certificates/Slice0/Obligations.lean ====
section
/-!
DEFINITION. The statements for the provers. Each docstring names the rules of spec/ a statement formalises. `ERR` codes,
the phases and the place of each check are the spec's own decisions (92_eei_decisions.md D2, D5, D8, D10, D13, D14, D15,
D16, D21); where a rule carries such a marker the docstring says so.
-/

open Sys2Proof Sys2Proof.Machine

/-! ### Encoding -/

/-- R53 to R57: decoding what the encoder writes gives the instruction back, with every operand, whatever bits follow. -/
def Obligations.DecodeOfEncodeIsTheInstruction : Prop :=
  ∀ (i : Instr) (rest : List Bool), i.wellFormed = true → decode i.site (encode i ++ rest) = .code i rest

/-- R61 (an inference the spec marks as its own, from R54 to R57): in a stream phase a bit string either begins with the
code the decoder reads and with no other code of that phase, or is too short for any. No other answer exists. -/
def Obligations.EveryBitStringBeginsWithOneCode : Prop :=
  ∀ (site : DecodeSite) (bits : List Bool), site ∈ [DecodeSite.lCode, .pRun, .pColor, .pStamp] →
    (∃ i rest, decode site bits = .code i rest ∧ i.wellFormed = true ∧ i.site = site ∧ bits = encode i ++ rest ∧
        ∀ j rest', j.wellFormed = true → j.site = site → bits = encode j ++ rest' → j = i ∧ rest' = rest) ∨
      (decode site bits = .needsMoreBits ∧ bits.length < 46 ∧
        ∀ i rest, i.wellFormed = true → i.site = site → bits ≠ encode i ++ rest)

/-- R97 (an inference the spec marks as its own, from R91 to R94): every run length from 0 to 16,777,213 has exactly one
run code, and no run code has another length. -/
def Obligations.EveryRunLengthHasExactlyOneCode : Prop :=
  (∀ n ≤ 16777213, ∃ i, (∃ len, runTable i = some (len, n)) ∧ ∀ j len, runTable j = some (len, n) → j = i) ∧
    ∀ i len n, runTable i = some (len, n) → n ≤ 16777213 ∧ len = codeLength i

/-- R53, R65: the tag byte is compared in all its eight bits (the numeric values of the two letters are the spec's general
knowledge, assumption 11). -/
def Obligations.TagByteIsComparedWhole : Prop :=
  ∀ b : Byte, decode .tag (fieldBits b) =
    if b = 0x4C#8 then .code .tagL [] else if b = 0x50#8 then .code .tagP [] else .illegalTag b

/-- R54 to R57: words written out from the spec's encodings, one of each format, decode to what they stand for. -/
def Obligations.WrittenOutWordsDecode : Prop :=
  decode .lCode [true, false, true, false, false, false, false, false, true] = .code (.lLit 0x41#8) [] ∧
  decode .lCode [false, false, false, false, true, false, false, true, false, false, false, true, true, false, true, false,
    false, false, false, false, true] = .code (.lCopy 0x1234#16 1#4) [] ∧
  decode .pRun [true, true, true, true, false, false, false, false, false, true] = .code (.pRunx5 1#5) [] ∧
  decode .pColor [false, false, false, false, true, false, true, false, false, false, false, true, false, true, false, false,
    false, false, false, true, true, true, true, false, true] = .code (.pColor 10#8 20#8 30#8 true) [] ∧
  decode .pStamp [false, false, true, true, false] = .code .s1926 [false]

/-! ### The bit cursor and the step -/

/-- R71: `readBit` returns the bit at the cursor, most significant first, and moves the cursor by one bit; behind the last
payload bit it raises StreamOverrun and moves nothing. -/
def Obligations.ReadBitTakesTheBitAtTheCursor : Prop :=
  ∀ (s : State) (p : Nat), s.CursorAt p →
    (p < Config.payloadBits → ∃ t, readBit s = .go (s.payloadBit p) t ∧ t.CursorAt (p + 1) ∧
      t = s.setCursor t.curByte t.curMask) ∧
    (p = Config.payloadBits → readBit s = .raised { s with err := 3#3, phase := .error })

/-- R72: `readBits(n)` makes the first bit read the most significant; if it runs off the block, the bits before stay
consumed and no value is returned. -/
def Obligations.ReadBitsMakesTheFirstBitMostSignificant : Prop :=
  ∀ (s : State) (p n : Nat), s.CursorAt p → p ≤ Config.payloadBits → 1 ≤ n → n ≤ 24 →
    (p + n ≤ Config.payloadBits → ∃ v t, readBits n s = .go v t ∧ v < 2 ^ n ∧
      (∀ k < n, v.testBit (n - 1 - k) = s.payloadBit (p + k)) ∧ t.CursorAt (p + n) ∧
      t = s.setCursor t.curByte t.curMask) ∧
    (Config.payloadBits < p + n → readBits n s = .raised s.overrun)

/-- R75 (the second property, an inference the spec marks as its own): one read of `a + b` bits is the two reads of `a`
and of `b` bits, from any state, errors included. -/
def Obligations.ReadBitsOfASumIsTwoReads : Prop :=
  ∀ (s : State) (a b : Nat), 1 ≤ a → 1 ≤ b → a + b ≤ 24 →
    readBits (a + b) s =
      (readBits a s).andThen fun x s => (readBits b s).andThen fun y s => .go ((x <<< b) ||| y) s

/-- R9, R51: when the payload at the cursor begins with a code of the phase, the step is that code's execution. The slot of
the host that passed is used up (assumption 3). -/
def Obligations.StepRunsTheCodeAtTheCursor : Prop :=
  ∀ (s s0 : State) (p : Nat) (site : DecodeSite) (i : Instr) (rest : List Bool),
    s.HostPasses s0 → s.CursorAt p → p ≤ Config.payloadBits → s.phase.site = some site →
    decode site (s.payloadFrom p) = .code i rest → step s = exec i s0

/-- R51, R121, R152, R24: without a code to read, the step is FILL.STEP in `P_FILL` and nothing in IDLE, DONE and ERROR;
and a host's write of 1 to `CTRL.START` is START's execution. -/
def Obligations.StepWithoutACode : Prop :=
  ∀ s s0 : State,
    (s.HostPasses s0 → s.phase = .pFill → step s = exec .fillStep s0) ∧
    (s.HostPasses s0 → s.phase = .idle ∨ s.phase = .done ∨ s.phase = .error → step s = .next s0) ∧
    (∀ later, s.hostSlots = some (.writeCtrl 1#1) :: later → step s = exec .start (s.setHostSlots later))

/-- R144, R147, R61: a code that the end of the block cuts off raises StreamOverrun, with every bit consumed and nothing
else done, except that a `P.COLOR` of which only the flag is missing has written its colour (R101, decision D21). -/
def Obligations.CutCodeRaisesStreamOverrun : Prop :=
  ∀ (s s0 : State) (p : Nat) (site : DecodeSite),
    s.HostPasses s0 → s.CursorAt p → p ≤ Config.payloadBits → s.phase.site = some site →
    decode site (s.payloadFrom p) = .needsMoreBits →
    (¬(s.phase = .pColor ∧ p + 24 = Config.payloadBits) → step s = .next s0.overrun) ∧
    (s.phase = .pColor → p + 24 = Config.payloadBits → s.outputPos + 2 < Config.capacity →
      ∃ t c, step s = .next t ∧ t.readTriple s.outputPos = c ∧ t.col = c ∧
        fieldBits c.r ++ (fieldBits c.g ++ fieldBits c.b) = s.payloadFrom p ∧
        (∀ a, a < s.outputPos ∨ s.outputPos + 2 < a → t.readPb a = s.readPb a) ∧
        t = ({ s0 with pb := t.pb, col := t.col } : State).overrun)

/-- R10: only forward. A stream code moves the cursor by its length, or to the end of the block with StreamOverrun;
FILL.STEP does not move it. -/
def Obligations.CursorMovesForwardByTheCodeLength : Prop :=
  ∀ (i : Instr) (s t : State) (p : Nat), s.CursorAt p → p ≤ Config.payloadBits → exec i s = .next t →
    (isStreamCode i = true → p + codeLength i ≤ Config.payloadBits → t.CursorAt (p + codeLength i)) ∧
    (isStreamCode i = true → Config.payloadBits < p + codeLength i →
      t.CursorAt Config.payloadBits ∧ t.err = 3#3 ∧ t.phase = .error) ∧
    (i = .fillStep → t.CursorAt p)

/-! ### Errors -/

/-- R146: `raise` records the code in `ERR` and makes the phase ERROR, and nothing that follows it executes; in ERROR the
sequencer does nothing. The numbers are decision D8. -/
def Obligations.RaiseRecordsTheErrorAndHalts : Prop :=
  (∀ (e : DecodeError) (s : State) (k : Unit → State → Flow Unit),
    (raise e s : Flow Unit).andThen k = .raised { s with
      err := match e with
        | .unsupportedFormat => 1#3
        | .truncatedInput => 2#3
        | .streamOverrun => 3#3
        | .decodeOverflow => 4#3
      phase := .error }) ∧
  ∀ s s0 : State, s.phase = .error → s.HostPasses s0 → step s = .next s0

/-- R140, R142 to R145: an instruction that changes `ERR` is START, which clears it or finds another tag (1) or a short
block (2); a stream code that needs a bit when the payload is used up (3); or `L.LIT` or `L.COPY` appending past a full
buffer (4). -/
def Obligations.ErrorsHaveTheirOwnCauses : Prop :=
  ∀ (i : Instr) (s t : State), exec i s = .next t → t.err ≠ s.err →
    (i = .start ∧ t.err = 0#3) ∨
    (i = .start ∧ t.err = 1#3 ∧ 921600 ≤ s.inLen.toNat ∧ s.readCb 0 ≠ 0x4C#8 ∧ s.readCb 0 ≠ 0x50#8) ∨
    (i = .start ∧ t.err = 2#3 ∧ s.inLen.toNat < 921600) ∨
    (isStreamCode i = true ∧ t.err = 3#3 ∧ t.phase = .error ∧ 921600 ≤ t.curByte ∧
      ∀ p, s.CursorAt p → p ≤ Config.payloadBits → Config.payloadBits < p + codeLength i) ∨
    ((∃ n, appendCount i = some n ∧ 921600 < s.outLen + n) ∧ t.err = 4#3 ∧ t.phase = .error)

/-- R145: appending byte number 921,600 raises DecodeOverflow, after all bits of the code were read; the iterations of an
`L.COPY` before it stay; filling `PB` exactly is no error. In FormatP it never occurs. -/
def Obligations.DecodeOverflowOnlyPastAFullBuffer : Prop :=
  (∀ (i : Instr) (n : Nat) (s : State) (p : Nat), appendCount i = some n → s.CursorAt p →
    p + codeLength i ≤ Config.payloadBits → s.outLen ≤ 921600 →
    (921600 < s.outLen + n → ∃ t, exec i s = .next t ∧ t.err = 4#3 ∧ t.phase = .error ∧ t.outLen = 921600 ∧
      t.CursorAt (p + codeLength i) ∧ (∀ a < s.outLen, t.readPb a = s.readPb a) ∧
      ∀ o m, i = .lCopy o m → ∀ k, s.outLen + k < 921600 → s.CopiesByte t o.toNat k) ∧
    (s.outLen + n ≤ 921600 → ∃ t, exec i s = .next t ∧ t.err = s.err ∧ t.outLen = s.outLen + n)) ∧
  ∀ (i : Instr) (s t : State), appendCount i = none → exec i s = .next t → t.err = 4#3 → s.err = 4#3

/-! ### START, reset, the host -/

/-- R125, R128, R27: START on a full-length block with a known tag zeroes both memories, puts the cursor at payload bit 0,
zeroes `outLen`, `outputPos` and `col` (`col` by decision D11), clears `ERR` and hands over to the decoder the tag selects.
It changes nothing else; that `stampPos`, `fillPos` and `carry` keep their values is the model's reading of R125's
pseudocode (assumption 15). -/
def Obligations.StartInitialisesTheDecode : Prop :=
  ∀ s : State, s.phase.busy = false → 921600 ≤ s.inLen.toNat → s.readCb 0 = 0x4C#8 ∨ s.readCb 0 = 0x50#8 →
    ∃ t, exec .start s = .next t ∧ t.err = 0#3 ∧ (∀ a, t.readLut a = 0#8) ∧ (∀ a, t.readPb a = 0#8) ∧
      t.curByte = 2 ∧ t.curMask = 0x80#8 ∧ t.outLen = 0 ∧ t.outputPos = 0 ∧ t.col = Rgb.zero ∧
      (s.readCb 0 = 0x4C#8 → t.phase = .lCode) ∧ (s.readCb 0 = 0x50#8 → t.phase = .pRun) ∧
      t.cb = s.cb ∧ t.inLen = s.inLen ∧ t.stampPos = s.stampPos ∧ t.fillPos = s.fillPos ∧ t.carry = s.carry ∧
      t.hostSlots = s.hostSlots

/-- R126, R143: a block shorter than 921,600 bytes raises TruncatedInput before the tag is looked at, and changes nothing
else. -/
def Obligations.ShortInputRaisesTruncatedInput : Prop :=
  ∀ s : State, s.phase.busy = false → s.inLen.toNat < 921600 →
    exec .start s = .next { s with err := 2#3, phase := .error }

/-- R127, R142: any other tag raises UnsupportedFormat, and changes nothing else. -/
def Obligations.UnknownTagRaisesUnsupportedFormat : Prop :=
  ∀ s : State, s.phase.busy = false → 921600 ≤ s.inLen.toNat → s.readCb 0 ≠ 0x4C#8 → s.readCb 0 ≠ 0x50#8 →
    exec .start s = .next { s with err := 1#3, phase := .error }

/-- R24: a write of 1 to `CTRL.START` while `STATUS` is not BUSY performs START, while BUSY it has no effect; a write of 0
never has one; `CTRL` reads as 0. -/
def Obligations.ControlStartIsIgnoredWhileBusy : Prop :=
  ∀ s : State,
    (s.phase.busy = true → exec .start s = .next s ∧ hostAccess (.writeCtrl 1#1) s = .next s) ∧
    (s.phase.busy = false → hostAccess (.writeCtrl 1#1) s = exec .start s) ∧
    hostAccess (.writeCtrl 0#1) s = .next s ∧ hostReadValue .readCtrl s = some 0

/-- R125, R127, R128, R27: the two tags initialise the decode (`col` by decision D11) and select their format. That the
initialisation is the tag's own meaning, run inside START's step, is the model's choice (assumption 13), and so is that
`stampPos`, `fillPos` and `carry` keep their values (assumption 15). -/
def Obligations.TagsSelectTheirFormat : Prop :=
  ∀ (i : Instr) (s : State), i = .tagL ∨ i = .tagP →
    ∃ t, exec i s = .next t ∧ (i = .tagL → t.phase = .lCode) ∧ (i = .tagP → t.phase = .pRun) ∧
      t.CursorAt 0 ∧ t.outLen = 0 ∧ t.outputPos = 0 ∧ t.col = Rgb.zero ∧ (∀ a, t.readLut a = 0#8) ∧
      (∀ a, t.readPb a = 0#8) ∧ t.err = s.err ∧ t.cb = s.cb ∧ t.inLen = s.inLen ∧ t.stampPos = s.stampPos ∧
      t.fillPos = s.fillPos ∧ t.carry = s.carry ∧ t.hostSlots = s.hostSlots

/-- R160, R26 (decision D11): after power-on reset the phase is IDLE, `STATUS` reads IDLE, `ERR` and `IN_LEN` are 0. Of the
values the model names for the other registers (assumption 2) nothing is stated. -/
def Obligations.ResetLeavesTheCoreIdle : Prop :=
  State.reset.phase = .idle ∧ hostReadValue .readStatus State.reset = some 0 ∧ State.reset.err = 0#3 ∧
    State.reset.inLen = 0#32

/-- R21 (the numbers are decision D5): `STATUS` is 0, 1, 2, 3 for IDLE, BUSY, DONE, ERROR, and BUSY is the five phases of a
running decode. -/
def Obligations.StatusIsAFunctionOfThePhase : Prop :=
  ∀ s : State,
    (hostReadValue .readStatus s = some 0 ↔ s.phase = .idle) ∧
    (hostReadValue .readStatus s = some 1 ↔
      s.phase = .lCode ∨ s.phase = .pRun ∨ s.phase = .pColor ∨ s.phase = .pStamp ∨ s.phase = .pFill) ∧
    (hostReadValue .readStatus s = some 2 ↔ s.phase = .done) ∧
    (hostReadValue .readStatus s = some 3 ↔ s.phase = .error) ∧
    (s.phase.busy = true ↔ hostReadValue .readStatus s = some 1)

/-- R155 (decision D18; the refusals are assumption 4): outside a running decode the host's writes of `CB` and `IN_LEN` take
effect and nothing else changes; while BUSY they have no move. `PB` is read in DONE only. Reads change nothing. -/
def Obligations.HostAccessesKeepTheContract : Prop :=
  ∀ s : State,
    (∀ a v, s.phase.busy = false → a < 921600 → ∃ t, hostAccess (.writeCb a v) s = .next t ∧ t.readCb a = v ∧
      (∀ b, b ≠ a → t.readCb b = s.readCb b) ∧ t = { s with cb := t.cb }) ∧
    (∀ n, s.phase.busy = false → hostAccess (.writeInLen n) s = .next { s with inLen := n }) ∧
    (∀ a v, s.phase.busy = true → hostAccess (.writeCb a v) s = .refused .hostWriteWhileBusy) ∧
    (∀ n, s.phase.busy = true → hostAccess (.writeInLen n) s = .refused .hostWriteWhileBusy) ∧
    (∀ a, s.phase = .done → a < 921600 →
      hostAccess (.readPb a) s = .next s ∧ hostReadValue (.readPb a) s = some (s.readPb a).toNat) ∧
    (∀ a, s.phase ≠ .done → hostAccess (.readPb a) s = .refused .pbReadOutsideDone ∧ hostReadValue (.readPb a) s = none) ∧
    hostAccess .readStatus s = .next s ∧ hostAccess .readErr s = .next s ∧
    hostReadValue .readErr s = some s.err.toNat

/-! ### FormatL -/

/-- R82: `1 bbbbbbbb` is `L.LIT b`; it appends `b` to the output and to the table at the new output length, after its 9
bits; too few bits raise StreamOverrun; a full buffer raises DecodeOverflow after the bits were read. -/
def Obligations.LiteralIsAppended : Prop :=
  (∀ (b : Byte) (rest : List Bool), decode .lCode (true :: (fieldBits b ++ rest)) = .code (.lLit b) rest) ∧
  ∀ (b : Byte) (s : State) (p : Nat), s.CursorAt p → p ≤ Config.payloadBits →
    (p + 9 ≤ Config.payloadBits → s.outLen < 921600 →
      ∃ t, exec (.lLit b) s = .next t ∧ t.readPb s.outLen = b ∧ t.readLut ((s.outLen + 1) % 65536) = b ∧
        t.outLen = s.outLen + 1 ∧ t.CursorAt (p + 9) ∧ t.phase = .lCode ∧ t.err = s.err) ∧
    (p + 9 ≤ Config.payloadBits → s.outLen = 921600 →
      ∃ t, exec (.lLit b) s = .next t ∧ t.CursorAt (p + 9) ∧
        t = { s with curByte := t.curByte, curMask := t.curMask, err := 4#3, phase := .error }) ∧
    (Config.payloadBits < p + 9 → exec (.lLit b) s = .next s.overrun)

/-- R83: `0`, sixteen bits of `o`, not all zero, and four bits of `n` are `L.COPY o, n`; it appends `n + 3` bytes; the
`k`-th is the table byte at the absolute index `(k + o) & 0xFFFF` as it stands in that iteration, and it is written to the
table at the new output length. Too few bits raise StreamOverrun before anything is appended; where the buffer has no room
the code ends in DecodeOverflow. -/
def Obligations.CopyExpandsTheTable : Prop :=
  (∀ (o : BitVec 16) (n : BitVec 4) (rest : List Bool), o ≠ 0#16 →
    decode .lCode (false :: (fieldBits o ++ (fieldBits n ++ rest))) = .code (.lCopy o n) rest) ∧
  ∀ (o : BitVec 16) (n : BitVec 4) (s : State) (p : Nat), s.CursorAt p → p ≤ Config.payloadBits →
    (p + 21 ≤ Config.payloadBits → s.outLen + n.toNat + 3 ≤ 921600 →
      ∃ t, exec (.lCopy o n) s = .next t ∧ t.outLen = s.outLen + n.toNat + 3 ∧ t.CursorAt (p + 21) ∧ t.phase = .lCode ∧
        t.err = s.err ∧
        ∀ k < n.toNat + 3, s.CopiesByte t o.toNat k ∧
          t.readLut ((s.outLen + 1 + k) % 65536) = t.readPb (s.outLen + k)) ∧
    (p + 21 ≤ Config.payloadBits → s.outLen ≤ 921600 → 921600 < s.outLen + n.toNat + 3 →
      ∃ t, exec (.lCopy o n) s = .next t ∧ t.outLen = 921600 ∧ t.CursorAt (p + 21) ∧ t.phase = .error ∧ t.err = 4#3 ∧
        ∀ k, s.outLen + k < 921600 → s.CopiesByte t o.toNat k ∧
          t.readLut ((s.outLen + 1 + k) % 65536) = t.readPb (s.outLen + k)) ∧
    (Config.payloadBits < p + 21 → exec (.lCopy o n) s = .next s.overrun)

/-- R84: seventeen zeros are `L.END`; it ends the decode after its 17 bits and appends nothing; nothing but the cursor and
the phase changes. -/
def Obligations.TerminatorEndsTheDecode : Prop :=
  (∀ rest : List Bool, decode .lCode (List.replicate 17 false ++ rest) = .code .lEnd rest) ∧
  ∀ (s : State) (p : Nat), s.CursorAt p → p ≤ Config.payloadBits →
    (p + 17 ≤ Config.payloadBits → ∃ t, exec .lEnd s = .next t ∧ t.CursorAt (p + 17) ∧
      t = { s with curByte := t.curByte, curMask := t.curMask, phase := .done }) ∧
    (Config.payloadBits < p + 17 → exec .lEnd s = .next s.overrun)

/-- The frame of the FormatL codes (R82 to R84): `PB` changes only in the appended bytes, `LUT` only at the indices of the
new output lengths; the registers of FormatP, `IN_LEN` and `CB` never change, `ERR` only by a raise. -/
def Obligations.FormatLCodesLeaveTheRestAlone : Prop :=
  ∀ (i : Instr) (n : Nat) (s t : State), appendCount i = some n → exec i s = .next t →
    (∀ a, a < s.outLen ∨ s.outLen + n ≤ a → t.readPb a = s.readPb a) ∧
    (∀ j, (∀ k < n, j ≠ (s.outLen + 1 + k) % 65536) → t.readLut j = s.readLut j) ∧
    (∀ a, t.readCb a = s.readCb a) ∧ (n = 0 → t.outLen = s.outLen) ∧ t.outputPos = s.outputPos ∧
    t.stampPos = s.stampPos ∧ t.col = s.col ∧ t.fillPos = s.fillPos ∧ t.carry = s.carry ∧ t.inLen = s.inLen ∧
    t.hostSlots = s.hostSlots ∧ (t.phase ≠ .error → t.err = s.err)

/-- R85 (an inference the spec marks as its own), R84: the table holds the last 65,536 output bytes, each at its index, and
`PB` is 0 from `outLen` on. Every step keeps this in phase `L_CODE`, START of a FormatL decode establishes it. -/
def Obligations.StepKeepsTheTableInvariant : Prop :=
  ∀ s t : State, s.Legal → (s.phase = .lCode → s.TableHolds) → step s = .next t → t.phase = .lCode → t.TableHolds

/-! ### FormatP -/

/-- R91 to R94, R96: each run code advances `outputPos` by three bytes a skipped pixel; the colour follows if the position
lies in `PB`, else the gap-fill pass starts. Too few bits raise StreamOverrun. -/
def Obligations.RunCodesAdvanceTheOutputPosition : Prop :=
  ∀ (i : Instr) (len n : Nat) (s : State) (p : Nat), runTable i = some (len, n) → s.CursorAt p → p ≤ Config.payloadBits →
    (p + len ≤ Config.payloadBits → ∃ t, exec i s = .next t ∧ t.CursorAt (p + len) ∧ t.outputPos = s.outputPos + 3 * n ∧
      (t.outputPos < 921600 → t.phase = .pColor) ∧ (921600 ≤ t.outputPos → t.AtFillStart) ∧ t.err = s.err) ∧
    (Config.payloadBits < p + len → exec i s = .next s.overrun)

/-- R95, R120: the sentinel stops the main loop after its 23 bits, `outputPos` unchanged, and the gap-fill pass starts. -/
def Obligations.SentinelStartsTheGapFill : Prop :=
  ∀ (s : State) (p : Nat), s.CursorAt p → p ≤ Config.payloadBits →
    (p + 23 ≤ Config.payloadBits → ∃ t, exec .pEnd s = .next t ∧ t.CursorAt (p + 23) ∧ t.AtFillStart ∧
      t = { s with curByte := t.curByte, curMask := t.curMask, phase := t.phase, fillPos := t.fillPos,
                   carry := t.carry }) ∧
    (Config.payloadBits < p + 23 → exec .pEnd s = .next s.overrun)

/-- R101, R102: `P.COLOR` writes its three bytes at `outputPos`, records them, and with the flag set opens the stamp loop
there, else closes the pixel record; too few bits for the colour raise StreamOverrun before anything is written, and a
missing flag after the colour was written (decision D21). -/
def Obligations.ColorIsWrittenAndRecorded : Prop :=
  ∀ (r g b : Byte) (stamp : Bool) (s : State) (p : Nat), s.CursorAt p → p ≤ Config.payloadBits →
    s.outputPos + 2 < 921600 →
    (p + 24 ≤ Config.payloadBits → ∃ t, exec (.pColor r g b stamp) s = .next t ∧
      t.readPb s.outputPos = r ∧ t.readPb (s.outputPos + 1) = g ∧ t.readPb (s.outputPos + 2) = b ∧
      t.col = { r := r, g := g, b := b } ∧
      (p + 25 ≤ Config.payloadBits → t.CursorAt (p + 25) ∧ t.err = s.err ∧
        (stamp = true → t.phase = .pStamp ∧ t.stampPos = s.outputPos ∧ t.outputPos = s.outputPos) ∧
        (stamp = false → t.ClosesPixelOf s ∧ t.stampPos = s.stampPos)) ∧
      (p + 24 = Config.payloadBits → t = ({ s with pb := t.pb, col := t.col } : State).overrun)) ∧
    (Config.payloadBits < p + 24 → exec (.pColor r g b stamp) s = .next s.overrun)

/-- R104: three zeros are `S.EXIT`; it closes the pixel record (R102) after its 3 bits. -/
def Obligations.StampExitClosesThePixel : Prop :=
  (∀ rest : List Bool, decode .pStamp (false :: false :: false :: rest) = .code .sExit rest) ∧
  ∀ (s : State) (p : Nat), s.CursorAt p → p ≤ Config.payloadBits →
    (p + 3 ≤ Config.payloadBits → ∃ t, exec .sExit s = .next t ∧ t.CursorAt (p + 3) ∧ t.ClosesPixelOf s ∧ t.err = s.err) ∧
    (Config.payloadBits < p + 3 → exec .sExit s = .next s.overrun)

/-- R105 to R110: each stamp code moves the stamp cursor by its increment; a stamp whose triple lies in `PB` writes `col`
there and stays in the loop, any other closes the pixel record and writes nothing. Too few bits raise StreamOverrun. -/
def Obligations.StampCodesReplicateTheColor : Prop :=
  ∀ (i : Instr) (len inc : Nat) (s : State) (p : Nat), stampTable i = some (len, inc) → s.CursorAt p →
    p ≤ Config.payloadBits →
    (p + len ≤ Config.payloadBits → s.stampPos + inc + 2 < 921600 → ∃ t, exec i s = .next t ∧ t.CursorAt (p + len) ∧
      t.stampPos = s.stampPos + inc ∧ t.readTriple (s.stampPos + inc) = s.col ∧ t.col = s.col ∧ t.phase = .pStamp ∧
      t.outputPos = s.outputPos ∧ t.err = s.err) ∧
    (p + len ≤ Config.payloadBits → 921600 ≤ s.stampPos + inc + 2 → ∃ t, exec i s = .next t ∧ t.CursorAt (p + len) ∧
      t.stampPos = s.stampPos + inc ∧ t.ClosesPixelOf s ∧ (∀ a, t.readPb a = s.readPb a) ∧ t.col = s.col ∧
      t.err = s.err) ∧
    (Config.payloadBits < p + len → exec i s = .next s.overrun)

/-- The frame of the codes of FormatP that store nothing (R91 to R95, R104): no byte of any memory changes, and of the
registers only the cursor, the phase, `outputPos` (not for `P.END`) and, on entry to the gap-fill pass, `fillPos` and
`carry`; `ERR` only by a raise. -/
def Obligations.RunCodesAndExitsStoreNothing : Prop :=
  ∀ (i : Instr) (s t : State), (∃ len n, runTable i = some (len, n)) ∨ i = .pEnd ∨ i = .sExit → exec i s = .next t →
    (∀ a, t.readPb a = s.readPb a) ∧ (∀ a, t.readLut a = s.readLut a) ∧ (∀ a, t.readCb a = s.readCb a) ∧
    t.outLen = s.outLen ∧ t.stampPos = s.stampPos ∧ t.col = s.col ∧ t.inLen = s.inLen ∧ t.hostSlots = s.hostSlots ∧
    (t.phase ≠ .pFill → t.fillPos = s.fillPos ∧ t.carry = s.carry) ∧ (t.phase ≠ .error → t.err = s.err) ∧
    (i = .pEnd → t.outputPos = s.outputPos)

/-- The frame of `P.COLOR` (R101): of the memories only the three bytes at `outputPos` change; `stampPos` changes only with
the flag set and `outputPos` only with it clear. -/
def Obligations.ColorLeavesTheRestAlone : Prop :=
  ∀ (r g b : Byte) (stamp : Bool) (s t : State), exec (.pColor r g b stamp) s = .next t →
    (∀ a, a < s.outputPos ∨ s.outputPos + 2 < a → t.readPb a = s.readPb a) ∧ (∀ a, t.readLut a = s.readLut a) ∧
    (∀ a, t.readCb a = s.readCb a) ∧ t.outLen = s.outLen ∧ t.inLen = s.inLen ∧ t.hostSlots = s.hostSlots ∧
    (stamp = true → t.outputPos = s.outputPos) ∧ (stamp = false → t.stampPos = s.stampPos) ∧
    (t.phase ≠ .pFill → t.fillPos = s.fillPos ∧ t.carry = s.carry) ∧ (t.phase ≠ .error → t.err = s.err)

/-- The frame of the stamp codes (R105 to R110): of the memories only the three bytes at the advanced stamp position
change; `col` never does. -/
def Obligations.StampCodesLeaveTheRestAlone : Prop :=
  ∀ (i : Instr) (len inc : Nat) (s t : State), stampTable i = some (len, inc) → exec i s = .next t →
    (∀ a, a < s.stampPos + inc ∨ s.stampPos + inc + 2 < a → t.readPb a = s.readPb a) ∧
    (∀ a, t.readLut a = s.readLut a) ∧ (∀ a, t.readCb a = s.readCb a) ∧ t.outLen = s.outLen ∧ t.col = s.col ∧
    t.inLen = s.inLen ∧ t.hostSlots = s.hostSlots ∧ (t.phase = .pStamp ∨ t.phase = .error → t.outputPos = s.outputPos) ∧
    (t.phase ≠ .pFill → t.fillPos = s.fillPos ∧ t.carry = s.carry) ∧ (t.phase ≠ .error → t.err = s.err)

/-! ### The gap-fill pass -/

/-- R121: a triple `(0,0,0)` takes the carry, any other becomes the carry and stays; the pass moves three bytes on and is
finished at 921,600; no stream bit is read. -/
def Obligations.FillStepFillsAGapOrCarriesAColor : Prop :=
  ∀ s : State, s.phase = .pFill → s.fillPos + 2 < 921600 →
    ∃ t, exec .fillStep s = .next t ∧ t.fillPos = s.fillPos + 3 ∧
      (s.readTriple s.fillPos = Rgb.zero → t.readTriple s.fillPos = s.carry ∧ t.carry = s.carry) ∧
      (s.readTriple s.fillPos ≠ Rgb.zero → t.readTriple s.fillPos = s.readTriple s.fillPos ∧
        t.carry = s.readTriple s.fillPos) ∧
      (t.fillPos < 921600 → t.phase = .pFill) ∧ (921600 ≤ t.fillPos → t.phase = .done) ∧
      t.curByte = s.curByte ∧ t.curMask = s.curMask ∧ t.err = s.err

/-- The frame of FILL.STEP (R121): of the memories only the three bytes at `fillPos` change, and none where they are a
colour; of the registers only `fillPos`, `carry` and the phase. No bit is read. -/
def Obligations.FillStepLeavesTheRestAlone : Prop :=
  ∀ s t : State, exec .fillStep s = .next t →
    (∀ a, a < s.fillPos ∨ s.fillPos + 2 < a → t.readPb a = s.readPb a) ∧
    (s.readTriple s.fillPos ≠ Rgb.zero → ∀ a, t.readPb a = s.readPb a) ∧
    (∀ a, t.readLut a = s.readLut a) ∧ (∀ a, t.readCb a = s.readCb a) ∧ t.curByte = s.curByte ∧
    t.curMask = s.curMask ∧ t.outLen = s.outLen ∧ t.outputPos = s.outputPos ∧ t.stampPos = s.stampPos ∧ t.col = s.col ∧
    t.err = s.err ∧ t.inLen = s.inLen ∧ t.hostSlots = s.hostSlots

/-- R122 (an inference the spec marks as its own, from R120 and R121), R132: from its start the pass ends after 307,200
steps in DONE; a colour stays, a gap takes the nearest colour before it, and a gap with none before it stays (0,0,0). -/
def Obligations.GapFillCarriesTheLastColorForward : Prop :=
  ∀ s : State, s.AtFillStart → s.hostSlots = [] →
    ∃ t, runSteps 307200 s = some t ∧ t.phase = .done ∧
      ∀ q < 307200,
        (s.readTriple (3 * q) ≠ Rgb.zero → t.readTriple (3 * q) = s.readTriple (3 * q)) ∧
        (s.readTriple (3 * q) = Rgb.zero →
          (∀ j < q, s.readTriple (3 * j) ≠ Rgb.zero → (∀ m, j < m → m < q → s.readTriple (3 * m) = Rgb.zero) →
            t.readTriple (3 * q) = s.readTriple (3 * j)) ∧
          ((∀ j < q, s.readTriple (3 * j) = Rgb.zero) → t.readTriple (3 * q) = Rgb.zero))

/-! ### The machine as a whole -/

/-- The reset state is legal (R10, R12, R22; the values the spec does not give are assumption 2's). -/
def Obligations.ResetStateIsLegal : Prop := State.reset.Legal

/-- R10, R12, R22, R30 to R33: every step keeps every register in its range, the cursor on a bit, `ERR` in step with the
phase, and the three memories canonical and inside their sizes. -/
def Obligations.StepKeepsTheStateLegal : Prop :=
  ∀ s t : State, s.Legal → step s = .next t → t.Legal

/-- R44 (an inference the spec marks as its own): from a legal state the sequencer's step always has a next state: no rule
addresses outside a memory, and every bit string decodes. -/
def Obligations.LegalStateAlwaysSteps : Prop :=
  ∀ s s0 : State, s.Legal → s.HostPasses s0 → ∃ t, step s = .next t

/-- R31, R27, R43: no instruction changes `CB` or `IN_LEN`. -/
def Obligations.CoreNeverWritesItsInputs : Prop :=
  ∀ (i : Instr) (s t : State), exec i s = .next t →
    (∀ a, t.readCb a = s.readCb a) ∧ t.inLen = s.inLen ∧ t.hostSlots = s.hostSlots

/-- R32: FormatP and the gap-fill pass neither read nor write `LUT`: they do the same whatever it holds, and leave it. -/
def Obligations.FormatPIgnoresTheTable : Prop :=
  ∀ (i : Instr) (s : State) (m : Memory), i.site ∈ [DecodeSite.pRun, .pColor, .pStamp, .fill] →
    nextState (exec i (s.setLut m)) = (nextState (exec i s)).map (·.setLut m)

/-- R52: an instruction executed in its phase ends in the phase of its row, and no step changes the phase except to one
that R52 lists. -/
def Obligations.OnlyTheLegalPhaseTransitions : Prop :=
  (∀ (i : Instr) (s t : State), RunsIn i s.phase → exec i s = .next t → PhaseRow i s t) ∧
  ∀ s t : State, step s = .next t → t.phase = s.phase ∨ t.phase ∈ s.phase.mayGoTo

/-- R169, R170 (inferences the spec marks as its own): every step of a running decode brings its end nearer. -/
def Obligations.EachStepBringsTheEndNearer : Prop :=
  ∀ s s0 t : State, s.Legal → s.HostPasses s0 → s.phase.busy = true → step s = .next t → t.stepsLeft < s.stepsLeft

/-- R156, R169 (the bound is an inference the spec marks as its own): left alone by the host, every decode reaches DONE or
ERROR within 3,686,392 stream codes and 307,200 gap-fill steps. -/
def Obligations.EveryDecodeEnds : Prop :=
  ∀ s : State, s.Legal → s.phase.busy = true → s.hostSlots = [] →
    ∃ k ≤ 3686392 + 307200, ∃ t, runSteps k s = some t ∧ (t.phase = .done ∨ t.phase = .error)

/-- R135, R28, R67 (an inference the spec marks as its own): two cores that are given blocks equal but for `CB[1]`, with the
same `IN_LEN`, and whatever they did before, agree after START and any number of steps on the phase, on `ERR`, and in DONE
on all of `PB`. -/
def Obligations.OutcomeDependsOnTheInputAlone : Prop :=
  ∀ (s1 s2 : State) (k : Nat), s1.Legal → s2.Legal → s1.phase.busy = false → s2.phase.busy = false →
    s1.inLen = s2.inLen → (∀ a, a ≠ 1 → s1.readCb a = s2.readCb a) →
    s1.hostSlots = [some (.writeCtrl 1#1)] → s2.hostSlots = [some (.writeCtrl 1#1)] →
    ∃ t1 t2, runSteps (k + 1) s1 = some t1 ∧ runSteps (k + 1) s2 = some t2 ∧ t1.phase = t2.phase ∧ t1.err = t2.err ∧
      (t1.phase = .done → ∀ a, t1.readPb a = t2.readPb a)

/-! ### Step lemmas of the pass and of determinism -/

/-- R121, R122 (the second an inference the spec marks as its own): from its start and through every step the gap-fill
pass keeps this: the pixels it has gone through hold R122's result, those ahead are untouched, and the carry is the
nearest colour. -/
def Obligations.StepKeepsThePassInvariant : Prop :=
  (∀ s : State, s.AtFillStart → s.PassHolds s) ∧
  ∀ s0 s t : State, s.phase = .pFill → s.PassHolds s0 → step s = .next t → t.PassHolds s0

/-- R28, R67, R135 (the last an inference the spec marks as its own): two legal states that agree on what their phase
reads, with blocks equal but for `CB[1]` and the same accesses of the host to come (assumption 3), step to two that
agree. -/
def Obligations.StepKeepsTheAgreement : Prop :=
  ∀ s1 s2 t1 : State, s1.Legal → s2.Legal → s1.Agrees s2 → step s1 = .next t1 → ∃ t2, step s2 = .next t2 ∧ t1.Agrees t2
end

