-- ==== Sys2Proof/Laws/Config.lean ====
section
/-!
SUPPORT. The numbers of 00_scope.md R5's check column: what the constants come to, for proofs by arithmetic.
-/

namespace Sys2Proof.Config

theorem pixels_eq : pixels = 307200 := rfl

theorem capacity_eq : capacity = 921600 := rfl

theorem capacity_eq_blockSize : capacity = blockSize := rfl

/-- The payload is the block without its two header bytes. -/
theorem payloadBits_eq : payloadBits = (blockSize - headerBytes) * 8 := rfl

end Sys2Proof.Config
end

