-- ==== Sys2Proof/Laws/State.lean ====
section
/-!
SUPPORT. One lemma per field per update of `State`, each true by `rfl`, so that no later proof unfolds a record update.
-/

namespace Sys2Proof.Machine

@[simp] theorem State.setCursor_phase (s : State) (b : Nat) (m : BitVec 8) : (s.setCursor b m).phase = s.phase := rfl
@[simp] theorem State.setCursor_curByte (s : State) (b : Nat) (m : BitVec 8) : (s.setCursor b m).curByte = b := rfl
@[simp] theorem State.setCursor_curMask (s : State) (b : Nat) (m : BitVec 8) : (s.setCursor b m).curMask = m := rfl
@[simp] theorem State.setCursor_outLen (s : State) (b : Nat) (m : BitVec 8) : (s.setCursor b m).outLen = s.outLen := rfl
@[simp] theorem State.setCursor_outputPos (s : State) (b : Nat) (m : BitVec 8) : (s.setCursor b m).outputPos = s.outputPos := rfl
@[simp] theorem State.setCursor_stampPos (s : State) (b : Nat) (m : BitVec 8) : (s.setCursor b m).stampPos = s.stampPos := rfl
@[simp] theorem State.setCursor_col (s : State) (b : Nat) (m : BitVec 8) : (s.setCursor b m).col = s.col := rfl
@[simp] theorem State.setCursor_fillPos (s : State) (b : Nat) (m : BitVec 8) : (s.setCursor b m).fillPos = s.fillPos := rfl
@[simp] theorem State.setCursor_carry (s : State) (b : Nat) (m : BitVec 8) : (s.setCursor b m).carry = s.carry := rfl
@[simp] theorem State.setCursor_err (s : State) (b : Nat) (m : BitVec 8) : (s.setCursor b m).err = s.err := rfl
@[simp] theorem State.setCursor_inLen (s : State) (b : Nat) (m : BitVec 8) : (s.setCursor b m).inLen = s.inLen := rfl
@[simp] theorem State.setCursor_cb (s : State) (b : Nat) (m : BitVec 8) : (s.setCursor b m).cb = s.cb := rfl
@[simp] theorem State.setCursor_lut (s : State) (b : Nat) (m : BitVec 8) : (s.setCursor b m).lut = s.lut := rfl
@[simp] theorem State.setCursor_pb (s : State) (b : Nat) (m : BitVec 8) : (s.setCursor b m).pb = s.pb := rfl
@[simp] theorem State.setCursor_hostSlots (s : State) (b : Nat) (m : BitVec 8) : (s.setCursor b m).hostSlots = s.hostSlots := rfl

@[simp] theorem State.setPhase_phase (s : State) (p : Phase) : (s.setPhase p).phase = p := rfl
@[simp] theorem State.setPhase_curByte (s : State) (p : Phase) : (s.setPhase p).curByte = s.curByte := rfl
@[simp] theorem State.setPhase_curMask (s : State) (p : Phase) : (s.setPhase p).curMask = s.curMask := rfl
@[simp] theorem State.setPhase_outLen (s : State) (p : Phase) : (s.setPhase p).outLen = s.outLen := rfl
@[simp] theorem State.setPhase_outputPos (s : State) (p : Phase) : (s.setPhase p).outputPos = s.outputPos := rfl
@[simp] theorem State.setPhase_stampPos (s : State) (p : Phase) : (s.setPhase p).stampPos = s.stampPos := rfl
@[simp] theorem State.setPhase_col (s : State) (p : Phase) : (s.setPhase p).col = s.col := rfl
@[simp] theorem State.setPhase_fillPos (s : State) (p : Phase) : (s.setPhase p).fillPos = s.fillPos := rfl
@[simp] theorem State.setPhase_carry (s : State) (p : Phase) : (s.setPhase p).carry = s.carry := rfl
@[simp] theorem State.setPhase_err (s : State) (p : Phase) : (s.setPhase p).err = s.err := rfl
@[simp] theorem State.setPhase_inLen (s : State) (p : Phase) : (s.setPhase p).inLen = s.inLen := rfl
@[simp] theorem State.setPhase_cb (s : State) (p : Phase) : (s.setPhase p).cb = s.cb := rfl
@[simp] theorem State.setPhase_lut (s : State) (p : Phase) : (s.setPhase p).lut = s.lut := rfl
@[simp] theorem State.setPhase_pb (s : State) (p : Phase) : (s.setPhase p).pb = s.pb := rfl
@[simp] theorem State.setPhase_hostSlots (s : State) (p : Phase) : (s.setPhase p).hostSlots = s.hostSlots := rfl

@[simp] theorem State.setOutLen_phase (s : State) (n : Nat) : (s.setOutLen n).phase = s.phase := rfl
@[simp] theorem State.setOutLen_curByte (s : State) (n : Nat) : (s.setOutLen n).curByte = s.curByte := rfl
@[simp] theorem State.setOutLen_curMask (s : State) (n : Nat) : (s.setOutLen n).curMask = s.curMask := rfl
@[simp] theorem State.setOutLen_outLen (s : State) (n : Nat) : (s.setOutLen n).outLen = n := rfl
@[simp] theorem State.setOutLen_outputPos (s : State) (n : Nat) : (s.setOutLen n).outputPos = s.outputPos := rfl
@[simp] theorem State.setOutLen_stampPos (s : State) (n : Nat) : (s.setOutLen n).stampPos = s.stampPos := rfl
@[simp] theorem State.setOutLen_col (s : State) (n : Nat) : (s.setOutLen n).col = s.col := rfl
@[simp] theorem State.setOutLen_fillPos (s : State) (n : Nat) : (s.setOutLen n).fillPos = s.fillPos := rfl
@[simp] theorem State.setOutLen_carry (s : State) (n : Nat) : (s.setOutLen n).carry = s.carry := rfl
@[simp] theorem State.setOutLen_err (s : State) (n : Nat) : (s.setOutLen n).err = s.err := rfl
@[simp] theorem State.setOutLen_inLen (s : State) (n : Nat) : (s.setOutLen n).inLen = s.inLen := rfl
@[simp] theorem State.setOutLen_cb (s : State) (n : Nat) : (s.setOutLen n).cb = s.cb := rfl
@[simp] theorem State.setOutLen_lut (s : State) (n : Nat) : (s.setOutLen n).lut = s.lut := rfl
@[simp] theorem State.setOutLen_pb (s : State) (n : Nat) : (s.setOutLen n).pb = s.pb := rfl
@[simp] theorem State.setOutLen_hostSlots (s : State) (n : Nat) : (s.setOutLen n).hostSlots = s.hostSlots := rfl

@[simp] theorem State.setOutputPos_phase (s : State) (a : Nat) : (s.setOutputPos a).phase = s.phase := rfl
@[simp] theorem State.setOutputPos_curByte (s : State) (a : Nat) : (s.setOutputPos a).curByte = s.curByte := rfl
@[simp] theorem State.setOutputPos_curMask (s : State) (a : Nat) : (s.setOutputPos a).curMask = s.curMask := rfl
@[simp] theorem State.setOutputPos_outLen (s : State) (a : Nat) : (s.setOutputPos a).outLen = s.outLen := rfl
@[simp] theorem State.setOutputPos_outputPos (s : State) (a : Nat) : (s.setOutputPos a).outputPos = a := rfl
@[simp] theorem State.setOutputPos_stampPos (s : State) (a : Nat) : (s.setOutputPos a).stampPos = s.stampPos := rfl
@[simp] theorem State.setOutputPos_col (s : State) (a : Nat) : (s.setOutputPos a).col = s.col := rfl
@[simp] theorem State.setOutputPos_fillPos (s : State) (a : Nat) : (s.setOutputPos a).fillPos = s.fillPos := rfl
@[simp] theorem State.setOutputPos_carry (s : State) (a : Nat) : (s.setOutputPos a).carry = s.carry := rfl
@[simp] theorem State.setOutputPos_err (s : State) (a : Nat) : (s.setOutputPos a).err = s.err := rfl
@[simp] theorem State.setOutputPos_inLen (s : State) (a : Nat) : (s.setOutputPos a).inLen = s.inLen := rfl
@[simp] theorem State.setOutputPos_cb (s : State) (a : Nat) : (s.setOutputPos a).cb = s.cb := rfl
@[simp] theorem State.setOutputPos_lut (s : State) (a : Nat) : (s.setOutputPos a).lut = s.lut := rfl
@[simp] theorem State.setOutputPos_pb (s : State) (a : Nat) : (s.setOutputPos a).pb = s.pb := rfl
@[simp] theorem State.setOutputPos_hostSlots (s : State) (a : Nat) : (s.setOutputPos a).hostSlots = s.hostSlots := rfl

@[simp] theorem State.setStampPos_phase (s : State) (a : Nat) : (s.setStampPos a).phase = s.phase := rfl
@[simp] theorem State.setStampPos_curByte (s : State) (a : Nat) : (s.setStampPos a).curByte = s.curByte := rfl
@[simp] theorem State.setStampPos_curMask (s : State) (a : Nat) : (s.setStampPos a).curMask = s.curMask := rfl
@[simp] theorem State.setStampPos_outLen (s : State) (a : Nat) : (s.setStampPos a).outLen = s.outLen := rfl
@[simp] theorem State.setStampPos_outputPos (s : State) (a : Nat) : (s.setStampPos a).outputPos = s.outputPos := rfl
@[simp] theorem State.setStampPos_stampPos (s : State) (a : Nat) : (s.setStampPos a).stampPos = a := rfl
@[simp] theorem State.setStampPos_col (s : State) (a : Nat) : (s.setStampPos a).col = s.col := rfl
@[simp] theorem State.setStampPos_fillPos (s : State) (a : Nat) : (s.setStampPos a).fillPos = s.fillPos := rfl
@[simp] theorem State.setStampPos_carry (s : State) (a : Nat) : (s.setStampPos a).carry = s.carry := rfl
@[simp] theorem State.setStampPos_err (s : State) (a : Nat) : (s.setStampPos a).err = s.err := rfl
@[simp] theorem State.setStampPos_inLen (s : State) (a : Nat) : (s.setStampPos a).inLen = s.inLen := rfl
@[simp] theorem State.setStampPos_cb (s : State) (a : Nat) : (s.setStampPos a).cb = s.cb := rfl
@[simp] theorem State.setStampPos_lut (s : State) (a : Nat) : (s.setStampPos a).lut = s.lut := rfl
@[simp] theorem State.setStampPos_pb (s : State) (a : Nat) : (s.setStampPos a).pb = s.pb := rfl
@[simp] theorem State.setStampPos_hostSlots (s : State) (a : Nat) : (s.setStampPos a).hostSlots = s.hostSlots := rfl

@[simp] theorem State.setCol_phase (s : State) (c : Rgb) : (s.setCol c).phase = s.phase := rfl
@[simp] theorem State.setCol_curByte (s : State) (c : Rgb) : (s.setCol c).curByte = s.curByte := rfl
@[simp] theorem State.setCol_curMask (s : State) (c : Rgb) : (s.setCol c).curMask = s.curMask := rfl
@[simp] theorem State.setCol_outLen (s : State) (c : Rgb) : (s.setCol c).outLen = s.outLen := rfl
@[simp] theorem State.setCol_outputPos (s : State) (c : Rgb) : (s.setCol c).outputPos = s.outputPos := rfl
@[simp] theorem State.setCol_stampPos (s : State) (c : Rgb) : (s.setCol c).stampPos = s.stampPos := rfl
@[simp] theorem State.setCol_col (s : State) (c : Rgb) : (s.setCol c).col = c := rfl
@[simp] theorem State.setCol_fillPos (s : State) (c : Rgb) : (s.setCol c).fillPos = s.fillPos := rfl
@[simp] theorem State.setCol_carry (s : State) (c : Rgb) : (s.setCol c).carry = s.carry := rfl
@[simp] theorem State.setCol_err (s : State) (c : Rgb) : (s.setCol c).err = s.err := rfl
@[simp] theorem State.setCol_inLen (s : State) (c : Rgb) : (s.setCol c).inLen = s.inLen := rfl
@[simp] theorem State.setCol_cb (s : State) (c : Rgb) : (s.setCol c).cb = s.cb := rfl
@[simp] theorem State.setCol_lut (s : State) (c : Rgb) : (s.setCol c).lut = s.lut := rfl
@[simp] theorem State.setCol_pb (s : State) (c : Rgb) : (s.setCol c).pb = s.pb := rfl
@[simp] theorem State.setCol_hostSlots (s : State) (c : Rgb) : (s.setCol c).hostSlots = s.hostSlots := rfl

@[simp] theorem State.setFillPos_phase (s : State) (a : Nat) : (s.setFillPos a).phase = s.phase := rfl
@[simp] theorem State.setFillPos_curByte (s : State) (a : Nat) : (s.setFillPos a).curByte = s.curByte := rfl
@[simp] theorem State.setFillPos_curMask (s : State) (a : Nat) : (s.setFillPos a).curMask = s.curMask := rfl
@[simp] theorem State.setFillPos_outLen (s : State) (a : Nat) : (s.setFillPos a).outLen = s.outLen := rfl
@[simp] theorem State.setFillPos_outputPos (s : State) (a : Nat) : (s.setFillPos a).outputPos = s.outputPos := rfl
@[simp] theorem State.setFillPos_stampPos (s : State) (a : Nat) : (s.setFillPos a).stampPos = s.stampPos := rfl
@[simp] theorem State.setFillPos_col (s : State) (a : Nat) : (s.setFillPos a).col = s.col := rfl
@[simp] theorem State.setFillPos_fillPos (s : State) (a : Nat) : (s.setFillPos a).fillPos = a := rfl
@[simp] theorem State.setFillPos_carry (s : State) (a : Nat) : (s.setFillPos a).carry = s.carry := rfl
@[simp] theorem State.setFillPos_err (s : State) (a : Nat) : (s.setFillPos a).err = s.err := rfl
@[simp] theorem State.setFillPos_inLen (s : State) (a : Nat) : (s.setFillPos a).inLen = s.inLen := rfl
@[simp] theorem State.setFillPos_cb (s : State) (a : Nat) : (s.setFillPos a).cb = s.cb := rfl
@[simp] theorem State.setFillPos_lut (s : State) (a : Nat) : (s.setFillPos a).lut = s.lut := rfl
@[simp] theorem State.setFillPos_pb (s : State) (a : Nat) : (s.setFillPos a).pb = s.pb := rfl
@[simp] theorem State.setFillPos_hostSlots (s : State) (a : Nat) : (s.setFillPos a).hostSlots = s.hostSlots := rfl

@[simp] theorem State.setCarry_phase (s : State) (c : Rgb) : (s.setCarry c).phase = s.phase := rfl
@[simp] theorem State.setCarry_curByte (s : State) (c : Rgb) : (s.setCarry c).curByte = s.curByte := rfl
@[simp] theorem State.setCarry_curMask (s : State) (c : Rgb) : (s.setCarry c).curMask = s.curMask := rfl
@[simp] theorem State.setCarry_outLen (s : State) (c : Rgb) : (s.setCarry c).outLen = s.outLen := rfl
@[simp] theorem State.setCarry_outputPos (s : State) (c : Rgb) : (s.setCarry c).outputPos = s.outputPos := rfl
@[simp] theorem State.setCarry_stampPos (s : State) (c : Rgb) : (s.setCarry c).stampPos = s.stampPos := rfl
@[simp] theorem State.setCarry_col (s : State) (c : Rgb) : (s.setCarry c).col = s.col := rfl
@[simp] theorem State.setCarry_fillPos (s : State) (c : Rgb) : (s.setCarry c).fillPos = s.fillPos := rfl
@[simp] theorem State.setCarry_carry (s : State) (c : Rgb) : (s.setCarry c).carry = c := rfl
@[simp] theorem State.setCarry_err (s : State) (c : Rgb) : (s.setCarry c).err = s.err := rfl
@[simp] theorem State.setCarry_inLen (s : State) (c : Rgb) : (s.setCarry c).inLen = s.inLen := rfl
@[simp] theorem State.setCarry_cb (s : State) (c : Rgb) : (s.setCarry c).cb = s.cb := rfl
@[simp] theorem State.setCarry_lut (s : State) (c : Rgb) : (s.setCarry c).lut = s.lut := rfl
@[simp] theorem State.setCarry_pb (s : State) (c : Rgb) : (s.setCarry c).pb = s.pb := rfl
@[simp] theorem State.setCarry_hostSlots (s : State) (c : Rgb) : (s.setCarry c).hostSlots = s.hostSlots := rfl

@[simp] theorem State.setErr_phase (s : State) (e : BitVec 3) : (s.setErr e).phase = s.phase := rfl
@[simp] theorem State.setErr_curByte (s : State) (e : BitVec 3) : (s.setErr e).curByte = s.curByte := rfl
@[simp] theorem State.setErr_curMask (s : State) (e : BitVec 3) : (s.setErr e).curMask = s.curMask := rfl
@[simp] theorem State.setErr_outLen (s : State) (e : BitVec 3) : (s.setErr e).outLen = s.outLen := rfl
@[simp] theorem State.setErr_outputPos (s : State) (e : BitVec 3) : (s.setErr e).outputPos = s.outputPos := rfl
@[simp] theorem State.setErr_stampPos (s : State) (e : BitVec 3) : (s.setErr e).stampPos = s.stampPos := rfl
@[simp] theorem State.setErr_col (s : State) (e : BitVec 3) : (s.setErr e).col = s.col := rfl
@[simp] theorem State.setErr_fillPos (s : State) (e : BitVec 3) : (s.setErr e).fillPos = s.fillPos := rfl
@[simp] theorem State.setErr_carry (s : State) (e : BitVec 3) : (s.setErr e).carry = s.carry := rfl
@[simp] theorem State.setErr_err (s : State) (e : BitVec 3) : (s.setErr e).err = e := rfl
@[simp] theorem State.setErr_inLen (s : State) (e : BitVec 3) : (s.setErr e).inLen = s.inLen := rfl
@[simp] theorem State.setErr_cb (s : State) (e : BitVec 3) : (s.setErr e).cb = s.cb := rfl
@[simp] theorem State.setErr_lut (s : State) (e : BitVec 3) : (s.setErr e).lut = s.lut := rfl
@[simp] theorem State.setErr_pb (s : State) (e : BitVec 3) : (s.setErr e).pb = s.pb := rfl
@[simp] theorem State.setErr_hostSlots (s : State) (e : BitVec 3) : (s.setErr e).hostSlots = s.hostSlots := rfl

@[simp] theorem State.setInLen_phase (s : State) (n : BitVec 32) : (s.setInLen n).phase = s.phase := rfl
@[simp] theorem State.setInLen_curByte (s : State) (n : BitVec 32) : (s.setInLen n).curByte = s.curByte := rfl
@[simp] theorem State.setInLen_curMask (s : State) (n : BitVec 32) : (s.setInLen n).curMask = s.curMask := rfl
@[simp] theorem State.setInLen_outLen (s : State) (n : BitVec 32) : (s.setInLen n).outLen = s.outLen := rfl
@[simp] theorem State.setInLen_outputPos (s : State) (n : BitVec 32) : (s.setInLen n).outputPos = s.outputPos := rfl
@[simp] theorem State.setInLen_stampPos (s : State) (n : BitVec 32) : (s.setInLen n).stampPos = s.stampPos := rfl
@[simp] theorem State.setInLen_col (s : State) (n : BitVec 32) : (s.setInLen n).col = s.col := rfl
@[simp] theorem State.setInLen_fillPos (s : State) (n : BitVec 32) : (s.setInLen n).fillPos = s.fillPos := rfl
@[simp] theorem State.setInLen_carry (s : State) (n : BitVec 32) : (s.setInLen n).carry = s.carry := rfl
@[simp] theorem State.setInLen_err (s : State) (n : BitVec 32) : (s.setInLen n).err = s.err := rfl
@[simp] theorem State.setInLen_inLen (s : State) (n : BitVec 32) : (s.setInLen n).inLen = n := rfl
@[simp] theorem State.setInLen_cb (s : State) (n : BitVec 32) : (s.setInLen n).cb = s.cb := rfl
@[simp] theorem State.setInLen_lut (s : State) (n : BitVec 32) : (s.setInLen n).lut = s.lut := rfl
@[simp] theorem State.setInLen_pb (s : State) (n : BitVec 32) : (s.setInLen n).pb = s.pb := rfl
@[simp] theorem State.setInLen_hostSlots (s : State) (n : BitVec 32) : (s.setInLen n).hostSlots = s.hostSlots := rfl

@[simp] theorem State.setCb_phase (s : State) (m : Memory) : (s.setCb m).phase = s.phase := rfl
@[simp] theorem State.setCb_curByte (s : State) (m : Memory) : (s.setCb m).curByte = s.curByte := rfl
@[simp] theorem State.setCb_curMask (s : State) (m : Memory) : (s.setCb m).curMask = s.curMask := rfl
@[simp] theorem State.setCb_outLen (s : State) (m : Memory) : (s.setCb m).outLen = s.outLen := rfl
@[simp] theorem State.setCb_outputPos (s : State) (m : Memory) : (s.setCb m).outputPos = s.outputPos := rfl
@[simp] theorem State.setCb_stampPos (s : State) (m : Memory) : (s.setCb m).stampPos = s.stampPos := rfl
@[simp] theorem State.setCb_col (s : State) (m : Memory) : (s.setCb m).col = s.col := rfl
@[simp] theorem State.setCb_fillPos (s : State) (m : Memory) : (s.setCb m).fillPos = s.fillPos := rfl
@[simp] theorem State.setCb_carry (s : State) (m : Memory) : (s.setCb m).carry = s.carry := rfl
@[simp] theorem State.setCb_err (s : State) (m : Memory) : (s.setCb m).err = s.err := rfl
@[simp] theorem State.setCb_inLen (s : State) (m : Memory) : (s.setCb m).inLen = s.inLen := rfl
@[simp] theorem State.setCb_cb (s : State) (m : Memory) : (s.setCb m).cb = m := rfl
@[simp] theorem State.setCb_lut (s : State) (m : Memory) : (s.setCb m).lut = s.lut := rfl
@[simp] theorem State.setCb_pb (s : State) (m : Memory) : (s.setCb m).pb = s.pb := rfl
@[simp] theorem State.setCb_hostSlots (s : State) (m : Memory) : (s.setCb m).hostSlots = s.hostSlots := rfl

@[simp] theorem State.setLut_phase (s : State) (m : Memory) : (s.setLut m).phase = s.phase := rfl
@[simp] theorem State.setLut_curByte (s : State) (m : Memory) : (s.setLut m).curByte = s.curByte := rfl
@[simp] theorem State.setLut_curMask (s : State) (m : Memory) : (s.setLut m).curMask = s.curMask := rfl
@[simp] theorem State.setLut_outLen (s : State) (m : Memory) : (s.setLut m).outLen = s.outLen := rfl
@[simp] theorem State.setLut_outputPos (s : State) (m : Memory) : (s.setLut m).outputPos = s.outputPos := rfl
@[simp] theorem State.setLut_stampPos (s : State) (m : Memory) : (s.setLut m).stampPos = s.stampPos := rfl
@[simp] theorem State.setLut_col (s : State) (m : Memory) : (s.setLut m).col = s.col := rfl
@[simp] theorem State.setLut_fillPos (s : State) (m : Memory) : (s.setLut m).fillPos = s.fillPos := rfl
@[simp] theorem State.setLut_carry (s : State) (m : Memory) : (s.setLut m).carry = s.carry := rfl
@[simp] theorem State.setLut_err (s : State) (m : Memory) : (s.setLut m).err = s.err := rfl
@[simp] theorem State.setLut_inLen (s : State) (m : Memory) : (s.setLut m).inLen = s.inLen := rfl
@[simp] theorem State.setLut_cb (s : State) (m : Memory) : (s.setLut m).cb = s.cb := rfl
@[simp] theorem State.setLut_lut (s : State) (m : Memory) : (s.setLut m).lut = m := rfl
@[simp] theorem State.setLut_pb (s : State) (m : Memory) : (s.setLut m).pb = s.pb := rfl
@[simp] theorem State.setLut_hostSlots (s : State) (m : Memory) : (s.setLut m).hostSlots = s.hostSlots := rfl

@[simp] theorem State.setPb_phase (s : State) (m : Memory) : (s.setPb m).phase = s.phase := rfl
@[simp] theorem State.setPb_curByte (s : State) (m : Memory) : (s.setPb m).curByte = s.curByte := rfl
@[simp] theorem State.setPb_curMask (s : State) (m : Memory) : (s.setPb m).curMask = s.curMask := rfl
@[simp] theorem State.setPb_outLen (s : State) (m : Memory) : (s.setPb m).outLen = s.outLen := rfl
@[simp] theorem State.setPb_outputPos (s : State) (m : Memory) : (s.setPb m).outputPos = s.outputPos := rfl
@[simp] theorem State.setPb_stampPos (s : State) (m : Memory) : (s.setPb m).stampPos = s.stampPos := rfl
@[simp] theorem State.setPb_col (s : State) (m : Memory) : (s.setPb m).col = s.col := rfl
@[simp] theorem State.setPb_fillPos (s : State) (m : Memory) : (s.setPb m).fillPos = s.fillPos := rfl
@[simp] theorem State.setPb_carry (s : State) (m : Memory) : (s.setPb m).carry = s.carry := rfl
@[simp] theorem State.setPb_err (s : State) (m : Memory) : (s.setPb m).err = s.err := rfl
@[simp] theorem State.setPb_inLen (s : State) (m : Memory) : (s.setPb m).inLen = s.inLen := rfl
@[simp] theorem State.setPb_cb (s : State) (m : Memory) : (s.setPb m).cb = s.cb := rfl
@[simp] theorem State.setPb_lut (s : State) (m : Memory) : (s.setPb m).lut = s.lut := rfl
@[simp] theorem State.setPb_pb (s : State) (m : Memory) : (s.setPb m).pb = m := rfl
@[simp] theorem State.setPb_hostSlots (s : State) (m : Memory) : (s.setPb m).hostSlots = s.hostSlots := rfl

@[simp] theorem State.setHostSlots_phase (s : State) (h : List (Option HostAccess)) : (s.setHostSlots h).phase = s.phase := rfl
@[simp] theorem State.setHostSlots_curByte (s : State) (h : List (Option HostAccess)) : (s.setHostSlots h).curByte = s.curByte := rfl
@[simp] theorem State.setHostSlots_curMask (s : State) (h : List (Option HostAccess)) : (s.setHostSlots h).curMask = s.curMask := rfl
@[simp] theorem State.setHostSlots_outLen (s : State) (h : List (Option HostAccess)) : (s.setHostSlots h).outLen = s.outLen := rfl
@[simp] theorem State.setHostSlots_outputPos (s : State) (h : List (Option HostAccess)) : (s.setHostSlots h).outputPos = s.outputPos := rfl
@[simp] theorem State.setHostSlots_stampPos (s : State) (h : List (Option HostAccess)) : (s.setHostSlots h).stampPos = s.stampPos := rfl
@[simp] theorem State.setHostSlots_col (s : State) (h : List (Option HostAccess)) : (s.setHostSlots h).col = s.col := rfl
@[simp] theorem State.setHostSlots_fillPos (s : State) (h : List (Option HostAccess)) : (s.setHostSlots h).fillPos = s.fillPos := rfl
@[simp] theorem State.setHostSlots_carry (s : State) (h : List (Option HostAccess)) : (s.setHostSlots h).carry = s.carry := rfl
@[simp] theorem State.setHostSlots_err (s : State) (h : List (Option HostAccess)) : (s.setHostSlots h).err = s.err := rfl
@[simp] theorem State.setHostSlots_inLen (s : State) (h : List (Option HostAccess)) : (s.setHostSlots h).inLen = s.inLen := rfl
@[simp] theorem State.setHostSlots_cb (s : State) (h : List (Option HostAccess)) : (s.setHostSlots h).cb = s.cb := rfl
@[simp] theorem State.setHostSlots_lut (s : State) (h : List (Option HostAccess)) : (s.setHostSlots h).lut = s.lut := rfl
@[simp] theorem State.setHostSlots_pb (s : State) (h : List (Option HostAccess)) : (s.setHostSlots h).pb = s.pb := rfl
@[simp] theorem State.setHostSlots_hostSlots (s : State) (h : List (Option HostAccess)) : (s.setHostSlots h).hostSlots = h := rfl

@[simp] theorem State.withError_phase (s : State) (e : DecodeError) : (s.withError e).phase = .error := rfl
@[simp] theorem State.withError_curByte (s : State) (e : DecodeError) : (s.withError e).curByte = s.curByte := rfl
@[simp] theorem State.withError_curMask (s : State) (e : DecodeError) : (s.withError e).curMask = s.curMask := rfl
@[simp] theorem State.withError_outLen (s : State) (e : DecodeError) : (s.withError e).outLen = s.outLen := rfl
@[simp] theorem State.withError_outputPos (s : State) (e : DecodeError) : (s.withError e).outputPos = s.outputPos := rfl
@[simp] theorem State.withError_stampPos (s : State) (e : DecodeError) : (s.withError e).stampPos = s.stampPos := rfl
@[simp] theorem State.withError_col (s : State) (e : DecodeError) : (s.withError e).col = s.col := rfl
@[simp] theorem State.withError_fillPos (s : State) (e : DecodeError) : (s.withError e).fillPos = s.fillPos := rfl
@[simp] theorem State.withError_carry (s : State) (e : DecodeError) : (s.withError e).carry = s.carry := rfl
@[simp] theorem State.withError_err (s : State) (e : DecodeError) : (s.withError e).err = e.code := rfl
@[simp] theorem State.withError_inLen (s : State) (e : DecodeError) : (s.withError e).inLen = s.inLen := rfl
@[simp] theorem State.withError_cb (s : State) (e : DecodeError) : (s.withError e).cb = s.cb := rfl
@[simp] theorem State.withError_lut (s : State) (e : DecodeError) : (s.withError e).lut = s.lut := rfl
@[simp] theorem State.withError_pb (s : State) (e : DecodeError) : (s.withError e).pb = s.pb := rfl
@[simp] theorem State.withError_hostSlots (s : State) (e : DecodeError) : (s.withError e).hostSlots = s.hostSlots := rfl

@[simp] theorem initDecode_phase (s : State) : (initDecode s).phase = s.phase := rfl
@[simp] theorem initDecode_curByte (s : State) : (initDecode s).curByte = 2 := rfl
@[simp] theorem initDecode_curMask (s : State) : (initDecode s).curMask = 0x80#8 := rfl
@[simp] theorem initDecode_outLen (s : State) : (initDecode s).outLen = 0 := rfl
@[simp] theorem initDecode_outputPos (s : State) : (initDecode s).outputPos = 0 := rfl
@[simp] theorem initDecode_stampPos (s : State) : (initDecode s).stampPos = s.stampPos := rfl
@[simp] theorem initDecode_col (s : State) : (initDecode s).col = Rgb.zero := rfl
@[simp] theorem initDecode_fillPos (s : State) : (initDecode s).fillPos = s.fillPos := rfl
@[simp] theorem initDecode_carry (s : State) : (initDecode s).carry = s.carry := rfl
@[simp] theorem initDecode_err (s : State) : (initDecode s).err = s.err := rfl
@[simp] theorem initDecode_inLen (s : State) : (initDecode s).inLen = s.inLen := rfl
@[simp] theorem initDecode_cb (s : State) : (initDecode s).cb = s.cb := rfl
@[simp] theorem initDecode_lut (s : State) : (initDecode s).lut = [] := rfl
@[simp] theorem initDecode_pb (s : State) : (initDecode s).pb = [] := rfl
@[simp] theorem initDecode_hostSlots (s : State) : (initDecode s).hostSlots = s.hostSlots := rfl

@[simp] theorem State.setCursor_setCursor (s : State) (b b' : Nat) (m m' : BitVec 8) :
    (s.setCursor b m).setCursor b' m' = s.setCursor b' m' := rfl

@[simp] theorem State.setCursor_self (s : State) : s.setCursor s.curByte s.curMask = s := rfl

end Sys2Proof.Machine
end

