-- ==== Sys2Proof/Laws/Memory.lean ====
section
/-!
SUPPORT. What one byte of a memory reads after a write, that every memory operation keeps the canonical form and the
memory's size, and that two canonical memories that read alike are the same list.
-/

namespace Sys2Proof.Machine

@[simp] theorem Memory.read_nil (a : Nat) : Memory.read [] a = 0#8 := rfl

@[simp] theorem Memory.read_cleared (a : Nat) : Memory.read Memory.cleared a = 0#8 := rfl

theorem Memory.read_cons (b : Nat) (v : Byte) (m : Memory) (a : Nat) :
    Memory.read ((b, v) :: m) a = if b = a then v else Memory.read m a := rfl

theorem Memory.list_cons (b : Nat) (v : Byte) (m : Memory) (a : Nat) (x : Byte) :
    Memory.list ((b, v) :: m) a x =
      if b < a then (b, v) :: Memory.list m a x else if b = a then (a, x) :: m else (a, x) :: (b, v) :: m := rfl

theorem Memory.read_list (m : Memory) (a a' : Nat) (x : Byte) :
    (Memory.list m a x).read a' = if a = a' then x else m.read a' := by
  induction m with
  | nil => rfl
  | cons c m ih =>
    obtain ⟨b, v⟩ := c
    rw [Memory.list_cons]
    split
    · rw [Memory.read_cons, Memory.read_cons, ih]
      split <;> split <;> first | rfl | omega
    · split
      · subst b
        simp only [Memory.read_cons]
        split <;> rfl
      · simp only [Memory.read_cons]

theorem Memory.read_filter (m : Memory) (a a' : Nat) :
    Memory.read (m.filter fun c => c.1 != a) a' = if a = a' then 0#8 else m.read a' := by
  induction m with
  | nil => simp
  | cons c m ih =>
    obtain ⟨b, v⟩ := c
    by_cases h : b = a
    · subst b
      rw [List.filter_cons_of_neg (by simp), ih, Memory.read_cons]
      split <;> rfl
    · rw [List.filter_cons_of_pos (by simpa using h), Memory.read_cons, Memory.read_cons, ih]
      split <;> split <;> first | rfl | omega

/-- A byte after a write: the written one at the written address, every other as before. -/
theorem Memory.read_write (m : Memory) (a a' : Nat) (x : Byte) :
    (Memory.write m a x).read a' = if a = a' then x else m.read a' := by
  unfold Memory.write
  split
  · rename_i h
    rw [Memory.read_filter, h]
    rfl
  · exact Memory.read_list m a a' x

@[simp] theorem Memory.read_write_same (m : Memory) (a : Nat) (x : Byte) : (Memory.write m a x).read a = x := by
  rw [Memory.read_write, if_pos rfl]

theorem Memory.read_write_other (m : Memory) {a a' : Nat} (x : Byte) (h : a' ≠ a) :
    (Memory.write m a x).read a' = m.read a' := by
  rw [Memory.read_write, if_neg (Ne.symm h)]

theorem Memory.mem_list {m : Memory} {a : Nat} {x : Byte} {c : Host.Cell} (h : c ∈ Memory.list m a x) :
    c = (a, x) ∨ c ∈ m := by
  induction m with
  | nil => exact .inl (by simpa [Memory.list] using h)
  | cons d m ih =>
    obtain ⟨b, v⟩ := d
    rw [Memory.list_cons] at h
    split at h
    · rcases List.mem_cons.mp h with h | h
      · exact .inr (h ▸ List.mem_cons_self)
      · exact (ih h).imp_right (List.mem_cons_of_mem _)
    · split at h
      · exact (List.mem_cons.mp h).imp_right (List.mem_cons_of_mem _)
      · exact List.mem_cons.mp h

theorem Memory.wf_list {m : Memory} {a : Nat} {x : Byte} (h : m.wf) (hx : x ≠ Memory.unlisted) :
    (Memory.list m a x).wf := by
  refine ⟨?_, fun c hc => ?_⟩
  · obtain ⟨h, -⟩ := h
    induction m with
    | nil => simp [Memory.list]
    | cons d m ih =>
      obtain ⟨b, v⟩ := d
      obtain ⟨hb, hm⟩ := List.pairwise_cons.mp h
      rw [Memory.list_cons]
      split
      · refine List.pairwise_cons.mpr ⟨fun c hc => ?_, ih hm⟩
        rcases Memory.mem_list hc with rfl | hc
        · assumption
        · exact hb c hc
      · split
        · subst b
          exact List.pairwise_cons.mpr ⟨hb, hm⟩
        · refine List.pairwise_cons.mpr ⟨fun c hc => ?_, h⟩
          rcases List.mem_cons.mp hc with rfl | hc
          · simp only
            omega
          · have := hb c hc
            simp only at this ⊢
            omega
  · rcases Memory.mem_list hc with rfl | hc
    · exact hx
    · exact h.2 c hc

/-- A write keeps the canonical form. -/
theorem Memory.wf_write {m : Memory} (a : Nat) (x : Byte) (h : m.wf) : (Memory.write m a x).wf := by
  unfold Memory.write
  split
  · exact ⟨h.1.filter _, fun c hc => h.2 c (List.mem_filter.mp hc).1⟩
  · exact Memory.wf_list h ‹_›

/-- A write inside a memory's size stays inside it. -/
theorem Memory.within_write {size : Nat} {m : Memory} {a : Nat} (x : Byte) (h : m.within size) (ha : a < size) :
    (Memory.write m a x).within size := by
  unfold Memory.write
  intro c hc
  split at hc
  · exact h c (List.mem_filter.mp hc).1
  · rcases Memory.mem_list hc with rfl | hc
    · exact ha
    · exact h c hc

theorem Memory.wf_nil : Memory.wf [] := ⟨List.Pairwise.nil, by simp⟩

theorem Memory.wf_cleared : Memory.wf Memory.cleared := Memory.wf_nil

theorem Memory.within_nil (size : Nat) : Memory.within size [] := by simp [Memory.within]

theorem Memory.within_cleared (size : Nat) : Memory.within size Memory.cleared := Memory.within_nil size

theorem Memory.read_eq_unlisted {m : Memory} {a : Nat} (h : ∀ c ∈ m, c.1 ≠ a) : m.read a = Memory.unlisted := by
  induction m with
  | nil => rfl
  | cons c m ih =>
    obtain ⟨b, v⟩ := c
    rw [Memory.read_cons, if_neg (h _ List.mem_cons_self), ih fun c hc => h c (List.mem_cons_of_mem _ hc)]

/-- Canonical memories that read alike are equal. -/
theorem Memory.ext_read {m m' : Memory} (h : m.wf) (h' : m'.wf) (e : ∀ a, m.read a = m'.read a) : m = m' := by
  induction m generalizing m' with
  | nil =>
    cases m' with
    | nil => rfl
    | cons d m' =>
      have := e d.1
      rw [show m'.cons d = (d.1, d.2) :: m' from rfl, Memory.read_cons, if_pos rfl] at this
      exact absurd this.symm (h'.2 d List.mem_cons_self)
  | cons c m ih =>
    obtain ⟨b, v⟩ := c
    obtain ⟨hb, hm⟩ := List.pairwise_cons.mp h.1
    have hv : v ≠ Memory.unlisted := h.2 _ List.mem_cons_self
    cases m' with
    | nil =>
      have := e b
      rw [Memory.read_cons, if_pos rfl] at this
      exact absurd this hv
    | cons d m' =>
      obtain ⟨b', v'⟩ := d
      obtain ⟨hb', hm'⟩ := List.pairwise_cons.mp h'.1
      have hv' : v' ≠ Memory.unlisted := h'.2 _ List.mem_cons_self
      have e1 := e b
      have e2 := e b'
      simp only [Memory.read_cons, if_true] at e1 e2
      have hbb : b = b' := by
        rcases Nat.lt_trichotomy b b' with hlt | rfl | hlt
        · rw [if_neg (by omega), Memory.read_eq_unlisted fun c hc => by have := hb' c hc; simp only at this; omega] at e1
          exact absurd e1 hv
        · rfl
        · rw [if_neg (by omega), Memory.read_eq_unlisted fun c hc => by have := hb c hc; simp only at this; omega] at e2
          exact absurd e2.symm hv'
      subst hbb
      rw [if_pos rfl] at e1
      subst e1
      rw [ih ⟨hm, fun c hc => h.2 c (List.mem_cons_of_mem _ hc)⟩ ⟨hm', fun c hc => h'.2 c (List.mem_cons_of_mem _ hc)⟩]
      intro a
      have := e a
      rw [Memory.read_cons, Memory.read_cons] at this
      by_cases hab : b = a
      · subst hab
        rw [Memory.read_eq_unlisted fun c hc => by have := hb c hc; simp only at this; omega,
          Memory.read_eq_unlisted fun c hc => by have := hb' c hc; simp only at this; omega]
      · simpa [hab] using this

end Sys2Proof.Machine
end

