-- ==== Sys2Proof/Laws/BitCursor.lean ====
section
/-!
SUPPORT. Sub-steps in sequence, and everything `readBit`, `readBitsFrom`, `takeBits` and `streamAhead` can do: from a
cursor at payload bit `p` (closed forms), and from any state (what they leave alone).
-/

namespace Sys2Proof.Machine

/-! ### Sequencing -/

@[simp] theorem Flow.andThen_go {α β : Type} (v : α) (s : State) (k : α → State → Flow β) :
    (Flow.go v s).andThen k = k v s := rfl

@[simp] theorem Flow.andThen_raised {α β : Type} (s : State) (k : α → State → Flow β) :
    (Flow.raised s : Flow α).andThen k = .raised s := rfl

@[simp] theorem Flow.andThen_fault {α β : Type} (f : Fault) (k : α → State → Flow β) :
    (Flow.fault f : Flow α).andThen k = .fault f := rfl

@[simp] theorem Flow.andThen_refused {α β : Type} (r : Refusal) (k : α → State → Flow β) :
    (Flow.refused r : Flow α).andThen k = .refused r := rfl

@[simp] theorem Flow.outcome_go {α : Type} (v : α) (s : State) : (Flow.go v s).outcome = .next s := rfl

@[simp] theorem Flow.outcome_raised {α : Type} (s : State) : (Flow.raised s : Flow α).outcome = .next s := rfl

@[simp] theorem Flow.outcome_fault {α : Type} (f : Fault) : (Flow.fault f : Flow α).outcome = .fault f := rfl

@[simp] theorem Flow.outcome_refused {α : Type} (r : Refusal) : (Flow.refused r : Flow α).outcome = .refused r := rfl

theorem Flow.andThen_assoc {α β γ : Type} (x : Flow α) (k : α → State → Flow β) (l : β → State → Flow γ) :
    (x.andThen k).andThen l = x.andThen fun v s => (k v s).andThen l := by
  cases x <;> rfl

@[simp] theorem raise_eq {α : Type} (e : DecodeError) (s : State) : (raise e s : Flow α) = .raised (s.withError e) := rfl

@[simp] theorem goPhase_eq (p : Phase) (s : State) : goPhase p s = .go () (s.setPhase p) := rfl

/-! ### The cursor -/

theorem maskBit_eq (v : BitVec 8) {k : Nat} (hk : k < 8) :
    ((v &&& (0x80#8 >>> k)) != 0#8) = v.getLsbD (7 - k) := by
  have h : ∀ v : BitVec 8, ∀ k : Fin 8, ((v &&& (0x80#8 >>> k.val)) != 0#8) = v.getLsbD (7 - k.val) := by decide
  exact h v ⟨k, hk⟩

theorem mask_shift {k : Nat} (hk : k < 7) : (0x80#8 >>> k) >>> 1 = 0x80#8 >>> (k + 1) ∧ 0x80#8 >>> (k + 1) ≠ 0#8 := by
  have h : ∀ k : Fin 7, (0x80#8 >>> k.val) >>> 1 = 0x80#8 >>> (k.val + 1) ∧ 0x80#8 >>> (k.val + 1) ≠ 0#8 := by decide
  exact h ⟨k, hk⟩

theorem mask_log2 {k : Nat} (hk : k < 8) : 7 - (0x80#8 >>> k).toNat.log2 = k := by
  have h : ∀ k : Fin 8, 7 - (0x80#8 >>> k.val).toNat.log2 = k.val := by decide
  exact h ⟨k, hk⟩

/-- A cursor at bit `p` has linear position `p`. -/
theorem State.CursorAt.bitPos {s : State} {p : Nat} (h : s.CursorAt p) : s.bitPos = p := by
  unfold State.bitPos
  rw [h.1, h.2, mask_log2 (Nat.mod_lt _ (by decide))]
  omega

/-- The state with the cursor at payload bit `p`. -/
abbrev State.atBit (s : State) (p : Nat) : State := s.setCursor (2 + p / 8) (0x80#8 >>> (p % 8))

theorem State.atBit_cursorAt (s : State) (p : Nat) : (s.atBit p).CursorAt p := ⟨rfl, rfl⟩

theorem State.atBit_self {s : State} {p : Nat} (h : s.CursorAt p) : s.atBit p = s := by
  unfold State.atBit
  rw [← h.1, ← h.2, State.setCursor_self]

/-- `readBit` at a payload bit: the bit, and the cursor one bit further (R71, R75). -/
theorem readBit_at {s : State} {p : Nat} (h : s.CursorAt p) (hp : p < Config.payloadBits) :
    readBit s = .go (s.payloadBit p) (s.atBit (p + 1)) := by
  have hp' : p < 7372784 := hp
  have h1 : ¬ Config.blockSize ≤ s.curByte := by rw [h.1]; show ¬ 921600 ≤ _; omega
  have h8 : p % 8 < 8 := Nat.mod_lt _ (by decide)
  unfold readBit
  rw [if_neg h1]
  have hbit : (s.readCb s.curByte &&& s.curMask != 0#8) = s.payloadBit p := by
    rw [h.1, h.2, maskBit_eq _ h8]
    rfl
  simp only [hbit]
  rw [h.1, h.2]
  congr 1
  by_cases h7 : p % 8 = 7
  · rw [h7, if_pos (by decide)]
    have e1 : (p + 1) / 8 = p / 8 + 1 := by omega
    have e2 : (p + 1) % 8 = 0 := by omega
    simp only [State.atBit, e1, e2]
    rfl
  · obtain ⟨e, hne⟩ := mask_shift (k := p % 8) (by omega)
    have e1 : (p + 1) / 8 = p / 8 := by omega
    have e2 : (p + 1) % 8 = p % 8 + 1 := by omega
    rw [e, if_neg hne, State.atBit, e1, e2]

/-- `readBit` behind the last payload bit raises StreamOverrun and moves nothing (R73). -/
theorem readBit_atEnd {s : State} (h : s.CursorAt Config.payloadBits) : readBit s = .raised (s.withError .streamOverrun) := by
  unfold readBit
  rw [if_pos (by rw [h.1]; decide), raise_eq]

/-- Everything `readBit` can do, from any state. -/
theorem readBit_cases (s : State) :
    (∃ v b m, readBit s = .go v (s.setCursor b m)) ∨
      (Config.blockSize ≤ s.curByte ∧ readBit s = .raised (s.withError .streamOverrun)) := by
  unfold readBit
  split
  · exact .inr ⟨‹_›, rfl⟩
  · refine .inl ?_
    simp only
    split <;> exact ⟨_, _, _, rfl⟩

@[simp] theorem State.payloadBit_atBit (s : State) (q p : Nat) : (s.atBit q).payloadBit p = s.payloadBit p := rfl

/-- `readBitsFrom` when the bits are there: the cursor is `n` bits further. -/
theorem readBitsFrom_at {s : State} {p : Nat} (n result : Nat) (h : s.CursorAt p) (hp : p + n ≤ Config.payloadBits) :
    ∃ v, readBitsFrom n result s = .go v (s.atBit (p + n)) := by
  induction n generalizing s p result with
  | zero => exact ⟨result, by rw [Nat.add_zero, State.atBit_self h]; rfl⟩
  | succ k ih =>
    rw [readBitsFrom, readBit_at h (by omega), Flow.andThen_go]
    obtain ⟨v, hv⟩ := ih (s := s.atBit (p + 1)) (p := p + 1) _ (State.atBit_cursorAt s _) (by omega)
    exact ⟨v, by rw [hv, State.atBit, State.atBit, State.setCursor_setCursor, Nat.add_assoc, Nat.add_comm 1]⟩

/-- `readBitsFrom` when they are not: all that is left is consumed and StreamOverrun is raised (R147). -/
theorem readBitsFrom_short {s : State} {p : Nat} (n result : Nat) (h : s.CursorAt p) (hp : p ≤ Config.payloadBits)
    (hn : Config.payloadBits < p + n) :
    readBitsFrom n result s = .raised ((s.atBit Config.payloadBits).withError .streamOverrun) := by
  induction n generalizing s p result with
  | zero => omega
  | succ k ih =>
    by_cases he : p = Config.payloadBits
    · subst he
      rw [readBitsFrom, readBit_atEnd h, Flow.andThen_raised, State.atBit_self h]
    · rw [readBitsFrom, readBit_at h (by omega), Flow.andThen_go,
        ih (s := s.atBit (p + 1)) (p := p + 1) _ (State.atBit_cursorAt s _) (by omega) (by omega),
        State.atBit, State.atBit, State.setCursor_setCursor]

/-- Everything `readBitsFrom` can do, from any state: only the cursor moves, or StreamOverrun is raised after it moved behind the
block's last byte. -/
theorem readBitsFrom_cases (n result : Nat) (s : State) :
    (∃ v b m, readBitsFrom n result s = .go v (s.setCursor b m)) ∨
      ∃ b m, Config.blockSize ≤ b ∧
        readBitsFrom n result s = .raised ((s.setCursor b m).withError .streamOverrun) := by
  induction n generalizing result s with
  | zero => exact .inl ⟨result, s.curByte, s.curMask, rfl⟩
  | succ k ih =>
    rw [readBitsFrom]
    obtain ⟨v, b, m, h⟩ | ⟨hb, h⟩ := readBit_cases s
    · rw [h, Flow.andThen_go]
      obtain ⟨v', b', m', h'⟩ | ⟨b', m', hb', h'⟩ := ih (if v then result ||| (1 <<< k) else result) (s.setCursor b m)
      · exact .inl ⟨v', b', m', h'⟩
      · exact .inr ⟨b', m', hb', h'⟩
    · exact .inr ⟨s.curByte, s.curMask, hb, by rw [h]; rfl⟩

/-- `takeBits` when the bits are there. -/
theorem takeBits_at {s : State} {p n : Nat} (h : s.CursorAt p) (hp : p + n ≤ Config.payloadBits) :
    takeBits n s = .go () (s.atBit (p + n)) := by
  obtain ⟨v, hv⟩ := readBitsFrom_at n 0 h hp
  rw [takeBits, hv, Flow.andThen_go]

/-- `takeBits` when they are not. -/
theorem takeBits_short {s : State} {p n : Nat} (h : s.CursorAt p) (hp : p ≤ Config.payloadBits)
    (hn : Config.payloadBits < p + n) :
    takeBits n s = .raised ((s.atBit Config.payloadBits).withError .streamOverrun) := by
  rw [takeBits, readBitsFrom_short n 0 h hp hn, Flow.andThen_raised]

/-- Everything `takeBits` can do, from any state. -/
theorem takeBits_cases (n : Nat) (s : State) :
    (∃ b m, takeBits n s = .go () (s.setCursor b m)) ∨
      ∃ b m, Config.blockSize ≤ b ∧ takeBits n s = .raised ((s.setCursor b m).withError .streamOverrun) := by
  unfold takeBits
  obtain ⟨v, b, m, h⟩ | ⟨b, m, hb, h⟩ := readBitsFrom_cases n 0 s
  · exact .inl ⟨b, m, by rw [h]; rfl⟩
  · exact .inr ⟨b, m, hb, by rw [h]; rfl⟩

/-- The bits ahead of a cursor at payload bit `p`, as many as there are up to `n`. -/
theorem streamAhead_at {s : State} {p : Nat} (n : Nat) (h : s.CursorAt p) (hp : p ≤ Config.payloadBits) :
    streamAhead n s = (List.range' p (min n (Config.payloadBits - p))).map s.payloadBit := by
  induction n generalizing s p with
  | zero => simp [streamAhead]
  | succ k ih =>
    rw [streamAhead]
    by_cases he : p = Config.payloadBits
    · subst he
      rw [readBit_atEnd h]
      simp
    · have hlt : p < Config.payloadBits := by omega
      rw [readBit_at h hlt]
      have hm : min (k + 1) (Config.payloadBits - p) = min k (Config.payloadBits - (p + 1)) + 1 := by omega
      simp only [hm, List.range'_succ, List.map_cons]
      rw [ih (State.atBit_cursorAt s _) (by omega)]
      rfl

end Sys2Proof.Machine
end

