-- ==== Sys2Proof/Laws/Ops.lean ====
section
/-!
SUPPORT. Everything the shared operations can do, once each: the triple write, `append`, the copy loop, the run advance,
the next pixel, the stamp advance and the entry to the gap-fill pass. Each lemma gives the operation's result as a state.
-/

namespace Sys2Proof.Machine

/-! ### Writing `PB` -/

/-- Three bytes written in ascending order. -/
def Memory.writeTriple (m : Memory) (a : Nat) (c : Rgb) : Memory := ((m.write a c.r).write (a + 1) c.g).write (a + 2) c.b

/-- One byte after a triple write. -/
theorem Memory.read_writeTriple (m : Memory) (a x : Nat) (c : Rgb) :
    (m.writeTriple a c).read x =
      if x = a then c.r else if x = a + 1 then c.g else if x = a + 2 then c.b else m.read x := by
  unfold Memory.writeTriple
  simp only [Memory.read_write]
  by_cases h0 : x = a
  · rw [if_neg (by omega), if_neg (by omega), if_pos h0.symm, if_pos h0]
  · by_cases h1 : x = a + 1
    · rw [if_neg (by omega), if_pos h1.symm, if_neg h0, if_pos h1]
    · by_cases h2 : x = a + 2
      · rw [if_pos h2.symm, if_neg h0, if_neg h1, if_pos h2]
      · rw [if_neg (Ne.symm h2), if_neg (Ne.symm h1), if_neg (Ne.symm h0), if_neg h0, if_neg h1, if_neg h2]

theorem Memory.read_writeTriple_outside (m : Memory) {a x : Nat} (c : Rgb) (h : x < a ∨ a + 2 < x) :
    (m.writeTriple a c).read x = m.read x := by
  rw [Memory.read_writeTriple, if_neg (by omega), if_neg (by omega), if_neg (by omega)]

theorem Memory.wf_writeTriple {m : Memory} (a : Nat) (c : Rgb) (h : m.wf) : (m.writeTriple a c).wf :=
  Memory.wf_write _ _ (Memory.wf_write _ _ (Memory.wf_write _ _ h))

theorem Memory.within_writeTriple {size : Nat} {m : Memory} {a : Nat} (c : Rgb) (h : m.within size) (ha : a + 2 < size) :
    (m.writeTriple a c).within size :=
  Memory.within_write _ (Memory.within_write _ (Memory.within_write _ h (by omega)) (by omega)) ha

theorem storePb_inside {a : Nat} (v : Byte) (s : State) (h : a < Config.capacity) :
    storePb a v s = .go () (s.setPb (s.pb.write a v)) := if_pos h

/-- A triple write inside `PB`. -/
theorem storeTriple_inside {a : Nat} (c : Rgb) (s : State) (h : a + 2 < Config.capacity) :
    storeTriple a c s = .go () (s.setPb (s.pb.writeTriple a c)) := by
  unfold storeTriple
  rw [storePb_inside _ _ (by omega), Flow.andThen_go, storePb_inside _ _ (by omega), Flow.andThen_go, storePb_inside _ _ h]
  rfl

/-- A triple write that does not fit in `PB` reaches an address that does not exist. -/
theorem storeTriple_outside {a : Nat} (c : Rgb) (s : State) (h : Config.capacity ≤ a + 2) :
    ∃ x, storeTriple a c s = .fault (.pbAddress x) := by
  unfold storeTriple storePb
  by_cases h0 : a < Config.capacity
  · by_cases h1 : a + 1 < Config.capacity
    · exact ⟨a + 2, by rw [if_pos h0, Flow.andThen_go, if_pos h1, Flow.andThen_go, if_neg (by omega)]⟩
    · exact ⟨a + 1, by rw [if_pos h0, Flow.andThen_go, if_neg h1, Flow.andThen_fault]⟩
  · exact ⟨a, by rw [if_neg h0, Flow.andThen_fault]⟩

/-- Everything a triple write can do. -/
theorem storeTriple_cases (a : Nat) (c : Rgb) (s : State) :
    (a + 2 < Config.capacity ∧ storeTriple a c s = .go () (s.setPb (s.pb.writeTriple a c))) ∨
      (Config.capacity ≤ a + 2 ∧ ∃ x, storeTriple a c s = .fault (.pbAddress x)) := by
  by_cases h : a + 2 < Config.capacity
  · exact .inl ⟨h, storeTriple_inside c s h⟩
  · exact .inr ⟨by omega, storeTriple_outside c s (by omega)⟩

/-! ### FormatL -/

/-- The state after one byte was appended (R81). -/
def State.appended (s : State) (v : Byte) : State :=
  ((s.setPb (s.pb.write s.outLen v)).setOutLen (s.outLen + 1)).setLut (s.lut.write (lutIndex (s.outLen + 1)) v)

theorem append_room (v : Byte) {s : State} (h : s.outLen < Config.capacity) : append v s = .go () (s.appended v) := by
  unfold append
  rw [if_neg (by omega), storePb_inside _ _ h]
  rfl

theorem append_full (v : Byte) {s : State} (h : Config.capacity ≤ s.outLen) :
    append v s = .raised (s.withError .decodeOverflow) := if_pos h

/-- The state after `count` iterations of the copy loop, from loop counter `i` on. -/
def State.copied (offset : Nat) : (count i : Nat) → State → State
  | 0, _, s => s
  | count + 1, i, s => State.copied offset count (i + 1) (s.appended (s.readLut (lutIndex (i + offset))))

/-- Everything the copy loop can do (R83): the iterations there is room for happen, and one more raises. -/
theorem copyLoop_eq (offset count i : Nat) (s : State) :
    copyLoop offset count i s =
      if count ≤ Config.capacity - s.outLen then .go () (s.copied offset count i)
      else .raised ((s.copied offset (Config.capacity - s.outLen) i).withError .decodeOverflow) := by
  induction count generalizing i s with
  | zero => rw [if_pos (Nat.zero_le _)]; rfl
  | succ k ih =>
    rw [copyLoop]
    by_cases h : s.outLen < Config.capacity
    · simp only [append_room _ h, Flow.andThen_go, ih]
      have e : Config.capacity - (s.appended (s.readLut (lutIndex (i + offset)))).outLen = Config.capacity - s.outLen - 1 := by
        show Config.capacity - (s.outLen + 1) = _
        omega
      rw [e]
      by_cases hk : k + 1 ≤ Config.capacity - s.outLen
      · rw [if_pos (by omega), if_pos hk]
        rfl
      · rw [if_neg (by omega), if_neg hk]
        obtain ⟨r, hr⟩ : ∃ r, Config.capacity - s.outLen = r + 1 := ⟨Config.capacity - s.outLen - 1, by omega⟩
        rw [hr]
        rfl
    · simp only [append_full _ (Nat.le_of_not_lt h), Flow.andThen_raised]
      have e : Config.capacity - s.outLen = 0 := by omega
      rw [e, if_neg (by omega)]
      rfl

theorem State.copied_outLen (offset count i : Nat) (s : State) : (s.copied offset count i).outLen = s.outLen + count := by
  induction count generalizing i s with
  | zero => rfl
  | succ k ih =>
    rw [State.copied, ih]
    show s.outLen + 1 + k = _
    omega

/-- What the copy loop leaves alone. -/
theorem State.copied_frame (offset count i : Nat) (s : State) :
    let t := s.copied offset count i
    t.phase = s.phase ∧ t.curByte = s.curByte ∧ t.curMask = s.curMask ∧ t.outputPos = s.outputPos ∧ t.stampPos = s.stampPos ∧
      t.col = s.col ∧ t.fillPos = s.fillPos ∧ t.carry = s.carry ∧ t.err = s.err ∧ t.inLen = s.inLen ∧ t.cb = s.cb ∧
      t.hostSlots = s.hostSlots := by
  induction count generalizing i s with
  | zero => simp [State.copied]
  | succ k ih => exact ih (i + 1) (s.appended _)

/-- `PB` outside the bytes the copy loop appends. -/
theorem State.copied_readPb_outside (offset count i : Nat) (s : State) {a : Nat}
    (h : a < s.outLen ∨ s.outLen + count ≤ a) : (s.copied offset count i).readPb a = s.readPb a := by
  induction count generalizing i s with
  | zero => rfl
  | succ k ih =>
    rw [State.copied, ih _ _ (by show a < s.outLen + 1 ∨ s.outLen + 1 + k ≤ a; omega)]
    exact Memory.read_write_other _ _ (by omega)

/-- `LUT` outside the indices the copy loop writes. -/
theorem State.copied_readLut_outside (offset count i : Nat) (s : State) {j : Nat}
    (h : ∀ k < count, j ≠ lutIndex (s.outLen + 1 + k)) : (s.copied offset count i).readLut j = s.readLut j := by
  induction count generalizing i s with
  | zero => rfl
  | succ k ih =>
    rw [State.copied, ih]
    · exact Memory.read_write_other _ _ (h 0 (by omega))
    · intro m hm
      have := h (m + 1) (by omega)
      show j ≠ lutIndex (s.outLen + 1 + 1 + m)
      rwa [Nat.add_assoc _ 1 m, Nat.add_comm 1 m]

/-- The copy loop in two parts. -/
theorem State.copied_add (offset m n i : Nat) (s : State) :
    s.copied offset (m + n) i = (s.copied offset m i).copied offset n (i + m) := by
  induction m generalizing i s with
  | zero => rw [Nat.zero_add, Nat.add_zero]; rfl
  | succ k ih =>
    rw [show k + 1 + n = (k + n) + 1 by omega, State.copied, ih, State.copied, show i + (k + 1) = i + 1 + k by omega]

/-- The `k`-th byte the copy loop appends is the table byte of that iteration. -/
theorem State.copied_readPb {offset count : Nat} (s : State) {k : Nat} (hk : k < count) :
    (s.copied offset count 0).readPb (s.outLen + k) = (s.copied offset k 0).readLut (lutIndex (k + offset)) := by
  obtain ⟨r, rfl⟩ : ∃ r, count = k + (1 + r) := ⟨count - k - 1, by omega⟩
  have hl : (s.copied offset k 0).outLen = s.outLen + k := State.copied_outLen _ _ _ _
  have e : (s.copied offset k 0).copied offset 1 (0 + k) =
      (s.copied offset k 0).appended ((s.copied offset k 0).readLut (lutIndex (k + offset))) := by
    rw [Nat.zero_add]
    rfl
  rw [State.copied_add, State.copied_add, e, State.copied_readPb_outside]
  · rw [← hl]
    exact Memory.read_write_same _ _ _
  · left
    show _ < (s.copied offset k 0).outLen + 1
    omega

/-- And it is the table byte at the output length it brings about. -/
theorem State.copied_readLut {offset count : Nat} (s : State) {k : Nat} (hk : k < count) (hc : count ≤ Config.lutSize) :
    (s.copied offset count 0).readLut (lutIndex (s.outLen + 1 + k)) = (s.copied offset count 0).readPb (s.outLen + k) := by
  rw [State.copied_readPb s hk]
  obtain ⟨r, rfl⟩ : ∃ r, count = k + (1 + r) := ⟨count - k - 1, by omega⟩
  have hl : (s.copied offset k 0).outLen = s.outLen + k := State.copied_outLen _ _ _ _
  have e : (s.copied offset k 0).copied offset 1 (0 + k) =
      (s.copied offset k 0).appended ((s.copied offset k 0).readLut (lutIndex (k + offset))) := by
    rw [Nat.zero_add]
    rfl
  rw [State.copied_add, State.copied_add, e, State.copied_readLut_outside]
  · rw [show s.outLen + 1 + k = (s.copied offset k 0).outLen + 1 by omega]
    exact Memory.read_write_same _ _ _
  · intro q hq
    show lutIndex _ ≠ lutIndex ((s.copied offset k 0).outLen + 1 + 1 + q)
    simp only [lutIndex, Config.lutSize] at *
    omega

/-! ### FormatP -/

/-- The state in which the gap-fill pass starts (R120). -/
def State.fillEntered (s : State) : State := ((s.setFillPos 0).setCarry Rgb.zero).setPhase .pFill

@[simp] theorem enterFill_eq (s : State) : enterFill s = .go () s.fillEntered := rfl

/-- The state after the run advance (R96). -/
def State.runAdvanced (s : State) (runLength : Nat) : State :=
  if Config.capacity ≤ s.outputPos + 3 * runLength then (s.setOutputPos (s.outputPos + 3 * runLength)).fillEntered
  else (s.setOutputPos (s.outputPos + 3 * runLength)).setPhase .pColor

theorem runAdvance_eq (runLength : Nat) (s : State) : runAdvance runLength s = .go () (s.runAdvanced runLength) := by
  unfold runAdvance State.runAdvanced
  by_cases h : Config.capacity ≤ s.outputPos + 3 * runLength
  · rw [if_pos h]
    exact if_pos h
  · rw [if_neg h]
    exact if_neg h

/-- The state after the close of a pixel record (R102). -/
def State.pixelClosed (s : State) : State :=
  if s.outputPos + 3 < Config.capacity then (s.setOutputPos (s.outputPos + 3)).setPhase .pRun
  else (s.setOutputPos (s.outputPos + 3)).fillEntered

theorem nextPixel_eq (s : State) : nextPixel s = .go () s.pixelClosed := by
  unfold nextPixel State.pixelClosed
  by_cases h : s.outputPos + 3 < Config.capacity
  · rw [if_pos h]
    exact if_pos h
  · rw [if_neg h]
    exact if_neg h

/-- The close of a pixel record as one record update. -/
theorem State.pixelClosed_eq (s : State) :
    s.pixelClosed =
      { s with
        outputPos := s.outputPos + 3
        phase := if s.outputPos + 3 < Config.capacity then .pRun else .pFill
        fillPos := if s.outputPos + 3 < Config.capacity then s.fillPos else 0
        carry := if s.outputPos + 3 < Config.capacity then s.carry else Rgb.zero } := by
  unfold State.pixelClosed
  by_cases h : s.outputPos + 3 < Config.capacity
  · simp only [if_pos h]
    rfl
  · simp only [if_neg h]
    rfl

/-- The run advance as one record update. -/
theorem State.runAdvanced_eq (s : State) (n : Nat) :
    s.runAdvanced n =
      { s with
        outputPos := s.outputPos + 3 * n
        phase := if Config.capacity ≤ s.outputPos + 3 * n then .pFill else .pColor
        fillPos := if Config.capacity ≤ s.outputPos + 3 * n then 0 else s.fillPos
        carry := if Config.capacity ≤ s.outputPos + 3 * n then Rgb.zero else s.carry } := by
  unfold State.runAdvanced
  by_cases h : Config.capacity ≤ s.outputPos + 3 * n
  · simp only [if_pos h]
    rfl
  · simp only [if_neg h]
    rfl

/-- The state after a stamp that lies in `PB` (R110). -/
def State.stamped (s : State) (inc : Nat) : State :=
  ((s.setStampPos (s.stampPos + inc)).setPb (s.pb.writeTriple (s.stampPos + inc) s.col)).setPhase .pStamp

/-- Everything the stamp advance can do (R110); it never leaves `PB`. -/
theorem stampAdvance_eq (inc : Nat) (s : State) :
    stampAdvance inc s =
      if Config.capacity ≤ s.stampPos + inc + 2 then .go () (s.setStampPos (s.stampPos + inc)).pixelClosed
      else .go () (s.stamped inc) := by
  unfold stampAdvance
  by_cases h : Config.capacity ≤ s.stampPos + inc + 2
  · rw [if_pos h]
    exact (if_pos h).trans (nextPixel_eq _)
  · rw [if_neg h]
    refine (if_neg h).trans ?_
    rw [storeTriple_inside _ _ (by simp only [State.setStampPos_stampPos]; omega)]
    rfl

theorem loadTriple_inside {a : Nat} (s : State) (h : a + 2 < Config.capacity) : loadTriple a s = .go (s.readTriple a) s :=
  if_pos h

theorem loadTriple_outside {a : Nat} (s : State) (h : Config.capacity ≤ a + 2) :
    loadTriple a s = .fault (.pbAddress (a + 2)) := if_neg (by omega)

end Sys2Proof.Machine
end

