-- ==== Sys2Proof/Laws/Decode.lean ====
section
/-!
SUPPORT. Fields as bits and back: the value of a field's bits, the bits of a value, and what splitting a field off the
stream answers.
-/

namespace Sys2Proof

@[simp] theorem length_natToBits (n v : Nat) : (natToBits n v).length = n := by
  induction n with
  | zero => rfl
  | succ n ih => simp [natToBits, ih]

@[simp] theorem length_fieldBits {n : Nat} (v : BitVec n) : (fieldBits v).length = n := length_natToBits n v.toNat

theorem bitsToNat_lt (bits : List Bool) : bitsToNat bits < 2 ^ bits.length := by
  induction bits with
  | nil => simp [bitsToNat]
  | cons b bs ih =>
    rw [bitsToNat, List.length_cons, Nat.pow_succ]
    cases b <;> simp only [Bool.toNat_false, Bool.toNat_true] <;> omega

theorem bitsToNat_natToBits (n v : Nat) : bitsToNat (natToBits n v) = v % 2 ^ n := by
  induction n with
  | zero => simp [natToBits, bitsToNat, Nat.mod_one]
  | succ n ih =>
    rw [natToBits, bitsToNat, ih, length_natToBits, Nat.mod_pow_succ, Nat.toNat_testBit, Nat.mul_comm, Nat.add_comm]

/-- The bits of a field have the field's value. -/
@[simp] theorem bitsToNat_fieldBits {n : Nat} (v : BitVec n) : bitsToNat (fieldBits v) = v.toNat := by
  rw [fieldBits, bitsToNat_natToBits, Nat.mod_eq_of_lt v.isLt]

/-- The low digits of a number are not changed by adding a multiple of the next power. -/
theorem natToBits_add_mul (n a v : Nat) : natToBits n (a * 2 ^ n + v) = natToBits n v := by
  induction n generalizing a v with
  | zero => rfl
  | succ n ih =>
    have e : a * 2 ^ (n + 1) + v = 2 * a * 2 ^ n + v := by rw [Nat.pow_succ]; ring
    rw [natToBits, natToBits, e, ih]
    congr 1
    rw [Nat.testBit_eq_decide_div_mod_eq, Nat.testBit_eq_decide_div_mod_eq,
      Nat.mul_comm (2 * a), Nat.mul_add_div (by positivity), Nat.mul_comm 2 a, Nat.mul_comm a 2, Nat.mul_add_mod]

/-- A bit string is the digits of its value. -/
theorem natToBits_bitsToNat (bits : List Bool) : natToBits bits.length (bitsToNat bits) = bits := by
  induction bits with
  | nil => rfl
  | cons b bs ih =>
    rw [List.length_cons, natToBits, bitsToNat, natToBits_add_mul, ih]
    congr 1
    rw [Nat.testBit_eq_decide_div_mod_eq, Nat.mul_comm, Nat.mul_add_div (by positivity),
      Nat.div_eq_of_lt (bitsToNat_lt bs)]
    cases b <;> rfl

/-- A field's bits in front of the stream split off as that field. -/
@[simp] theorem takeField_append {n : Nat} (v : BitVec n) (rest : List Bool) :
    takeField n (fieldBits v ++ rest) = some (v, rest) := by
  unfold takeField
  rw [if_pos (by simp), List.take_append_of_le_length (by simp), List.drop_append_of_le_length (by simp),
    List.take_of_length_le (by simp), List.drop_of_length_le (by simp), bitsToNat_fieldBits]
  simp

/-- A field that splits off was in front of the stream. -/
theorem takeField_some {n : Nat} {bits rest : List Bool} {v : BitVec n} (h : takeField n bits = some (v, rest)) :
    bits = fieldBits v ++ rest := by
  unfold takeField at h
  split at h
  · rename_i hn
    obtain ⟨rfl, rfl⟩ := by simpa using h
    have hl : (bits.take n).length = n := by simpa using hn
    have hlt : bitsToNat (bits.take n) < 2 ^ n := by
      have := bitsToNat_lt (bits.take n)
      rwa [hl] at this
    have e : fieldBits (BitVec.ofNat n (bitsToNat (bits.take n))) = bits.take n := by
      rw [fieldBits, BitVec.toNat_ofNat, Nat.mod_eq_of_lt hlt]
      conv_lhs => rw [← hl]
      rw [hl]
      have := natToBits_bitsToNat (bits.take n)
      rwa [hl] at this
    rw [e, List.take_append_drop]
  · cases h

/-- A field splits off exactly if its bits are there. -/
theorem takeField_none {n : Nat} {bits : List Bool} : takeField n bits = none ↔ bits.length < n := by
  unfold takeField
  split <;> simp <;> omega

@[simp] theorem withField_append {n : Nat} (f : BitVec n → Instr) (v : BitVec n) (rest : List Bool) :
    withField n f (fieldBits v ++ rest) = .code (f v) rest := by
  rw [withField, takeField_append]

/-- What a code with one operand at its end can answer. -/
theorem withField_cases (n : Nat) (f : BitVec n → Instr) (bits : List Bool) :
    (∃ v rest, bits = fieldBits v ++ rest ∧ withField n f bits = .code (f v) rest) ∨
      (bits.length < n ∧ withField n f bits = .needsMoreBits) := by
  unfold withField
  cases h : takeField n bits with
  | none => exact .inr ⟨takeField_none.mp h, rfl⟩
  | some p => exact .inl ⟨p.1, p.2, takeField_some h, rfl⟩

end Sys2Proof
end

