-- ==== Sys2Proof/Laws/PerInstr.lean ====
section
/-!
SUPPORT. A statement about every instruction, constructor by constructor: the encoder gives a code the length that
30_encoding.md R60 (and spec/opcode_table.json) gives it.
-/

namespace Sys2Proof.Laws.EncodedLength

/-- The length in bits of each row of the opcode table (R60). -/
def tableLength : Instr → Nat
  | .tagL | .tagP => 8
  | .lLit _ => 9
  | .lCopy _ _ => 21
  | .lEnd => 17
  | .pRun0 | .pRun1 => 2
  | .pRuns _ => 4
  | .pRunx3 _ => 6
  | .pRunx4 _ => 8
  | .pRunx5 _ => 10
  | .pRunx6 _ => 12
  | .pRunx7 _ => 14
  | .pRunx8 _ => 16
  | .pRunx9 _ => 18
  | .pRunx10 _ => 20
  | .pRunx11 _ => 22
  | .pRunx12 _ => 24
  | .pRunx13 _ => 26
  | .pRunx14 _ => 28
  | .pRunx15 _ => 30
  | .pRunx16 _ => 32
  | .pRunx17 _ => 34
  | .pRunx18 _ => 36
  | .pRunx19 _ => 38
  | .pRunx20 _ => 40
  | .pRunx21 _ => 42
  | .pRunx22 _ => 44
  | .pRunx23 _ => 46
  | .pEnd => 23
  | .pColor _ _ _ _ => 25
  | .sExit => 3
  | .s1914 | .s1926 => 4
  | .s1917 | .s1920 | .s1923 => 2
  | .start | .fillStep => 0

/-- The code of `i` is as long as the table says. -/
def Statement (i : Instr) : Prop := codeLength i = tableLength i

theorem tagL : Statement .tagL := rfl
theorem tagP : Statement .tagP := rfl
theorem lLit (b : Byte) : Statement (.lLit b) := by simp [Statement, codeLength, tableLength, encode]
theorem lCopy (o : BitVec 16) (n : BitVec 4) : Statement (.lCopy o n) := by
  simp [Statement, codeLength, tableLength, encode]
theorem lEnd : Statement .lEnd := rfl
theorem pRun0 : Statement .pRun0 := rfl
theorem pRun1 : Statement .pRun1 := rfl
theorem pRuns (v : BitVec 2) : Statement (.pRuns v) := by simp [Statement, codeLength, tableLength, encode]

theorem encodeRunx_length {k : Nat} (hk : 3 ≤ k) (v : BitVec k) : (encodeRunx v).length = 2 * k := by
  simp [encodeRunx, Config.firstExtendedBits]
  omega

theorem pRunx3 (v : BitVec 3) : Statement (.pRunx3 v) := encodeRunx_length (by decide) v
theorem pRunx4 (v : BitVec 4) : Statement (.pRunx4 v) := encodeRunx_length (by decide) v
theorem pRunx5 (v : BitVec 5) : Statement (.pRunx5 v) := encodeRunx_length (by decide) v
theorem pRunx6 (v : BitVec 6) : Statement (.pRunx6 v) := encodeRunx_length (by decide) v
theorem pRunx7 (v : BitVec 7) : Statement (.pRunx7 v) := encodeRunx_length (by decide) v
theorem pRunx8 (v : BitVec 8) : Statement (.pRunx8 v) := encodeRunx_length (by decide) v
theorem pRunx9 (v : BitVec 9) : Statement (.pRunx9 v) := encodeRunx_length (by decide) v
theorem pRunx10 (v : BitVec 10) : Statement (.pRunx10 v) := encodeRunx_length (by decide) v
theorem pRunx11 (v : BitVec 11) : Statement (.pRunx11 v) := encodeRunx_length (by decide) v
theorem pRunx12 (v : BitVec 12) : Statement (.pRunx12 v) := encodeRunx_length (by decide) v
theorem pRunx13 (v : BitVec 13) : Statement (.pRunx13 v) := encodeRunx_length (by decide) v
theorem pRunx14 (v : BitVec 14) : Statement (.pRunx14 v) := encodeRunx_length (by decide) v
theorem pRunx15 (v : BitVec 15) : Statement (.pRunx15 v) := encodeRunx_length (by decide) v
theorem pRunx16 (v : BitVec 16) : Statement (.pRunx16 v) := encodeRunx_length (by decide) v
theorem pRunx17 (v : BitVec 17) : Statement (.pRunx17 v) := encodeRunx_length (by decide) v
theorem pRunx18 (v : BitVec 18) : Statement (.pRunx18 v) := encodeRunx_length (by decide) v
theorem pRunx19 (v : BitVec 19) : Statement (.pRunx19 v) := encodeRunx_length (by decide) v
theorem pRunx20 (v : BitVec 20) : Statement (.pRunx20 v) := encodeRunx_length (by decide) v
theorem pRunx21 (v : BitVec 21) : Statement (.pRunx21 v) := encodeRunx_length (by decide) v
theorem pRunx22 (v : BitVec 22) : Statement (.pRunx22 v) := encodeRunx_length (by decide) v
theorem pRunx23 (v : BitVec 23) : Statement (.pRunx23 v) := encodeRunx_length (by decide) v
theorem pEnd : Statement .pEnd := rfl
theorem pColor (r g b : Byte) (stamp : Bool) : Statement (.pColor r g b stamp) := by
  simp [Statement, codeLength, tableLength, encode]
theorem sExit : Statement .sExit := rfl
theorem s1914 : Statement .s1914 := rfl
theorem s1926 : Statement .s1926 := rfl
theorem s1917 : Statement .s1917 := rfl
theorem s1920 : Statement .s1920 := rfl
theorem s1923 : Statement .s1923 := rfl
theorem start : Statement .start := rfl
theorem fillStep : Statement .fillStep := rfl

end Sys2Proof.Laws.EncodedLength
end

