-- ==== Sys2Proof/Laws/Exec.lean ====
section
/-!
SUPPORT. The meanings by shape: a run code is the run advance after its bits, a stamp code the stamp advance after its
bits, a FormatL code its appends after its bits; and each meaning in closed form when its bits are there.
-/

namespace Sys2Proof.Machine

theorem extendedRunLength_eq {k : Nat} (hk : 1 ≤ k) (v : BitVec k) : extendedRunLength v = 2 ^ k - 2 + v.toNat := by
  have : 2 ^ 1 ≤ 2 ^ k := Nat.pow_le_pow_right (by decide) hk
  unfold extendedRunLength
  omega

/-- The encoder gives every code the table's length. -/
theorem codeLength_eq (i : Instr) : codeLength i = Laws.EncodedLength.tableLength i := by
  cases i
  case lLit b => exact Laws.EncodedLength.lLit b
  case lCopy o n => exact Laws.EncodedLength.lCopy o n
  case pRuns v => exact Laws.EncodedLength.pRuns v
  case pColor r g b stamp => exact Laws.EncodedLength.pColor r g b stamp
  case pRunx3 v => exact Laws.EncodedLength.pRunx3 v
  case pRunx4 v => exact Laws.EncodedLength.pRunx4 v
  case pRunx5 v => exact Laws.EncodedLength.pRunx5 v
  case pRunx6 v => exact Laws.EncodedLength.pRunx6 v
  case pRunx7 v => exact Laws.EncodedLength.pRunx7 v
  case pRunx8 v => exact Laws.EncodedLength.pRunx8 v
  case pRunx9 v => exact Laws.EncodedLength.pRunx9 v
  case pRunx10 v => exact Laws.EncodedLength.pRunx10 v
  case pRunx11 v => exact Laws.EncodedLength.pRunx11 v
  case pRunx12 v => exact Laws.EncodedLength.pRunx12 v
  case pRunx13 v => exact Laws.EncodedLength.pRunx13 v
  case pRunx14 v => exact Laws.EncodedLength.pRunx14 v
  case pRunx15 v => exact Laws.EncodedLength.pRunx15 v
  case pRunx16 v => exact Laws.EncodedLength.pRunx16 v
  case pRunx17 v => exact Laws.EncodedLength.pRunx17 v
  case pRunx18 v => exact Laws.EncodedLength.pRunx18 v
  case pRunx19 v => exact Laws.EncodedLength.pRunx19 v
  case pRunx20 v => exact Laws.EncodedLength.pRunx20 v
  case pRunx21 v => exact Laws.EncodedLength.pRunx21 v
  case pRunx22 v => exact Laws.EncodedLength.pRunx22 v
  case pRunx23 v => exact Laws.EncodedLength.pRunx23 v
  all_goals rfl

/-- The lengths of R55's table are the codes' lengths. -/
theorem codeLength_run {i : Instr} {len n : Nat} (h : runTable i = some (len, n)) : codeLength i = len := by
  rw [codeLength_eq]
  cases i <;> simp only [runTable, Option.some.injEq, Prod.mk.injEq, reduceCtorEq] at h <;> obtain ⟨rfl, rfl⟩ := h <;> rfl

/-- The lengths of R57's table are the codes' lengths. -/
theorem codeLength_stamp {i : Instr} {len inc : Nat} (h : stampTable i = some (len, inc)) : codeLength i = len := by
  rw [codeLength_eq]
  cases i <;> simp only [stampTable, Option.some.injEq, Prod.mk.injEq, reduceCtorEq] at h <;> obtain ⟨rfl, rfl⟩ := h <;> rfl

/-- Each run code of R55's table runs as its bits and then the run advance. -/
theorem exec_run {i : Instr} {len n : Nat} (h : runTable i = some (len, n)) (s : State) :
    exec i s = (runCode len n s).outcome := by
  cases i <;> simp only [runTable, Option.some.injEq, Prod.mk.injEq, reduceCtorEq] at h <;> obtain ⟨rfl, rfl⟩ := h
  case pRun0 => rfl
  case pRun1 => rfl
  case pRuns v => rfl
  case pRunx3 v => exact congrArg (fun n => (runCode 6 n s).outcome) (extendedRunLength_eq (by decide) v)
  case pRunx4 v => exact congrArg (fun n => (runCode 8 n s).outcome) (extendedRunLength_eq (by decide) v)
  case pRunx5 v => exact congrArg (fun n => (runCode 10 n s).outcome) (extendedRunLength_eq (by decide) v)
  case pRunx6 v => exact congrArg (fun n => (runCode 12 n s).outcome) (extendedRunLength_eq (by decide) v)
  case pRunx7 v => exact congrArg (fun n => (runCode 14 n s).outcome) (extendedRunLength_eq (by decide) v)
  case pRunx8 v => exact congrArg (fun n => (runCode 16 n s).outcome) (extendedRunLength_eq (by decide) v)
  case pRunx9 v => exact congrArg (fun n => (runCode 18 n s).outcome) (extendedRunLength_eq (by decide) v)
  case pRunx10 v => exact congrArg (fun n => (runCode 20 n s).outcome) (extendedRunLength_eq (by decide) v)
  case pRunx11 v => exact congrArg (fun n => (runCode 22 n s).outcome) (extendedRunLength_eq (by decide) v)
  case pRunx12 v => exact congrArg (fun n => (runCode 24 n s).outcome) (extendedRunLength_eq (by decide) v)
  case pRunx13 v => exact congrArg (fun n => (runCode 26 n s).outcome) (extendedRunLength_eq (by decide) v)
  case pRunx14 v => exact congrArg (fun n => (runCode 28 n s).outcome) (extendedRunLength_eq (by decide) v)
  case pRunx15 v => exact congrArg (fun n => (runCode 30 n s).outcome) (extendedRunLength_eq (by decide) v)
  case pRunx16 v => exact congrArg (fun n => (runCode 32 n s).outcome) (extendedRunLength_eq (by decide) v)
  case pRunx17 v => exact congrArg (fun n => (runCode 34 n s).outcome) (extendedRunLength_eq (by decide) v)
  case pRunx18 v => exact congrArg (fun n => (runCode 36 n s).outcome) (extendedRunLength_eq (by decide) v)
  case pRunx19 v => exact congrArg (fun n => (runCode 38 n s).outcome) (extendedRunLength_eq (by decide) v)
  case pRunx20 v => exact congrArg (fun n => (runCode 40 n s).outcome) (extendedRunLength_eq (by decide) v)
  case pRunx21 v => exact congrArg (fun n => (runCode 42 n s).outcome) (extendedRunLength_eq (by decide) v)
  case pRunx22 v => exact congrArg (fun n => (runCode 44 n s).outcome) (extendedRunLength_eq (by decide) v)
  case pRunx23 v => exact congrArg (fun n => (runCode 46 n s).outcome) (extendedRunLength_eq (by decide) v)

/-- Each stamp code of R57's table runs as its bits and then the stamp advance. -/
theorem exec_stamp {i : Instr} {len inc : Nat} (h : stampTable i = some (len, inc)) (s : State) :
    exec i s = (stampCode len inc s).outcome := by
  cases i <;> simp only [stampTable, Option.some.injEq, Prod.mk.injEq, reduceCtorEq] at h <;> obtain ⟨rfl, rfl⟩ := h <;> rfl

/-- A run code whose bits are there. -/
theorem exec_run_at {i : Instr} {len n p : Nat} {s : State} (h : runTable i = some (len, n)) (hc : s.CursorAt p)
    (hp : p + len ≤ Config.payloadBits) : exec i s = .next ((s.atBit (p + len)).runAdvanced n) := by
  rw [exec_run h, runCode, takeBits_at hc hp, Flow.andThen_go, runAdvance_eq, Flow.outcome_go]

/-- A stamp code whose bits are there. -/
theorem exec_stamp_at {i : Instr} {len inc p : Nat} {s : State} (h : stampTable i = some (len, inc)) (hc : s.CursorAt p)
    (hp : p + len ≤ Config.payloadBits) :
    exec i s = .next (if Config.capacity ≤ s.stampPos + inc + 2 then
      ((s.atBit (p + len)).setStampPos (s.stampPos + inc)).pixelClosed else (s.atBit (p + len)).stamped inc) := by
  rw [exec_stamp h, stampCode, takeBits_at hc hp, Flow.andThen_go, stampAdvance_eq]
  by_cases hin : Config.capacity ≤ s.stampPos + inc + 2
  · rw [if_pos hin]
    exact congrArg Flow.outcome (if_pos hin)
  · rw [if_neg hin]
    exact congrArg Flow.outcome (if_neg hin)

theorem State.overrun_eq (s : State) : (s.atBit Config.payloadBits).withError .streamOverrun = s.overrun := rfl

/-- `L.LIT` whose bits are there, with room in `PB`. -/
theorem exec_lLit_room {b : Byte} {s : State} {p : Nat} (hc : s.CursorAt p) (hp : p + 9 ≤ Config.payloadBits)
    (hr : s.outLen < Config.capacity) : exec (.lLit b) s = .next (((s.atBit (p + 9)).appended b).setPhase .lCode) := by
  show execLLit b s = _
  rw [execLLit, takeBits_at hc hp, Flow.andThen_go, append_room _ (by simpa using hr)]
  rfl

/-- `L.LIT` whose bits are there, on a full `PB`. -/
theorem exec_lLit_full {b : Byte} {s : State} {p : Nat} (hc : s.CursorAt p) (hp : p + 9 ≤ Config.payloadBits)
    (hr : Config.capacity ≤ s.outLen) : exec (.lLit b) s = .next ((s.atBit (p + 9)).withError .decodeOverflow) := by
  show execLLit b s = _
  rw [execLLit, takeBits_at hc hp, Flow.andThen_go, append_full _ (by simpa using hr)]
  rfl

theorem copyLength_succ (n : BitVec 4) : copyLength n + 1 = n.toNat + 3 := rfl

/-- `L.COPY` whose bits are there. -/
theorem exec_lCopy_at {o : BitVec 16} {n : BitVec 4} {s : State} {p : Nat} (hc : s.CursorAt p)
    (hp : p + 21 ≤ Config.payloadBits) :
    exec (.lCopy o n) s =
      .next (if n.toNat + 3 ≤ Config.capacity - s.outLen then
        (State.copied o.toNat (n.toNat + 3) 0 (s.atBit (p + 21))).setPhase .lCode
      else (State.copied o.toNat (Config.capacity - s.outLen) 0 (s.atBit (p + 21))).withError .decodeOverflow) := by
  show execLCopy o n s = _
  rw [execLCopy, takeBits_at hc hp, Flow.andThen_go, copyLoop_eq, copyLength_succ, State.setCursor_outLen]
  by_cases hr : n.toNat + 3 ≤ Config.capacity - s.outLen
  · rw [if_pos hr, if_pos hr]
    rfl
  · rw [if_neg hr, if_neg hr]
    rfl

/-- `L.END` whose bits are there. -/
theorem exec_lEnd_at {s : State} {p : Nat} (hc : s.CursorAt p) (hp : p + 17 ≤ Config.payloadBits) :
    exec .lEnd s = .next ((s.atBit (p + 17)).setPhase .done) := by
  show execLEnd s = _
  rw [execLEnd, takeBits_at hc hp]
  rfl

/-- `P.END` whose bits are there. -/
theorem exec_pEnd_at {s : State} {p : Nat} (hc : s.CursorAt p) (hp : p + 23 ≤ Config.payloadBits) :
    exec .pEnd s = .next (s.atBit (p + 23)).fillEntered := by
  show execPEnd s = _
  rw [execPEnd, takeBits_at hc hp]
  rfl

/-- `S.EXIT` whose bits are there. -/
theorem exec_sExit_at {s : State} {p : Nat} (hc : s.CursorAt p) (hp : p + 3 ≤ Config.payloadBits) :
    exec .sExit s = .next (s.atBit (p + 3)).pixelClosed := by
  show execSExit s = _
  rw [execSExit, takeBits_at hc hp, Flow.andThen_go, nextPixel_eq]
  rfl

/-- The state after the colour of `P.COLOR` was written and recorded. -/
def State.colored (s : State) (c : Rgb) : State := (s.setPb (s.pb.writeTriple s.outputPos c)).setCol c

/-- `P.COLOR` whose 25 bits are there. -/
theorem exec_pColor_at {r g b : Byte} {stamp : Bool} {s : State} {p : Nat} (hc : s.CursorAt p)
    (hp : p + 25 ≤ Config.payloadBits) (ho : s.outputPos + 2 < Config.capacity) :
    exec (.pColor r g b stamp) s =
      .next (if stamp then (((s.colored ⟨r, g, b⟩).atBit (p + 25)).setStampPos s.outputPos).setPhase .pStamp
        else ((s.colored ⟨r, g, b⟩).atBit (p + 25)).pixelClosed) := by
  show execPColor r g b stamp s = _
  have hc' : (((s.atBit (p + 24)).setPb (s.pb.writeTriple s.outputPos ⟨r, g, b⟩)).setCol ⟨r, g, b⟩).CursorAt (p + 24) :=
    ⟨rfl, rfl⟩
  rw [execPColor, takeBits_at hc (by omega), Flow.andThen_go,
    storeTriple_inside _ _ (by simpa using ho), Flow.andThen_go]
  simp only
  rw [State.setCursor_outputPos, State.setCursor_pb, takeBits_at hc' (by omega), Flow.andThen_go]
  cases stamp
  · rw [if_neg (by simp), nextPixel_eq]
    rfl
  · rfl

/-- `P.COLOR` of which only the flag is missing. -/
theorem exec_pColor_flagMissing {r g b : Byte} {stamp : Bool} {s : State} {p : Nat} (hc : s.CursorAt p)
    (hp : p + 24 = Config.payloadBits) (ho : s.outputPos + 2 < Config.capacity) :
    exec (.pColor r g b stamp) s = .next (s.colored ⟨r, g, b⟩).overrun := by
  show execPColor r g b stamp s = _
  have hc' : (((s.atBit (p + 24)).setPb (s.pb.writeTriple s.outputPos ⟨r, g, b⟩)).setCol ⟨r, g, b⟩).CursorAt (p + 24) :=
    ⟨rfl, rfl⟩
  rw [execPColor, takeBits_at hc (by omega), Flow.andThen_go,
    storeTriple_inside _ _ (by simpa using ho), Flow.andThen_go]
  simp only
  rw [State.setCursor_outputPos, State.setCursor_pb, takeBits_short hc' (by omega) (by omega)]
  rfl

/-- FILL.STEP inside `PB`. -/
theorem exec_fillStep_inside {s : State} (h : s.fillPos + 2 < Config.capacity) :
    exec .fillStep s =
      .next (let t := if s.readTriple s.fillPos = Rgb.zero then s.setPb (s.pb.writeTriple s.fillPos s.carry)
          else s.setCarry (s.readTriple s.fillPos)
        let t := t.setFillPos (s.fillPos + 3)
        if Config.capacity ≤ s.fillPos + 3 then t.setPhase .done else t) := by
  show execFillStep s = _
  rw [execFillStep, loadTriple_inside _ h, Flow.andThen_go]
  by_cases hz : s.readTriple s.fillPos = Rgb.zero
  · rw [if_pos hz, if_pos hz, storeTriple_inside _ _ h, Flow.andThen_go]
    by_cases hf : Config.capacity ≤ s.fillPos + 3
    · exact (congrArg Flow.outcome (if_pos hf)).trans (congrArg Host.Outcome.next (if_pos hf).symm)
    · exact (congrArg Flow.outcome (if_neg hf)).trans (congrArg Host.Outcome.next (if_neg hf).symm)
  · rw [if_neg hz, if_neg hz, Flow.andThen_go]
    by_cases hf : Config.capacity ≤ s.fillPos + 3
    · exact (congrArg Flow.outcome (if_pos hf)).trans (congrArg Host.Outcome.next (if_pos hf).symm)
    · exact (congrArg Flow.outcome (if_neg hf)).trans (congrArg Host.Outcome.next (if_neg hf).symm)

/-- FILL.STEP outside `PB` reaches an address that does not exist. -/
theorem exec_fillStep_outside {s : State} (h : Config.capacity ≤ s.fillPos + 2) :
    exec .fillStep s = .fault (.pbAddress (s.fillPos + 2)) := by
  show execFillStep s = _
  rw [execFillStep, loadTriple_outside _ h]
  rfl

end Sys2Proof.Machine
end

