-- ==== Sys2Proof/Laws/Step.lean ====
section
/-!
SUPPORT. What a step is, case by case: the sequencer's step when the host passes, the code of the phase at the cursor in
the stream phases, FILL.STEP in `P_FILL`, nothing in the others, and the host's accesses.
-/

namespace Sys2Proof.Machine

/-- When the host passes, the step is the sequencer's, on the state with the slot used up. -/
theorem step_hostPasses {s s0 : State} (h : s.HostPasses s0) : step s = sequencerStep s0 ∧ ∃ later, s0 = s.setHostSlots later := by
  rcases h with ⟨h, rfl⟩ | ⟨later, h, rfl⟩
  · exact ⟨by simp [step, stepMachine, h], s0.hostSlots, rfl⟩
  · exact ⟨by simp [step, stepMachine, h], later, rfl⟩

/-- The other steps are host accesses. -/
theorem step_cases (s : State) :
    (∃ s0, s.HostPasses s0 ∧ step s = sequencerStep s0) ∨
      ∃ a later, s.hostSlots = some a :: later ∧ step s = hostAccess a (s.setHostSlots later) := by
  cases h : s.hostSlots with
  | nil => exact .inl ⟨s, .inl ⟨h, rfl⟩, by simp [step, stepMachine, h]⟩
  | cons x later =>
    cases x with
    | none => exact .inl ⟨_, .inr ⟨later, h, rfl⟩, by simp [step, stepMachine, h]⟩
    | some a => exact .inr ⟨a, later, rfl, by simp [step, stepMachine, h]⟩

theorem sequencerStep_site {s : State} {site : DecodeSite} (h : s.phase.site = some site) :
    sequencerStep s = runCodeAt site s := by
  unfold sequencerStep
  cases hp : s.phase <;> simp [hp, Phase.site] at h <;> subst h <;> rfl

theorem sequencerStep_fill {s : State} (h : s.phase = .pFill) : sequencerStep s = exec .fillStep s := by
  unfold sequencerStep
  simp [h]

theorem sequencerStep_halted {s : State} (h : s.phase = .idle ∨ s.phase = .done ∨ s.phase = .error) :
    sequencerStep s = .next s := by
  unfold sequencerStep
  rcases h with h | h | h <;> simp [h]

/-- What the decoder looks at from a cursor at payload bit `p`. -/
theorem fetchBits_at {s : State} {p : Nat} (h : s.CursorAt p) (hp : p ≤ Config.payloadBits) :
    fetchBits s = s.payloadFrom p ++ List.replicate Config.maxCodeBits false := by
  rw [fetchBits, streamAhead_at _ h hp]
  rfl

theorem length_payloadFrom (s : State) (p : Nat) :
    (s.payloadFrom p).length = min Config.maxCodeBits (Config.payloadBits - p) := by
  simp [State.payloadFrom]

/-- The place a phase reads its codes at is one of the four of the stream. -/
theorem Phase.site_stream {ph : Phase} {site : DecodeSite} (h : ph.site = some site) :
    site ∈ [DecodeSite.lCode, .pRun, .pColor, .pStamp] := by
  cases ph <;> simp [Phase.site] at h <;> subst h <;> decide

end Sys2Proof.Machine
end

