-- ==== Sys2Proof/Laws/Cases.lean ====
section
/-!
SUPPORT. Everything each instruction can do from any state, guards included: if `exec` answers a next state, then that
state is one of those named here. Later proofs cite these lemmas and unfold no meaning.
-/

namespace Sys2Proof.Machine

/-! ### The shapes of the instructions -/

theorem appendCount_cases {i : Instr} {n : Nat} (h : appendCount i = some n) :
    (∃ v, i = .lLit v ∧ n = 1) ∨ (∃ o m, i = .lCopy o m ∧ n = m.toNat + 3) ∨ (i = .lEnd ∧ n = 0) := by
  cases i
  case lLit v => exact .inl ⟨v, rfl, (Option.some.inj h).symm⟩
  case lCopy o m => exact .inr (.inl ⟨o, m, rfl, (Option.some.inj h).symm⟩)
  case lEnd => exact .inr (.inr ⟨rfl, (Option.some.inj h).symm⟩)
  all_goals cases h

/-- Every instruction has one of ten shapes. -/
theorem instr_shapes (i : Instr) :
    i = .tagL ∨ i = .tagP ∨ i = .start ∨ i = .fillStep ∨ (∃ n, appendCount i = some n) ∨
      (∃ len n, runTable i = some (len, n)) ∨ i = .pEnd ∨ (∃ r g b stamp, i = .pColor r g b stamp) ∨ i = .sExit ∨
      ∃ len inc, stampTable i = some (len, inc) := by
  cases i
  case tagL => exact .inl rfl
  case tagP => exact .inr (.inl rfl)
  case start => exact .inr (.inr (.inl rfl))
  case fillStep => exact .inr (.inr (.inr (.inl rfl)))
  case lLit | lCopy | lEnd => exact .inr (.inr (.inr (.inr (.inl ⟨_, rfl⟩))))
  case pEnd => exact .inr (.inr (.inr (.inr (.inr (.inr (.inl rfl))))))
  case pColor r g b stamp => exact .inr (.inr (.inr (.inr (.inr (.inr (.inr (.inl ⟨r, g, b, stamp, rfl⟩)))))))
  case sExit => exact .inr (.inr (.inr (.inr (.inr (.inr (.inr (.inr (.inl rfl))))))))
  case s1914 | s1926 | s1917 | s1920 | s1923 =>
    exact .inr (.inr (.inr (.inr (.inr (.inr (.inr (.inr (.inr ⟨_, _, rfl⟩))))))))
  all_goals exact .inr (.inr (.inr (.inr (.inr (.inl ⟨_, _, rfl⟩)))))

theorem site_run {i : Instr} {len n : Nat} (h : runTable i = some (len, n)) : i.site = .pRun := by
  cases i <;> first | rfl | cases h

theorem site_stamp {i : Instr} {len inc : Nat} (h : stampTable i = some (len, inc)) : i.site = .pStamp := by
  cases i <;> first | rfl | cases h

theorem site_append {i : Instr} {n : Nat} (h : appendCount i = some n) : i.site = .lCode := by
  cases i <;> first | rfl | cases h

/-! ### FormatL -/

/-- Everything `L.LIT` can do. -/
theorem exec_lLit_cases {v : Byte} {s t : State} (h : exec (.lLit v) s = .next t) :
    ∃ b m, (Config.blockSize ≤ b ∧ t = (s.setCursor b m).withError .streamOverrun) ∨
      (s.outLen < Config.capacity ∧ t = ((s.setCursor b m).appended v).setPhase .lCode) ∨
      (Config.capacity ≤ s.outLen ∧ t = (s.setCursor b m).withError .decodeOverflow) := by
  change execLLit v s = _ at h
  rw [execLLit] at h
  rcases takeBits_cases 9 s with ⟨b, m, e⟩ | ⟨b, m, hb, e⟩
  · rw [e, Flow.andThen_go] at h
    refine ⟨b, m, .inr ?_⟩
    by_cases hr : (s.setCursor b m).outLen < Config.capacity
    · rw [append_room v hr] at h
      exact .inl ⟨hr, (Host.Outcome.next.inj h).symm⟩
    · rw [append_full v (Nat.le_of_not_lt hr)] at h
      exact .inr ⟨Nat.le_of_not_lt hr, (Host.Outcome.next.inj h).symm⟩
  · rw [e] at h
    exact ⟨b, m, .inl ⟨hb, (Host.Outcome.next.inj h).symm⟩⟩

/-- Everything `L.COPY` can do. -/
theorem exec_lCopy_cases {o : BitVec 16} {n : BitVec 4} {s t : State} (h : exec (.lCopy o n) s = .next t) :
    ∃ b m, (Config.blockSize ≤ b ∧ t = (s.setCursor b m).withError .streamOverrun) ∨
      (n.toNat + 3 ≤ Config.capacity - s.outLen ∧
        t = (State.copied o.toNat (n.toNat + 3) 0 (s.setCursor b m)).setPhase .lCode) ∨
      (Config.capacity - s.outLen < n.toNat + 3 ∧
        t = (State.copied o.toNat (Config.capacity - s.outLen) 0 (s.setCursor b m)).withError .decodeOverflow) := by
  change execLCopy o n s = _ at h
  rw [execLCopy] at h
  rcases takeBits_cases 21 s with ⟨b, m, e⟩ | ⟨b, m, hb, e⟩
  · rw [e, Flow.andThen_go, copyLoop_eq, copyLength_succ, State.setCursor_outLen] at h
    refine ⟨b, m, .inr ?_⟩
    by_cases hr : n.toNat + 3 ≤ Config.capacity - s.outLen
    · rw [if_pos hr] at h
      exact .inl ⟨hr, (Host.Outcome.next.inj h).symm⟩
    · rw [if_neg hr] at h
      exact .inr ⟨Nat.lt_of_not_le hr, (Host.Outcome.next.inj h).symm⟩
  · rw [e] at h
    exact ⟨b, m, .inl ⟨hb, (Host.Outcome.next.inj h).symm⟩⟩

/-- Everything `L.END` can do. -/
theorem exec_lEnd_cases {s t : State} (h : exec .lEnd s = .next t) :
    ∃ b m, (Config.blockSize ≤ b ∧ t = (s.setCursor b m).withError .streamOverrun) ∨ t = (s.setCursor b m).setPhase .done := by
  change execLEnd s = _ at h
  rw [execLEnd] at h
  rcases takeBits_cases 17 s with ⟨b, m, e⟩ | ⟨b, m, hb, e⟩
  · rw [e, Flow.andThen_go] at h
    exact ⟨b, m, .inr (Host.Outcome.next.inj h).symm⟩
  · rw [e] at h
    exact ⟨b, m, .inl ⟨hb, (Host.Outcome.next.inj h).symm⟩⟩

/-! ### FormatP -/

/-- Everything a run code can do. -/
theorem exec_run_cases {i : Instr} {len n : Nat} {s t : State} (hi : runTable i = some (len, n))
    (h : exec i s = .next t) :
    ∃ b m, (Config.blockSize ≤ b ∧ t = (s.setCursor b m).withError .streamOverrun) ∨ t = (s.setCursor b m).runAdvanced n := by
  rw [exec_run hi, runCode] at h
  rcases takeBits_cases len s with ⟨b, m, e⟩ | ⟨b, m, hb, e⟩
  · rw [e, Flow.andThen_go, runAdvance_eq] at h
    exact ⟨b, m, .inr (Host.Outcome.next.inj h).symm⟩
  · rw [e] at h
    exact ⟨b, m, .inl ⟨hb, (Host.Outcome.next.inj h).symm⟩⟩

/-- Everything `P.END` can do. -/
theorem exec_pEnd_cases {s t : State} (h : exec .pEnd s = .next t) :
    ∃ b m, (Config.blockSize ≤ b ∧ t = (s.setCursor b m).withError .streamOverrun) ∨ t = (s.setCursor b m).fillEntered := by
  change execPEnd s = _ at h
  rw [execPEnd] at h
  rcases takeBits_cases 23 s with ⟨b, m, e⟩ | ⟨b, m, hb, e⟩
  · rw [e, Flow.andThen_go] at h
    exact ⟨b, m, .inr (Host.Outcome.next.inj h).symm⟩
  · rw [e] at h
    exact ⟨b, m, .inl ⟨hb, (Host.Outcome.next.inj h).symm⟩⟩

/-- Everything `S.EXIT` can do. -/
theorem exec_sExit_cases {s t : State} (h : exec .sExit s = .next t) :
    ∃ b m, (Config.blockSize ≤ b ∧ t = (s.setCursor b m).withError .streamOverrun) ∨ t = (s.setCursor b m).pixelClosed := by
  change execSExit s = _ at h
  rw [execSExit] at h
  rcases takeBits_cases 3 s with ⟨b, m, e⟩ | ⟨b, m, hb, e⟩
  · rw [e, Flow.andThen_go, nextPixel_eq] at h
    exact ⟨b, m, .inr (Host.Outcome.next.inj h).symm⟩
  · rw [e] at h
    exact ⟨b, m, .inl ⟨hb, (Host.Outcome.next.inj h).symm⟩⟩

/-- Everything a stamp code can do. -/
theorem exec_stamp_cases {i : Instr} {len inc : Nat} {s t : State} (hi : stampTable i = some (len, inc))
    (h : exec i s = .next t) :
    ∃ b m, (Config.blockSize ≤ b ∧ t = (s.setCursor b m).withError .streamOverrun) ∨
      (Config.capacity ≤ s.stampPos + inc + 2 ∧
        t = ((s.setCursor b m).setStampPos (s.stampPos + inc)).pixelClosed) ∨
      (s.stampPos + inc + 2 < Config.capacity ∧ t = (s.setCursor b m).stamped inc) := by
  rw [exec_stamp hi, stampCode] at h
  rcases takeBits_cases len s with ⟨b, m, e⟩ | ⟨b, m, hb, e⟩
  · rw [e, Flow.andThen_go, stampAdvance_eq, State.setCursor_stampPos] at h
    refine ⟨b, m, .inr ?_⟩
    by_cases hx : Config.capacity ≤ s.stampPos + inc + 2
    · rw [if_pos hx] at h
      exact .inl ⟨hx, (Host.Outcome.next.inj h).symm⟩
    · rw [if_neg hx] at h
      exact .inr ⟨Nat.lt_of_not_le hx, (Host.Outcome.next.inj h).symm⟩
  · rw [e] at h
    exact ⟨b, m, .inl ⟨hb, (Host.Outcome.next.inj h).symm⟩⟩

/-- Everything `P.COLOR` can do. -/
theorem exec_pColor_cases {r g b : Byte} {stamp : Bool} {s t : State} (h : exec (.pColor r g b stamp) s = .next t) :
    ∃ by' m, (Config.blockSize ≤ by' ∧ t = (s.setCursor by' m).withError .streamOverrun) ∨
      (s.outputPos + 2 < Config.capacity ∧
        ((Config.blockSize ≤ by' ∧ t = ((s.colored ⟨r, g, b⟩).setCursor by' m).withError .streamOverrun) ∨
        (stamp = true ∧ t = (((s.colored ⟨r, g, b⟩).setCursor by' m).setStampPos s.outputPos).setPhase .pStamp) ∨
        (stamp = false ∧ t = ((s.colored ⟨r, g, b⟩).setCursor by' m).pixelClosed))) := by
  change execPColor r g b stamp s = _ at h
  rw [execPColor] at h
  rcases takeBits_cases 24 s with ⟨b0, m0, e⟩ | ⟨b0, m0, hb, e⟩
  · rw [e, Flow.andThen_go] at h
    rcases storeTriple_cases s.outputPos ⟨r, g, b⟩ (s.setCursor b0 m0) with ⟨hin, e2⟩ | ⟨-, x, e2⟩
    · rw [State.setCursor_outputPos, e2, Flow.andThen_go] at h
      rcases takeBits_cases 1 ((s.colored ⟨r, g, b⟩).setCursor b0 m0) with ⟨b1, m1, e3⟩ | ⟨b1, m1, hb, e3⟩
      · change ((takeBits 1 ((s.colored ⟨r, g, b⟩).setCursor b0 m0)).andThen _).outcome = _ at h
        rw [e3, Flow.andThen_go] at h
        refine ⟨b1, m1, .inr ⟨hin, .inr ?_⟩⟩
        cases stamp
        · rw [if_neg (by simp), nextPixel_eq] at h
          exact .inr ⟨rfl, (Host.Outcome.next.inj h).symm⟩
        · exact .inl ⟨rfl, (Host.Outcome.next.inj h).symm⟩
      · change ((takeBits 1 ((s.colored ⟨r, g, b⟩).setCursor b0 m0)).andThen _).outcome = _ at h
        rw [e3] at h
        exact ⟨b1, m1, .inr ⟨hin, .inl ⟨hb, (Host.Outcome.next.inj h).symm⟩⟩⟩
    · rw [State.setCursor_outputPos, e2] at h
      cases h
  · rw [e] at h
    exact ⟨b0, m0, .inl ⟨hb, (Host.Outcome.next.inj h).symm⟩⟩

/-- The state after one pixel of the gap-fill pass. -/
def State.filled (s : State) : State :=
  let t := if s.readTriple s.fillPos = Rgb.zero then s.setPb (s.pb.writeTriple s.fillPos s.carry)
    else s.setCarry (s.readTriple s.fillPos)
  let t := t.setFillPos (s.fillPos + 3)
  if Config.capacity ≤ s.fillPos + 3 then t.setPhase .done else t

/-- Everything FILL.STEP can do. -/
theorem exec_fillStep_cases {s t : State} (h : exec .fillStep s = .next t) :
    s.fillPos + 2 < Config.capacity ∧ t = s.filled := by
  by_cases hi : s.fillPos + 2 < Config.capacity
  · rw [exec_fillStep_inside hi] at h
    exact ⟨hi, (Host.Outcome.next.inj h).symm⟩
  · rw [exec_fillStep_outside (Nat.le_of_not_lt hi)] at h
    cases h

/-- One pixel of the pass as one record update. -/
theorem State.filled_eq (s : State) :
    s.filled =
      { s with
        pb := if s.readTriple s.fillPos = Rgb.zero then s.pb.writeTriple s.fillPos s.carry else s.pb
        carry := if s.readTriple s.fillPos = Rgb.zero then s.carry else s.readTriple s.fillPos
        fillPos := s.fillPos + 3
        phase := if Config.capacity ≤ s.fillPos + 3 then .done else s.phase } := by
  unfold State.filled
  by_cases hz : s.readTriple s.fillPos = Rgb.zero
  · by_cases hf : Config.capacity ≤ s.fillPos + 3
    · simp only [if_pos hz, if_pos hf]
      rfl
    · simp only [if_pos hz, if_neg hf]
      rfl
  · by_cases hf : Config.capacity ≤ s.fillPos + 3
    · simp only [if_neg hz, if_pos hf]
      rfl
    · simp only [if_neg hz, if_neg hf]
      rfl

/-! ### START -/

/-- The state a started decode is in. -/
def State.started (s : State) (p : Phase) : State := (initDecode s).setPhase p

theorem exec_tagL (s : State) : exec .tagL s = .next (s.started .lCode) := rfl

theorem exec_tagP (s : State) : exec .tagP s = .next (s.started .pRun) := rfl

/-- Everything START does: it always has a next state. -/
theorem exec_start_eq (s : State) :
    exec .start s =
      .next (if s.phase.busy = true then s
        else if s.inLen.toNat < Config.blockSize then s.withError .truncatedInput
        else if s.readCb 0 = Config.tagL then (s.setErr 0#3).started .lCode
        else if s.readCb 0 = Config.tagP then (s.setErr 0#3).started .pRun
        else s.withError .unsupportedFormat) := by
  show execStart s = _
  unfold execStart
  by_cases hb : s.phase.busy = true
  · rw [if_pos hb, if_pos hb]
  · rw [if_neg hb, if_neg hb]
    by_cases hl : s.inLen.toNat < Config.blockSize
    · rw [if_pos hl]
      exact if_pos hl
    · rw [if_neg hl]
      refine (if_neg hl).trans ?_
      show (match decodeTagByte (s.readCb 0) with | some .tagL => _ | some .tagP => _ | _ => _) = _
      unfold decodeTagByte
      by_cases h1 : s.readCb 0 = Config.tagL
      · rw [if_pos h1, if_pos h1]
        rfl
      · rw [if_neg h1, if_neg h1]
        by_cases h2 : s.readCb 0 = Config.tagP
        · rw [if_pos h2, if_pos h2]
          rfl
        · rw [if_neg h2, if_neg h2]
          rfl

/-! ### The host -/

/-- Everything a host access can do. -/
theorem hostAccess_cases {a : HostAccess} {s t : State} (h : hostAccess a s = .next t) :
    t = s ∨ (s.phase.busy = false ∧
      ((∃ addr v, a = .writeCb addr v ∧ addr < Config.blockSize ∧ t = s.setCb (s.cb.write addr v)) ∨
        (∃ n, a = .writeInLen n ∧ t = s.setInLen n) ∨
        a = .writeCtrl 1#1 ∧ exec .start s = .next t)) := by
  cases a with
  | writeCb addr v =>
    change (if s.phase.busy = true then _ else if addr < Config.blockSize then _ else _) = _ at h
    by_cases hb : s.phase.busy = true
    · rw [if_pos hb] at h
      cases h
    · rw [if_neg hb] at h
      by_cases ha : addr < Config.blockSize
      · rw [if_pos ha] at h
        exact .inr ⟨by simpa using hb, .inl ⟨addr, v, rfl, ha, (Host.Outcome.next.inj h).symm⟩⟩
      · rw [if_neg ha] at h
        cases h
  | writeInLen n =>
    change (if s.phase.busy = true then _ else _) = _ at h
    by_cases hb : s.phase.busy = true
    · rw [if_pos hb] at h
      cases h
    · rw [if_neg hb] at h
      exact .inr ⟨by simpa using hb, .inr (.inl ⟨n, rfl, (Host.Outcome.next.inj h).symm⟩)⟩
  | writeCtrl startBit =>
    change (if startBit = 1#1 then _ else _) = _ at h
    by_cases h1 : startBit = 1#1
    · subst h1
      rw [if_pos rfl] at h
      by_cases hb : s.phase.busy = true
      · rw [exec_start_eq, if_pos hb] at h
        exact .inl (Host.Outcome.next.inj h).symm
      · exact .inr ⟨by simpa using hb, .inr (.inr ⟨rfl, h⟩)⟩
    · rw [if_neg h1] at h
      exact .inl (Host.Outcome.next.inj h).symm
  | readCtrl => exact .inl (Host.Outcome.next.inj h).symm
  | readStatus => exact .inl (Host.Outcome.next.inj h).symm
  | readErr => exact .inl (Host.Outcome.next.inj h).symm
  | readPb addr =>
    change (if s.phase = .done then (if addr < Config.capacity then _ else _) else _) = _ at h
    by_cases hd : s.phase = .done
    · rw [if_pos hd] at h
      by_cases ha : addr < Config.capacity
      · rw [if_pos ha] at h
        exact .inl (Host.Outcome.next.inj h).symm
      · rw [if_neg ha] at h
        cases h
    · rw [if_neg hd] at h
      cases h

end Sys2Proof.Machine
end

