-- ==== Sys2Proof/Tests/Slice0.lean ====
section
/-!
SUPPORT. The author's own tests: the well-formedness smoke test, a word of every row of the opcode table written out from
the encodings of 30_encoding.md R53 to R57, single steps with results from the examples of the rules and from
95_test_vectors.md, and for every obligation that has hypotheses a concrete witness that meets them.
-/

namespace Sys2Proof.Tests

open Sys2Proof.Machine

/-! ### Helpers -/

/-- Stream bits written as digits. -/
def bits (ds : List Nat) : List Bool := ds.map (· == 1)

/-- The reset state in a phase, with the cursor at a payload bit. -/
def base (ph : Phase) (p : Nat) : State := (State.reset.setPhase ph).atBit p

/-- A host that has loaded a block with a tag and its length (70_reset_and_hazards.md R162). -/
def loaded (tag : Byte) (len : BitVec 32) : State := (State.reset.setCb (Memory.write [] 0 tag)).setInLen len

/-- What the next state of an outcome holds. -/
def after {α : Type} (o : Host.Outcome State Fault Refusal) (f : State → α) : Option α := (nextState o).map f

/-! ### Well-formedness -/

/-- R54, R66: `L.COPY` with offset 0 is no instruction of the hardware. -/
theorem test_lCopy_zero_offset_is_refused : (Instr.lCopy 0#16 5#4).wellFormed = false := by decide

theorem test_lCopy_offset_one_is_well_formed : (Instr.lCopy 1#16 5#4).wellFormed = true := by decide

/-- R66: the bits that would be `L.COPY 0, 5` are `L.END`, and the four bits after it stay in the stream. -/
theorem test_decode_zero_offset : decode .lCode
    (false :: (List.replicate 16 false ++ bits [0, 1, 0, 1])) = .code .lEnd (bits [0, 1, 0, 1]) := by decide

/-! ### Decoding (30_encoding.md R53 to R57, bit by bit) -/

theorem test_decode_tagL : decode .tag (bits [0, 1, 0, 0, 1, 1, 0, 0]) = .code .tagL [] := by decide
theorem test_decode_tagP : decode .tag (bits [0, 1, 0, 1, 0, 0, 0, 0]) = .code .tagP [] := by decide
theorem test_decode_lLit : decode .lCode (bits [1, 0, 1, 0, 0, 0, 0, 0, 1]) = .code (.lLit 65#8) [] := by decide
theorem test_decode_lCopy :
    decode .lCode (bits
      [0, 0, 0, 0, 1, 0, 0, 1, 0, 0, 0, 1, 1, 0, 1, 0, 0, 0, 0, 0, 1]) =
      .code (.lCopy 4660#16 1#4) [] := by decide
theorem test_decode_lEnd :
    decode .lCode (bits
      [0, 0, 0, 0, 0, 0, 0, 0, 0, 0, 0, 0, 0, 0, 0, 0, 0]) =
      .code .lEnd [] := by decide
theorem test_decode_pRun0 : decode .pRun (bits [0, 0]) = .code .pRun0 [] := by decide
theorem test_decode_pRun1 : decode .pRun (bits [0, 1]) = .code .pRun1 [] := by decide
theorem test_decode_pRuns : decode .pRun (bits [1, 0, 1, 1]) = .code (.pRuns 3#2) [] := by decide
theorem test_decode_pRunx3 : decode .pRun (bits [1, 1, 0, 1, 0, 1]) = .code (.pRunx3 5#3) [] := by decide
theorem test_decode_pRunx4 : decode .pRun (bits [1, 1, 1, 0, 1, 0, 0, 1]) = .code (.pRunx4 9#4) [] := by decide
theorem test_decode_pRunx5 : decode .pRun (bits [1, 1, 1, 1, 0, 0, 0, 0, 0, 1]) = .code (.pRunx5 1#5) [] := by decide
theorem test_decode_pRunx6 :
    decode .pRun (bits
      [1, 1, 1, 1, 1, 0, 1, 0, 0, 0, 0, 1]) =
      .code (.pRunx6 33#6) [] := by decide
theorem test_decode_pRunx7 :
    decode .pRun (bits
      [1, 1, 1, 1, 1, 1, 0, 1, 0, 0, 0, 0, 0, 1]) =
      .code (.pRunx7 65#7) [] := by decide
theorem test_decode_pRunx8 :
    decode .pRun (bits
      [1, 1, 1, 1, 1, 1, 1, 0, 1, 0, 0, 0, 0, 0, 0, 1]) =
      .code (.pRunx8 129#8) [] := by decide
theorem test_decode_pRunx9 :
    decode .pRun (bits
      [1, 1, 1, 1, 1, 1, 1, 1, 0, 1, 0, 0, 0, 0, 0, 0, 0, 1]) =
      .code (.pRunx9 257#9) [] := by decide
theorem test_decode_pRunx10 :
    decode .pRun (bits
      [1, 1, 1, 1, 1, 1, 1, 1, 1, 0, 1, 0, 0, 0, 0, 0, 0, 0, 0, 1]) =
      .code (.pRunx10 513#10) [] := by decide
theorem test_decode_pRunx11 :
    decode .pRun (bits
      [1, 1, 1, 1, 1, 1, 1, 1, 1, 1, 0, 1, 0, 0, 0, 0, 0, 0, 0, 0, 0, 1]) =
      .code (.pRunx11 1025#11) [] := by decide
theorem test_decode_pRunx12 :
    decode .pRun (bits
      [1, 1, 1, 1, 1, 1, 1, 1, 1, 1, 1, 0, 1, 0, 0, 0, 0, 0, 0, 0, 0, 0, 0, 1]) =
      .code (.pRunx12 2049#12) [] := by decide
theorem test_decode_pRunx13 :
    decode .pRun (bits
      [1, 1, 1, 1, 1, 1, 1, 1, 1, 1, 1, 1, 0, 1, 0, 0, 0, 0, 0, 0, 0, 0, 0, 0, 0, 1]) =
      .code (.pRunx13 4097#13) [] := by decide
theorem test_decode_pRunx14 :
    decode .pRun (bits
      [1, 1, 1, 1, 1, 1, 1, 1, 1, 1, 1, 1, 1, 0, 1, 0, 0, 0, 0, 0, 0, 0, 0, 0, 0, 0, 0, 1]) =
      .code (.pRunx14 8193#14) [] := by decide
theorem test_decode_pRunx15 :
    decode .pRun (bits
      [1, 1, 1, 1, 1, 1, 1, 1, 1, 1, 1, 1, 1, 1, 0, 1, 0, 0, 0, 0, 0, 0, 0, 0, 0, 0, 0, 0, 0, 1]) =
      .code (.pRunx15 16385#15) [] := by decide
theorem test_decode_pRunx16 :
    decode .pRun (bits
      [1, 1, 1, 1, 1, 1, 1, 1, 1, 1, 1, 1, 1, 1, 1, 0, 1, 0, 0, 0, 0, 0, 0, 0, 0, 0, 0, 0, 0, 0, 0, 1]) =
      .code (.pRunx16 32769#16) [] := by decide
theorem test_decode_pRunx17 :
    decode .pRun (bits
      [1, 1, 1, 1, 1, 1, 1, 1, 1, 1, 1, 1, 1, 1, 1, 1, 0, 1, 0, 0, 0, 0, 0, 0, 0, 0, 0, 0, 0, 0, 0, 0, 0, 1]) =
      .code (.pRunx17 65537#17) [] := by decide
theorem test_decode_pRunx18 :
    decode .pRun (bits
      [1, 1, 1, 1, 1, 1, 1, 1, 1, 1, 1, 1, 1, 1, 1, 1, 1, 0, 1, 0, 0, 0, 0, 0, 0, 0, 0, 0, 0, 0, 0, 0, 0, 0, 0,
        1]) =
      .code (.pRunx18 131073#18) [] := by decide
theorem test_decode_pRunx19 :
    decode .pRun (bits
      [1, 1, 1, 1, 1, 1, 1, 1, 1, 1, 1, 1, 1, 1, 1, 1, 1, 1, 0, 1, 0, 0, 0, 0, 0, 0, 0, 0, 0, 0, 0, 0, 0, 0, 0,
        0, 0, 1]) =
      .code (.pRunx19 262145#19) [] := by decide
theorem test_decode_pRunx20 :
    decode .pRun (bits
      [1, 1, 1, 1, 1, 1, 1, 1, 1, 1, 1, 1, 1, 1, 1, 1, 1, 1, 1, 0, 1, 0, 0, 0, 0, 0, 0, 0, 0, 0, 0, 0, 0, 0, 0,
        0, 0, 0, 0, 1]) =
      .code (.pRunx20 524289#20) [] := by decide
theorem test_decode_pRunx21 :
    decode .pRun (bits
      [1, 1, 1, 1, 1, 1, 1, 1, 1, 1, 1, 1, 1, 1, 1, 1, 1, 1, 1, 1, 0, 1, 0, 0, 0, 0, 0, 0, 0, 0, 0, 0, 0, 0, 0,
        0, 0, 0, 0, 0, 0, 1]) =
      .code (.pRunx21 1048577#21) [] := by decide
theorem test_decode_pRunx22 :
    decode .pRun (bits
      [1, 1, 1, 1, 1, 1, 1, 1, 1, 1, 1, 1, 1, 1, 1, 1, 1, 1, 1, 1, 1, 0, 1, 0, 0, 0, 0, 0, 0, 0, 0, 0, 0, 0, 0,
        0, 0, 0, 0, 0, 0, 0, 0, 1]) =
      .code (.pRunx22 2097153#22) [] := by decide
theorem test_decode_pRunx23 :
    decode .pRun (bits
      [1, 1, 1, 1, 1, 1, 1, 1, 1, 1, 1, 1, 1, 1, 1, 1, 1, 1, 1, 1, 1, 1, 0, 1, 0, 0, 0, 0, 0, 0, 0, 0, 0, 0, 0,
        0, 0, 0, 0, 0, 0, 0, 0, 0, 0, 1]) =
      .code (.pRunx23 4194305#23) [] := by decide
theorem test_decode_pEnd :
    decode .pRun (bits
      [1, 1, 1, 1, 1, 1, 1, 1, 1, 1, 1, 1, 1, 1, 1, 1, 1, 1, 1, 1, 1, 1, 1]) =
      .code .pEnd [] := by decide
theorem test_decode_pColor :
    decode .pColor (bits
      [0, 0, 0, 0, 1, 0, 1, 0, 0, 0, 0, 1, 0, 1, 0, 0, 0, 0, 0, 1, 1, 1, 1, 0, 1]) =
      .code (.pColor 10#8 20#8 30#8 true) [] := by decide
theorem test_decode_sExit : decode .pStamp (bits [0, 0, 0]) = .code .sExit [] := by decide
theorem test_decode_s1914 : decode .pStamp (bits [0, 0, 1, 0]) = .code .s1914 [] := by decide
theorem test_decode_s1926 : decode .pStamp (bits [0, 0, 1, 1]) = .code .s1926 [] := by decide
theorem test_decode_s1917 : decode .pStamp (bits [0, 1]) = .code .s1917 [] := by decide
theorem test_decode_s1920 : decode .pStamp (bits [1, 0]) = .code .s1920 [] := by decide
theorem test_decode_s1923 : decode .pStamp (bits [1, 1]) = .code .s1923 [] := by decide
theorem test_decode_start : decode .command [] = .code .start [] := by decide
theorem test_decode_fillStep : decode .fill [] = .code .fillStep [] := by decide

/-- R53, R65: a lower-case letter is an illegal tag. -/
theorem test_decode_illegal_tag : decode .tag (bits [0, 1, 1, 0, 1, 1, 0, 0]) = .illegalTag 0x6C#8 := by decide

/-- R95: 22 ones are not yet a code. -/
theorem test_decode_cut_sentinel : decode .pRun (List.replicate 22 true) = .needsMoreBits := by decide

/-- R54: the bits of the stream `L.COPY 0x1234, 1` (95_test_vectors.md L3), one short. -/
theorem test_decode_cut_copy : decode .lCode
    (bits [0, 0, 0, 0, 1, 0, 0, 1, 0, 0, 0, 1, 1, 0, 1, 0, 0, 0, 0, 0]) = .needsMoreBits := by decide

/-! ### The host's hooks -/

theorem test_table_word_lLit : decodeTableWord 9 0x141 = some (.lLit 0x41#8) := by decide
/-- The same code as two bytes, the first the low one. -/
theorem test_table_word_bytes : decodeTableWord 16 0x80A0 = some (.lLit 0x41#8) := by decide

theorem test_table_word_pRunx5 : decodeTableWord 10 0x3C1 = some (.pRunx5 1#5) := by decide

/-- The tag's word placed for the next step: START runs and selects FormatL (R127). -/
theorem test_fetch_tagL : after (step (State.reset.withFetchWord 8 0x4C)) (·.phase) = some .lCode := by decide

/-- `L.LIT 0x41` placed for the next step (R82). -/
theorem test_fetch_lLit :
    after (step (State.reset.withFetchWord 9 0x141)) (fun t => (t.readPb 0, t.outLen, t.curByte, t.curMask)) =
      some (0x41#8, 1, 3, 0x40#8) := by decide

/-! ### The BitCursor -/

/-- R71: `CB[2] = 0xA0`: three calls return 1, 0, 1 and leave the cursor at `(2, 0x10)`. -/
theorem test_readBits_three :
    readBits 3 ((base .lCode 0).setCb [(2, 0xA0#8)]) = .go 5 (((base .lCode 0).setCb [(2, 0xA0#8)]).setCursor 2 0x10#8) := by
  decide

/-- R72: `readBits(8)` at `(2, 0x10)` with `CB[2..3] = A0 D0` is 6 and leaves `(3, 0x10)`. -/
theorem test_readBits_straddles :
    readBits 8 ((base .lCode 3).setCb [(2, 0xA0#8), (3, 0xD0#8)]) =
      .go 6 (((base .lCode 3).setCb [(2, 0xA0#8), (3, 0xD0#8)]).setCursor 3 0x10#8) := by decide

/-! ### FormatL -/

/-- R82: at `outLen = 0`, `L.LIT 0x41` writes `PB[0]` and `LUT[1]`. -/
theorem test_lLit :
    after (exec (.lLit 0x41#8) (base .lCode 0)) (fun t => (t.readPb 0, t.readLut 1, t.readLut 0, t.outLen)) =
      some (0x41#8, 0x41#8, 0x00#8, 1) := by decide

/-- R88 (f): after the literals `41 42`, `L.COPY 1, 0` appends `41 42 41`. -/
theorem test_lCopy :
    after (exec (.lCopy 1#16 0#4)
      ((((base .lCode 18).setPb [(0, 0x41#8), (1, 0x42#8)]).setLut [(1, 0x41#8), (2, 0x42#8)]).setOutLen 2))
      (fun t => (t.pb, t.lut, t.outLen)) =
      some ([(0, 0x41#8), (1, 0x42#8), (2, 0x41#8), (3, 0x42#8), (4, 0x41#8)],
        [(1, 0x41#8), (2, 0x42#8), (3, 0x41#8), (4, 0x42#8), (5, 0x41#8)], 5) := by decide

/-- 95_test_vectors.md L4: `L.COPY 65535, 1` after `41 42 43` wraps and appends `00 00 41 42`. -/
theorem test_lCopy_wraps :
    after (exec (.lCopy 65535#16 1#4)
      ((((base .lCode 27).setPb [(0, 0x41#8), (1, 0x42#8), (2, 0x43#8)]).setLut
        [(1, 0x41#8), (2, 0x42#8), (3, 0x43#8)]).setOutLen 3))
      (fun t => ((t.readPb 3, t.readPb 4, t.readPb 5, t.readPb 6), t.outLen)) =
      some ((0x00#8, 0x00#8, 0x41#8, 0x42#8), 7) := by decide

/-- R84: an immediate terminator leaves `cur = (4, 0x40)`. -/
theorem test_lEnd :
    after (exec .lEnd (base .lCode 0)) (fun t => (t.curByte, t.curMask, t.phase, t.outLen)) =
      some (4, 0x40#8, .done, 0) := by decide

/-! ### FormatP, run codes -/

/-- R91. -/
theorem test_pRun0 : after (exec .pRun0 ((base .pRun 0).setOutputPos 6)) (fun t => (t.outputPos, t.phase)) =
    some (6, .pColor) := by decide

/-- R92. -/
theorem test_pRun1 : after (exec .pRun1 ((base .pRun 0).setOutputPos 6)) (fun t => (t.outputPos, t.phase)) =
    some (9, .pColor) := by decide

/-- R92: on the last pixel the main loop stops. -/
theorem test_pRun1_last : after (exec .pRun1 ((base .pRun 0).setOutputPos 921597)) (fun t => (t.outputPos, t.phase)) =
    some (921600, .pFill) := by decide

/-- R93. -/
theorem test_pRuns : after (exec (.pRuns 3#2) (base .pRun 0)) (fun t => (t.outputPos, t.phase)) =
    some (15, .pColor) := by decide

/-- R55's run values for payload 0, three bytes a pixel: the first half of the ladder. -/
theorem test_pRunx_small :
    [Instr.pRunx3 0#3, .pRunx4 0#4, .pRunx5 0#5, .pRunx6 0#6, .pRunx7 0#7, .pRunx8 0#8, .pRunx9 0#9, .pRunx10 0#10,
      .pRunx11 0#11, .pRunx12 0#12, .pRunx13 0#13].map (fun i => after (exec i (base .pRun 0)) (·.outputPos / 3)) =
    [some 6, some 14, some 30, some 62, some 126, some 254, some 510, some 1022, some 2046, some 4094, some 8190] := by
  decide

/-- The second half. -/
theorem test_pRunx_large :
    [Instr.pRunx14 0#14, .pRunx15 0#15, .pRunx16 0#16, .pRunx17 0#17, .pRunx18 0#18, .pRunx19 0#19, .pRunx20 0#20,
      .pRunx21 0#21, .pRunx22 0#22, .pRunx23 0#23].map (fun i => after (exec i (base .pRun 0)) (·.outputPos / 3)) =
    [some 16382, some 32766, some 65534, some 131070, some 262142, some 524286, some 1048574, some 2097150,
      some 4194302, some 8388606] := by decide

/-- 95_test_vectors.md P8: the largest run. -/
theorem test_pRunx23_largest :
    after (exec (.pRunx23 0x7FFFFF#23) (base .pRun 0)) (fun t => (t.outputPos, t.curByte, t.curMask, t.phase)) =
      some (50331639, 7, 0x02#8, .pFill) := by decide

/-- R95: the sentinel leaves `cur = (4, 0x01)`. -/
theorem test_pEnd :
    after (exec .pEnd (base .pRun 0)) (fun t => (t.curByte, t.curMask, t.outputPos, t.phase)) =
      some (4, 0x01#8, 0, .pFill) := by decide

/-! ### FormatP, colours and stamps -/

/-- R101's example. -/
theorem test_pColor :
    after (exec (.pColor 10#8 20#8 30#8 false) (base .pColor 2)) (fun t => (t.pb, t.col, t.outputPos, t.phase)) =
      some ([(0, 10#8), (1, 20#8), (2, 30#8)], { r := 10#8, g := 20#8, b := 30#8 }, 3, .pRun) := by decide

/-- 95_test_vectors.md P15: the flag overruns, the colour is written. -/
theorem test_pColor_flag_overruns :
    after (exec (.pColor 1#8 2#8 3#8 false) ((base .pColor 7372760).setOutputPos 819195))
      (fun t => (t.pb, t.err, t.curByte, t.curMask, t.outputPos)) =
      some ([(819195, 1#8), (819196, 2#8), (819197, 3#8)], 3#3, 921600, 0x80#8, 819195) := by decide

/-- R104's example. -/
theorem test_sExit : after (exec .sExit (base .pStamp 0)) (fun t => (t.outputPos, t.phase)) = some (3, .pRun) := by decide

/-- The examples of R105 to R109: from `stampPos = 0` with `col = (1, 2, 3)`. -/
theorem test_stamps :
    [Instr.s1914, .s1926, .s1917, .s1920, .s1923].map (fun i =>
      after (exec i ((base .pStamp 0).setCol { r := 1#8, g := 2#8, b := 3#8 })) (fun t => (t.stampPos, t.pb, t.phase))) =
    [1914, 1926, 1917, 1920, 1923].map (fun n => some (n, [(n, 1#8), (n + 1, 2#8), (n + 2, 3#8)], .pStamp)) := by decide

/-- R108: from the last row the guard closes the pixel record and nothing is written (95_test_vectors.md P6). -/
theorem test_s1920_guard :
    after (exec .s1920 (((base .pStamp 0).setOutputPos 919680).setStampPos 919680))
      (fun t => (t.stampPos, t.outputPos, t.pb, t.phase)) = some (921600, 919683, [], .pRun) := by decide

/-! ### START and the gap-fill pass -/

/-- R125's example. -/
theorem test_start :
    after (exec .start ((loaded 0x4C#8 921600#32).setErr 4#3)) (fun t => (t.phase, t.err, t.curByte, t.curMask, t.outLen)) =
      some (.lCode, 0#3, 2, 0x80#8, 0) := by decide

/-- R126: a short file with a bad tag is TruncatedInput. -/
theorem test_start_short :
    after (exec .start (loaded 0x41#8 921599#32)) (fun t => (t.phase, t.err)) = some (.error, 2#3) := by decide

/-- R127. -/
theorem test_tagP : after (exec .tagP (loaded 0x50#8 921600#32)) (·.phase) = some .pRun := by decide

/-- R121: a gap takes the carry. -/
theorem test_fillStep_gap :
    after (exec .fillStep (((base .pFill 0).setFillPos 3).setCarry { r := 10#8, g := 20#8, b := 30#8 }))
      (fun t => (t.pb, t.fillPos, t.phase)) = some ([(3, 10#8), (4, 20#8), (5, 30#8)], 6, .pFill) := by decide

/-- R121: `(0, 0, 1)` is a colour; after the last pixel the decode is done (R132). -/
theorem test_fillStep_color :
    after (exec .fillStep (((base .pFill 0).setFillPos 921597).setPb [(921599, 1#8)]))
      (fun t => (t.pb, t.carry, t.fillPos, t.phase)) =
      some ([(921599, 1#8)], { r := 0#8, g := 0#8, b := 1#8 }, 921600, .done) := by decide

/-! ### Witnesses: for every obligation with hypotheses, a state and operands that meet them together, clause by clause

The obligations not named here have no hypotheses. -/

theorem decided {α : Type} {o : Host.Outcome State Fault Refusal} {f : State → α} {x : α} (h : after o f = some x) :
    ∃ t, o = .next t ∧ f t = x := by
  cases o with
  | next t => exact ⟨t, rfl, Option.some.inj h⟩
  | fault f => cases h
  | refused r => cases h

theorem witness_DecodeOfEncodeIsTheInstruction :
    (Instr.lCopy 1#16 0#4).wellFormed = true ∧ (Instr.pRunx23 0x7FFFFF#23).wellFormed = true ∧
      Instr.fillStep.wellFormed = true := by decide

theorem witness_EveryBitStringBeginsWithOneCode :
    DecodeSite.lCode ∈ [DecodeSite.lCode, .pRun, .pColor, .pStamp] ∧
      DecodeSite.pStamp ∈ [DecodeSite.lCode, .pRun, .pColor, .pStamp] := by decide

theorem witness_EveryRunLengthHasExactlyOneCode :
    16777213 ≤ 16777213 ∧ runTable (.pRunx23 0x7FFFFF#23) = some (46, 16777213) := by decide

theorem witness_ReadBitTakesTheBitAtTheCursor :
    ((base .lCode 7372783).CursorAt 7372783 ∧ 7372783 < Config.payloadBits) ∧
      (base .lCode 7372784).CursorAt 7372784 ∧ 7372784 = Config.payloadBits := by decide

theorem witness_ReadBitsMakesTheFirstBitMostSignificant :
    (base .lCode 7372760).CursorAt 7372760 ∧ 7372760 ≤ Config.payloadBits ∧ 1 ≤ 24 ∧
      7372760 + 24 ≤ Config.payloadBits ∧ (base .lCode 7372784).CursorAt 7372784 ∧ 7372784 ≤ Config.payloadBits ∧
      Config.payloadBits < 7372784 + 1 := by decide

theorem witness_ReadBitsOfASumIsTwoReads : 1 ≤ 1 ∧ 1 ≤ 23 ∧ 1 + 23 ≤ 24 := by decide

/-- A state whose coming slot the host leaves empty. -/
def idleSlot (ph : Phase) (p : Nat) : State := (base ph p).setHostSlots [none]

theorem witness_StepRunsTheCodeAtTheCursor :
    (base .lCode 0).HostPasses (base .lCode 0) ∧ (base .lCode 0).CursorAt 0 ∧ (base .lCode 0).phase.site = some .lCode ∧
      decode .lCode ((base .lCode 0).payloadFrom 0) = .code .lEnd (List.replicate 29 false) :=
  ⟨.inl ⟨rfl, rfl⟩, by decide, rfl, by decide⟩

theorem witness_StepRunsTheCodeAtTheCursor_slot :
    (idleSlot .pStamp 7372781).HostPasses ((idleSlot .pStamp 7372781).setHostSlots []) ∧
      (idleSlot .pStamp 7372781).CursorAt 7372781 ∧ (idleSlot .pStamp 7372781).phase.site = some .pStamp ∧
      decode .pStamp ((idleSlot .pStamp 7372781).payloadFrom 7372781) = .code .sExit [] :=
  ⟨.inr ⟨[], rfl, rfl⟩, by decide, rfl, by decide⟩

theorem witness_StepWithoutACode :
    (base .pFill 0).HostPasses (base .pFill 0) ∧ (base .pFill 0).phase = .pFill ∧ State.reset.HostPasses State.reset ∧
      State.reset.phase = .idle ∧
      (State.reset.setHostSlots [some (.writeCtrl 1#1)]).hostSlots = some (.writeCtrl 1#1) :: [] :=
  ⟨.inl ⟨rfl, rfl⟩, rfl, .inl ⟨rfl, rfl⟩, rfl, rfl⟩

theorem witness_CutCodeRaisesStreamOverrun :
    (base .lCode 7372783).HostPasses (base .lCode 7372783) ∧ (base .lCode 7372783).CursorAt 7372783 ∧
      7372783 ≤ Config.payloadBits ∧ (base .lCode 7372783).phase.site = some .lCode ∧
      decode .lCode ((base .lCode 7372783).payloadFrom 7372783) = .needsMoreBits :=
  ⟨.inl ⟨rfl, rfl⟩, by decide, by decide, rfl, by decide⟩

theorem witness_CutCodeRaisesStreamOverrun_flag :
    let s := (base .pColor 7372760).setOutputPos 921597
    s.HostPasses s ∧ s.CursorAt 7372760 ∧ s.phase.site = some .pColor ∧
      decode .pColor (s.payloadFrom 7372760) = .needsMoreBits ∧ s.phase = .pColor ∧ 7372760 + 24 = Config.payloadBits ∧
      s.outputPos + 2 < Config.capacity :=
  ⟨.inl ⟨rfl, rfl⟩, by decide, rfl, by decide, rfl, by decide, by decide⟩

theorem witness_CursorMovesForwardByTheCodeLength :
    ((base .lCode 7372767).CursorAt 7372767 ∧ (∃ t, exec .lEnd (base .lCode 7372767) = .next t) ∧
      isStreamCode .lEnd = true ∧ 7372767 + codeLength .lEnd ≤ Config.payloadBits) ∧
    ((base .lCode 7372768).CursorAt 7372768 ∧ (∃ t, exec .lEnd (base .lCode 7372768) = .next t) ∧
      Config.payloadBits < 7372768 + codeLength .lEnd) ∧
    ((base .pFill 0).CursorAt 0 ∧ ∃ t, exec .fillStep (base .pFill 0) = .next t) :=
  ⟨⟨by decide, ⟨_, rfl⟩, rfl, by decide⟩, ⟨by decide, ⟨_, rfl⟩, by decide⟩, by decide, ⟨_, rfl⟩⟩

theorem witness_RaiseRecordsTheErrorAndHalts :
    (base .error 0).phase = .error ∧ (base .error 0).HostPasses (base .error 0) := ⟨rfl, .inl ⟨rfl, rfl⟩⟩

/-- One for each cause: START's clearing, 1, 2, 3 and 4. -/
theorem witness_ErrorsHaveTheirOwnCauses :
    (∃ t, exec .start ((loaded 0x4C#8 921600#32).setErr 4#3) = .next t ∧ t.err = 0#3) ∧
    (∃ t, exec .start (loaded 0x6C#8 921600#32) = .next t ∧ t.err = 1#3) ∧
    (∃ t, exec .start (loaded 0x4C#8 921599#32) = .next t ∧ t.err = 2#3) ∧
    (∃ t, exec .s1917 (base .pStamp 7372783) = .next t ∧ t.err = 3#3) ∧
    (∃ t, exec (.lLit 0#8) ((base .lCode 0).setOutLen 921600) = .next t ∧ t.err = 4#3) :=
  ⟨decided (by decide), decided (by decide), decided (by decide), decided (by decide), decided (by decide)⟩

theorem witness_DecodeOverflowOnlyPastAFullBuffer :
    (appendCount (.lLit 0#8) = some 1 ∧ ((base .lCode 7372775).setOutLen 921600).CursorAt 7372775 ∧
      7372775 + codeLength (.lLit 0#8) ≤ Config.payloadBits ∧ 921600 < 921600 + 1) ∧
    (appendCount (.lCopy 1#16 15#4) = some 18 ∧ ((base .lCode 0).setOutLen 921583).CursorAt 0 ∧
      0 + codeLength (.lCopy 1#16 15#4) ≤ Config.payloadBits ∧ 921600 < 921583 + 18 ∧ 921583 + 16 < 921600) ∧
    (appendCount (.lCopy 1#16 15#4) = some 18 ∧ ((base .lCode 0).setOutLen 921582).CursorAt 0 ∧ 921582 + 18 ≤ 921600) ∧
    (appendCount .fillStep = none ∧ ∃ t, exec .fillStep ((base .pFill 0).setErr 4#3) = .next t ∧ t.err = 4#3) :=
  ⟨⟨rfl, by decide, by decide, by decide⟩, ⟨rfl, by decide, by decide, by decide, by decide⟩,
    ⟨rfl, by decide, by decide⟩, rfl, decided (by decide)⟩

theorem witness_StartInitialisesTheDecode :
    ((loaded 0x4C#8 921600#32).phase.busy = false ∧ 921600 ≤ (loaded 0x4C#8 921600#32).inLen.toNat ∧
      (loaded 0x4C#8 921600#32).readCb 0 = 0x4C#8) ∧
    (loaded 0x50#8 921600#32).phase.busy = false ∧ 921600 ≤ (loaded 0x50#8 921600#32).inLen.toNat ∧
      (loaded 0x50#8 921600#32).readCb 0 = 0x50#8 := by decide

theorem witness_ShortInputRaisesTruncatedInput :
    (loaded 0x4C#8 921599#32).phase.busy = false ∧ (loaded 0x4C#8 921599#32).inLen.toNat < 921600 := by decide

theorem witness_UnknownTagRaisesUnsupportedFormat :
    (loaded 0x4D#8 921600#32).phase.busy = false ∧ 921600 ≤ (loaded 0x4D#8 921600#32).inLen.toNat ∧
      (loaded 0x4D#8 921600#32).readCb 0 ≠ 0x4C#8 ∧ (loaded 0x4D#8 921600#32).readCb 0 ≠ 0x50#8 := by decide

theorem witness_ControlStartIsIgnoredWhileBusy :
    (base .pFill 0).phase.busy = true ∧ (base .error 0).phase.busy = false := by decide

theorem witness_TagsSelectTheirFormat : Instr.tagL = .tagL ∧ Instr.tagP = .tagP := ⟨rfl, rfl⟩

theorem witness_HostAccessesKeepTheContract :
    ((base .idle 0).phase.busy = false ∧ 921599 < 921600) ∧ (base .lCode 0).phase.busy = true ∧
      (base .done 0).phase = .done ∧ (base .error 0).phase ≠ .done := by decide

theorem witness_LiteralIsAppended :
    let s := base .lCode 7372775
    let short := base .lCode 7372776
    s.CursorAt 7372775 ∧ 7372775 + 9 ≤ Config.payloadBits ∧ (s.setOutLen 921599).outLen < 921600 ∧
      (s.setOutLen 921600).outLen = 921600 ∧ short.CursorAt 7372776 ∧ Config.payloadBits < 7372776 + 9 := by decide

theorem witness_CopyExpandsTheTable :
    let s := base .lCode 7372763
    let short := base .lCode 7372764
    (1#16 : BitVec 16) ≠ 0#16 ∧ s.CursorAt 7372763 ∧ 7372763 + 21 ≤ Config.payloadBits ∧
      (s.setOutLen 921582).outLen + (15#4).toNat + 3 ≤ 921600 ∧
      (s.setOutLen 921583).outLen ≤ 921600 ∧ 921600 < (s.setOutLen 921583).outLen + (15#4).toNat + 3 ∧
      short.CursorAt 7372764 ∧ Config.payloadBits < 7372764 + 21 := by decide

theorem witness_TerminatorEndsTheDecode :
    (base .lCode 7372767).CursorAt 7372767 ∧ 7372767 + 17 ≤ Config.payloadBits ∧
      (base .lCode 7372768).CursorAt 7372768 ∧ Config.payloadBits < 7372768 + 17 := by decide

theorem witness_FormatLCodesLeaveTheRestAlone :
    (appendCount (.lLit 1#8) = some 1 ∧ ∃ t, exec (.lLit 1#8) (base .lCode 0) = .next t) ∧
    (appendCount (.lCopy 1#16 0#4) = some 3 ∧ ∃ t, exec (.lCopy 1#16 0#4) (base .lCode 0) = .next t) ∧
    (appendCount .lEnd = some 0 ∧ ∃ t, exec .lEnd (base .lCode 0) = .next t) :=
  ⟨⟨rfl, _, rfl⟩, ⟨rfl, _, rfl⟩, rfl, _, rfl⟩

/-- A legal state of a fresh decode in each phase. -/
theorem legal_base (ph : Phase) (h : ph ≠ .error) : (base ph 0).Legal := by
  cases ph <;> first | exact absurd rfl h | constructor <;> decide

theorem tableHolds_base : (base .lCode 0).TableHolds :=
  ⟨fun m h1 h2 => absurd (Nat.le_trans h1 h2) (by decide), fun _ _ _ => rfl, fun _ _ => rfl⟩

theorem witness_StepKeepsTheTableInvariant :
    let s := (base .lCode 0).setCb [(2, 0xA0#8), (3, 0x80#8)]
    s.Legal ∧ (s.phase = .lCode → s.TableHolds) ∧ ∃ t, step s = .next t ∧ t.phase = .lCode :=
  ⟨by constructor <;> decide, fun _ => ⟨tableHolds_base.1, tableHolds_base.2, tableHolds_base.3⟩, decided (by decide)⟩

theorem witness_RunCodesAdvanceTheOutputPosition :
    runTable (.pRunx3 7#3) = some (6, 13) ∧ (base .pRun 7372778).CursorAt 7372778 ∧ 7372778 + 6 ≤ Config.payloadBits ∧
      ((base .pRun 0).setOutputPos 921558).outputPos + 3 * 13 < 921600 ∧
      921600 ≤ ((base .pRun 0).setOutputPos 921561).outputPos + 3 * 13 ∧ (base .pRun 7372779).CursorAt 7372779 ∧
      Config.payloadBits < 7372779 + 6 := by decide

theorem witness_SentinelStartsTheGapFill :
    (base .pRun 7372761).CursorAt 7372761 ∧ 7372761 + 23 ≤ Config.payloadBits ∧
      (base .pRun 7372762).CursorAt 7372762 ∧ Config.payloadBits < 7372762 + 23 := by decide

theorem witness_ColorIsWrittenAndRecorded :
    let at' p := (base .pColor p).setOutputPos 921597
    (at' 7372759).CursorAt 7372759 ∧ (at' 7372759).outputPos + 2 < 921600 ∧ 7372759 + 25 ≤ Config.payloadBits ∧
      (at' 7372760).CursorAt 7372760 ∧ 7372760 + 24 = Config.payloadBits ∧ (at' 7372761).CursorAt 7372761 ∧
      Config.payloadBits < 7372761 + 24 := by decide

theorem witness_StampExitClosesThePixel :
    (base .pStamp 7372781).CursorAt 7372781 ∧ 7372781 + 3 ≤ Config.payloadBits ∧
      (base .pStamp 7372782).CursorAt 7372782 ∧ Config.payloadBits < 7372782 + 3 := by decide

theorem witness_StampCodesReplicateTheColor :
    stampTable .s1920 = some (2, 1920) ∧ (base .pStamp 7372782).CursorAt 7372782 ∧ 7372782 + 2 ≤ Config.payloadBits ∧
      ((base .pStamp 0).setStampPos 919677).stampPos + 1920 + 2 < 921600 ∧
      921600 ≤ ((base .pStamp 0).setStampPos 919680).stampPos + 1920 + 2 ∧ (base .pStamp 7372783).CursorAt 7372783 ∧
      Config.payloadBits < 7372783 + 2 := by decide

theorem witness_RunCodesAndExitsStoreNothing :
    (runTable .pRun1 = some (2, 1) ∧ ∃ t, exec .pRun1 (base .pRun 0) = .next t ∧ t.phase = .pColor) ∧
    (∃ t, exec .pEnd (base .pRun 0) = .next t ∧ t.phase = .pFill) ∧
    (∃ t, exec .sExit (base .pStamp 0) = .next t ∧ t.phase = .pRun) :=
  ⟨⟨rfl, decided (by decide)⟩, decided (by decide), decided (by decide)⟩

theorem witness_ColorLeavesTheRestAlone :
    (∃ t, exec (.pColor 1#8 2#8 3#8 true) (base .pColor 0) = .next t ∧ t.phase = .pStamp) ∧
      ∃ t, exec (.pColor 1#8 2#8 3#8 false) (base .pColor 0) = .next t ∧ t.phase = .pRun :=
  ⟨decided (by decide), decided (by decide)⟩

theorem witness_StampCodesLeaveTheRestAlone :
    stampTable .s1914 = some (4, 1914) ∧ (∃ t, exec .s1914 (base .pStamp 0) = .next t ∧ t.phase = .pStamp) ∧
      ∃ t, exec .s1914 ((base .pStamp 0).setStampPos 921597) = .next t ∧ t.phase = .pRun :=
  ⟨rfl, decided (by decide), decided (by decide)⟩

theorem witness_FillStepFillsAGapOrCarriesAColor :
    let s := (base .pFill 0).setFillPos 921597
    let s' := s.setPb [(921599, 1#8)]
    s.phase = .pFill ∧ s.fillPos + 2 < 921600 ∧ s.readTriple s.fillPos = Rgb.zero ∧
      s'.readTriple s'.fillPos ≠ Rgb.zero := by decide

theorem witness_FillStepLeavesTheRestAlone :
    ∃ t, exec .fillStep ((base .pFill 0).setPb [(2, 1#8)]) = .next t ∧ t.fillPos = 3 := decided (by decide)

theorem witness_GapFillCarriesTheLastColorForward :
    let s := (base .pFill 0).setPb [(5, 7#8)]
    s.AtFillStart ∧ s.hostSlots = [] ∧ s.readTriple (3 * 1) ≠ Rgb.zero ∧ s.readTriple (3 * 0) = Rgb.zero ∧
      s.readTriple (3 * 307199) = Rgb.zero := ⟨⟨rfl, rfl, rfl⟩, rfl, by decide, by decide, by decide⟩

theorem witness_StepKeepsTheStateLegal : (base .pRun 0).Legal ∧ ∃ t, step (base .pRun 0) = .next t ∧ t.phase = .pColor :=
  ⟨legal_base _ (by decide), decided (by decide)⟩

theorem witness_LegalStateAlwaysSteps : (base .pStamp 0).Legal ∧ (base .pStamp 0).HostPasses (base .pStamp 0) :=
  ⟨legal_base _ (by decide), .inl ⟨rfl, rfl⟩⟩

theorem witness_CoreNeverWritesItsInputs : ∃ t, exec .start (loaded 0x50#8 921600#32) = .next t ∧ t.phase = .pRun :=
  decided (by decide)

theorem witness_FormatPIgnoresTheTable :
    Instr.s1917.site ∈ [DecodeSite.pRun, .pColor, .pStamp, .fill] ∧
      Instr.fillStep.site ∈ [DecodeSite.pRun, .pColor, .pStamp, .fill] := by decide

theorem witness_OnlyTheLegalPhaseTransitions :
    (RunsIn .start (base .error 0).phase ∧ ∃ t, exec .start (base .error 0) = .next t ∧ t.phase = .error) ∧
      ∃ t, step (base .pColor 0) = .next t ∧ t.phase = .pRun :=
  ⟨⟨rfl, decided (by decide)⟩, decided (by decide)⟩

theorem witness_EachStepBringsTheEndNearer :
    (base .pColor 0).Legal ∧ (base .pColor 0).HostPasses (base .pColor 0) ∧ (base .pColor 0).phase.busy = true ∧
      ∃ t, step (base .pColor 0) = .next t ∧ t.phase = .pRun :=
  ⟨legal_base _ (by decide), .inl ⟨rfl, rfl⟩, rfl, decided (by decide)⟩

theorem witness_EveryDecodeEnds :
    (base .pRun 0).Legal ∧ (base .pRun 0).phase.busy = true ∧ (base .pRun 0).hostSlots = [] :=
  ⟨legal_base _ (by decide), rfl, rfl⟩

/-- Two cores with different histories and a different reserved byte. -/
theorem witness_OutcomeDependsOnTheInputAlone :
    let s1 := ((loaded 0x4C#8 921600#32).setHostSlots [some (.writeCtrl 1#1)])
    let s2 := ((((loaded 0x4C#8 921600#32).setCb [(0, 0x4C#8), (1, 0xFF#8)]).setLut [(5, 9#8)]).setPhase .done).setHostSlots
      [some (.writeCtrl 1#1)]
    s1.Legal ∧ s2.Legal ∧ s1.phase.busy = false ∧ s2.phase.busy = false ∧ s1.inLen = s2.inLen ∧
      (∀ a, a ≠ 1 → s1.readCb a = s2.readCb a) ∧ s1.hostSlots = [some (.writeCtrl 1#1)] ∧
      s2.hostSlots = [some (.writeCtrl 1#1)] := by
  refine ⟨by constructor <;> decide, by constructor <;> decide, rfl, rfl, rfl, fun a ha => ?_, rfl, rfl⟩
  show (if 0 = a then 0x4C#8 else 0#8) = if 0 = a then 0x4C#8 else if 1 = a then 0xFF#8 else 0#8
  split
  · rfl
  · rw [if_neg (Ne.symm ha)]

/-- The pass half way: one gap behind it filled, one colour carried. -/
theorem witness_StepKeepsThePassInvariant :
    let s0 := (base .pFill 0).setPb [(2, 7#8)]
    let s := ((s0.setFillPos 6).setCarry { r := 0#8, g := 0#8, b := 7#8 }).setPb [(2, 7#8), (5, 7#8)]
    s0.AtFillStart ∧ s.phase = .pFill ∧ s.PassHolds s0 ∧ ∃ t, step s = .next t ∧ t.fillPos = 9 := by
  refine ⟨⟨rfl, rfl, rfl⟩, rfl, ⟨by decide, by decide, fun q hq => ?_, fun a ha => ?_, ?_⟩, decided (by decide)⟩
  · change 3 * q < 6 at hq
    obtain rfl | rfl : q = 0 ∨ q = 1 := by omega
    · exact ⟨fun _ => by decide, fun h => absurd h (by decide)⟩
    · exact ⟨fun h => absurd (by decide) h, fun _ => .inl ⟨0, by decide, by decide, by decide, fun m h1 h2 => by omega⟩⟩
  · change 6 ≤ a at ha
    show (if 2 = a then 7#8 else if 5 = a then 7#8 else 0#8) = if 2 = a then 7#8 else 0#8
    rw [if_neg (by omega), if_neg (by omega), if_neg (by omega)]
  · exact .inl ⟨0, by decide, by decide, by decide, fun m h1 h2 => by
      change m < 2 at h2
      obtain rfl : m = 1 := by omega
      decide⟩

/-- Two cores in the stamp loop with a different reserved byte and different leftovers. -/
theorem witness_StepKeepsTheAgreement :
    let s1 := (base .pStamp 0).setCb [(0, 0x50#8)]
    let s2 := (((base .pStamp 0).setCb [(0, 0x50#8), (1, 0xFF#8)]).setLut [(5, 9#8)]).setFillPos 3
    s1.Legal ∧ s2.Legal ∧ s1.Agrees s2 ∧ ∃ t, step s1 = .next t ∧ t.phase = .pRun := by
  refine ⟨by constructor <;> decide, by constructor <;> decide, ⟨rfl, rfl, rfl, fun a ha => ?_, rfl, fun _ => ⟨rfl, rfl⟩,
    fun h => ?_, fun _ => rfl, fun _ => ⟨rfl, rfl⟩, fun h => ?_, fun _ _ => rfl⟩, decided (by decide)⟩
  · show (if 0 = a then 0x50#8 else 0#8) = if 0 = a then 0x50#8 else if 1 = a then 0xFF#8 else 0#8
    split
    · rfl
    · rw [if_neg (Ne.symm ha)]
  · cases h
  · cases h

end Sys2Proof.Tests
end

section
/-!
PROOF. The decoder reads no bit behind the code it answers, so the zeros that the fetch puts behind the end of the block
decide nothing (R61, assumption 7), and a step in a stream phase runs the code the payload itself begins with.
-/

namespace Sys2Proof

/-! ### The decoder reads no bit behind the code -/

/-- A decoder whose answer stays the same code, followed by `more` too, when `more` follows the bits. -/
def ReadsOnlyTheCode (decoder : List Bool → DecodeResult) : Prop :=
  ∀ {bits rest : List Bool} {i : Instr} (more : List Bool),
    decoder bits = .code i rest → decoder (bits ++ more) = .code i (rest ++ more)

theorem takeField_append_of_some {n : Nat} {bits rest : List Bool} {v : BitVec n} (more : List Bool)
    (h : takeField n bits = some (v, rest)) : takeField n (bits ++ more) = some (v, rest ++ more) := by
  rw [takeField_some h, List.append_assoc, takeField_append]

theorem withField_readsOnlyTheCode (n : Nat) (f : BitVec n → Instr) : ReadsOnlyTheCode (withField n f) := by
  intro bits rest i more h
  obtain ⟨v, rest', rfl, hcode⟩ | ⟨-, hshort⟩ := withField_cases n f bits
  · obtain ⟨rfl, rfl⟩ := DecodeResult.code.inj (hcode.symm.trans h)
    rw [List.append_assoc, withField_append]
  · rw [hshort] at h
    cases h

theorem decodeTag_readsOnlyTheCode : ReadsOnlyTheCode decodeTag := by
  intro bits rest i more h
  unfold decodeTag at h ⊢
  cases hb : takeField 8 bits with
  | none => simp [hb] at h
  | some field =>
    simp only [hb] at h
    simp only [takeField_append_of_some more hb]
    cases ht : decodeTagByte field.1 with
    | none => simp [ht] at h
    | some tag => simpa [ht] using h

theorem decodeLCode_readsOnlyTheCode : ReadsOnlyTheCode decodeLCode := by
  intro bits rest i more h
  match bits with
  | [] => cases h
  | true :: bits => exact withField_readsOnlyTheCode 8 Instr.lLit more h
  | false :: bits =>
    rw [List.cons_append]
    unfold decodeLCode at h ⊢
    cases ho : takeField 16 bits with
    | none => simp [ho] at h
    | some field =>
      simp only [ho] at h
      simp only [takeField_append_of_some more ho]
      by_cases hend : field.1 = 0#16
      · simpa [hend] using h
      · rw [if_neg hend] at h ⊢
        exact withField_readsOnlyTheCode 4 _ more h

theorem decodeRunx_readsOnlyTheCode (k : Nat) : ReadsOnlyTheCode (decodeRunx k) := by
  intro bits rest i more h
  unfold decodeRunx at h ⊢
  split at h
  case h_22 => cases h
  all_goals exact withField_readsOnlyTheCode _ _ more h

theorem decodeExtended_readsOnlyTheCode (left : Nat) : ReadsOnlyTheCode (decodeExtended left) := by
  intro bits rest i more h
  induction left generalizing bits with
  | zero =>
    obtain ⟨rfl, rfl⟩ := DecodeResult.code.inj h
    rfl
  | succ left ih =>
    match bits with
    | [] => cases h
    | true :: bits => exact ih h
    | false :: bits => exact decodeRunx_readsOnlyTheCode _ more h

theorem decodePRun_readsOnlyTheCode : ReadsOnlyTheCode decodePRun := by
  intro bits rest i more h
  match bits with
  | [] | [false] | [true] => cases h
  | false :: false :: bits | false :: true :: bits =>
    obtain ⟨rfl, rfl⟩ := DecodeResult.code.inj h
    rfl
  | true :: false :: bits => exact withField_readsOnlyTheCode 2 Instr.pRuns more h
  | true :: true :: bits => exact decodeExtended_readsOnlyTheCode _ more h

theorem decodePColor_readsOnlyTheCode : ReadsOnlyTheCode decodePColor := by
  intro bits rest i more h
  unfold decodePColor at h ⊢
  cases hr : takeField 8 bits with
  | none => simp [hr] at h
  | some red =>
    cases hg : takeField 8 red.2 with
    | none => simp [hr, hg] at h
    | some green =>
      cases hb : takeField 8 green.2 with
      | none => simp [hr, hg, hb] at h
      | some blue =>
        simp only [hr, hg, hb] at h
        simp only [takeField_append_of_some more hr, takeField_append_of_some more hg, takeField_append_of_some more hb]
        cases hs : blue.2 with
        | nil => simp [hs] at h
        | cons stamp bits => simpa [hs] using h

theorem decodePStamp_readsOnlyTheCode : ReadsOnlyTheCode decodePStamp := by
  intro bits rest i more h
  match bits with
  | [] | [false] | [true] | [false, false] | [false, false, true] => cases h
  | false :: false :: false :: bits | false :: false :: true :: false :: bits | false :: false :: true :: true :: bits
  | false :: true :: bits | true :: false :: bits | true :: true :: bits =>
    obtain ⟨rfl, rfl⟩ := DecodeResult.code.inj h
    rfl

/-- R61: at every place the code is decided by its own bits. -/
theorem decode_readsOnlyTheCode (site : DecodeSite) : ReadsOnlyTheCode (decode site) := by
  intro bits rest i more h
  cases site with
  | command | fill =>
    obtain ⟨rfl, rfl⟩ := DecodeResult.code.inj h
    rfl
  | tag => exact decodeTag_readsOnlyTheCode more h
  | lCode => exact decodeLCode_readsOnlyTheCode more h
  | pRun => exact decodePRun_readsOnlyTheCode more h
  | pColor => exact decodePColor_readsOnlyTheCode more h
  | pStamp => exact decodePStamp_readsOnlyTheCode more h

end Sys2Proof

namespace Sys2Proof.Machine

/-! ### The step -/

/-- The sequencer runs the code the payload at the cursor begins with. -/
theorem runCodeAt_payload {s : State} {p : Nat} {site : DecodeSite} {i : Instr} {rest : List Bool} (hc : s.CursorAt p)
    (hp : p ≤ Config.payloadBits) (h : decode site (s.payloadFrom p) = .code i rest) : runCodeAt site s = exec i s := by
  have hfetch : decode site (fetchBits s) = .code i (rest ++ List.replicate Config.maxCodeBits false) := by
    rw [fetchBits_at hc hp]
    exact decode_readsOnlyTheCode site _ h
  simp only [runCodeAt, hfetch]

/-- Settles O9: the padding behind the block does not change the code, and the slot of the host is no part of what the
sequencer reads. -/
theorem stepRunsTheCodeAtTheCursor : Obligations.StepRunsTheCodeAtTheCursor := by
  unfold Obligations.StepRunsTheCodeAtTheCursor
  intro s s0 p site i rest hpass hc hp hsite hcode
  obtain ⟨hstep, later, rfl⟩ := step_hostPasses hpass
  rw [hstep, sequencerStep_site (s := s.setHostSlots later) hsite]
  exact runCodeAt_payload (s := s.setHostSlots later) hc hp hcode

end Sys2Proof.Machine
end

section
/-!
PROOF. The codes of the stream in closed form: what a code does after its bits were consumed (`State.afterCode`), what is
left of it when the block ends inside it (`State.cutCode`), and that the decoder finds a code of the phase at every cursor.
-/

namespace Sys2Proof

/-! ### The decoder always finds a code of its place -/

/-- A decoder that finds a code of `site` at the front of any `bound` bits. -/
def FindsCodesOf (site : DecodeSite) (bound : Nat) (decoder : List Bool → DecodeResult) : Prop :=
  ∀ bits, (∃ i rest, decoder bits = .code i rest ∧ i.site = site) ∨
    (decoder bits = .needsMoreBits ∧ bits.length < bound)

theorem withField_findsCodesOf {site : DecodeSite} {n : Nat} {f : BitVec n → Instr} (hf : ∀ v, (f v).site = site) :
    FindsCodesOf site n (withField n f) := by
  intro bits
  obtain ⟨v, rest, -, h⟩ | ⟨hlen, h⟩ := withField_cases n f bits
  · exact .inl ⟨f v, rest, h, hf v⟩
  · exact .inr ⟨h, hlen⟩

theorem takeField_length {n : Nat} {bits rest : List Bool} {v : BitVec n} (h : takeField n bits = some (v, rest)) :
    bits.length = n + rest.length := by
  rw [takeField_some h, List.length_append, length_fieldBits]

theorem decodeLCode_findsCodesOf : FindsCodesOf .lCode 21 decodeLCode := by
  intro bits
  match bits with
  | [] => exact .inr ⟨rfl, by decide⟩
  | true :: bits =>
    obtain hcode | ⟨hmore, hlen⟩ := withField_findsCodesOf (f := Instr.lLit) (fun _ => rfl) bits
    · exact .inl hcode
    · exact .inr ⟨hmore, by rw [List.length_cons]; omega⟩
  | false :: bits =>
    cases ho : takeField 16 bits with
    | none =>
      have := takeField_none.mp ho
      exact .inr ⟨by simp only [decodeLCode, ho], by rw [List.length_cons]; omega⟩
    | some field =>
      by_cases hend : field.1 = 0#16
      · exact .inl ⟨.lEnd, field.2, by simp only [decodeLCode, ho, if_pos hend], rfl⟩
      · simp only [decodeLCode, ho, if_neg hend]
        obtain hcode | ⟨hmore, hlen⟩ := withField_findsCodesOf (f := Instr.lCopy field.1) (fun _ => rfl) field.2
        · exact .inl hcode
        · have := takeField_length ho
          exact .inr ⟨hmore, by rw [List.length_cons]; omega⟩

theorem decodeRunx_findsCodesOf {k : Nat} (hk : 3 ≤ k) (hk' : k ≤ 23) : FindsCodesOf .pRun k (decodeRunx k) := by
  interval_cases k
  all_goals exact withField_findsCodesOf (by intro v; rfl)

/-- The longest extended code is the one whose zero-bit comes last before the sentinel. -/
theorem decodeExtended_findsCodesOf {left : Nat} (hleft : left ≤ 21) :
    FindsCodesOf .pRun (left + 23) (decodeExtended left) := by
  induction left with
  | zero => exact fun bits => .inl ⟨.pEnd, bits, rfl, rfl⟩
  | succ left ih =>
    intro bits
    match bits with
    | [] => exact .inr ⟨rfl, by simp⟩
    | true :: bits =>
      obtain hcode | ⟨hmore, hlen⟩ := ih (by omega) bits
      · exact .inl hcode
      · exact .inr ⟨hmore, by rw [List.length_cons]; omega⟩
    | false :: bits =>
      have hk : 3 ≤ 24 - (left + 1) := by omega
      obtain hcode | ⟨hmore, hlen⟩ := decodeRunx_findsCodesOf hk (by omega) bits
      · exact .inl hcode
      · exact .inr ⟨hmore, by rw [List.length_cons]; omega⟩

theorem decodePRun_findsCodesOf : FindsCodesOf .pRun 46 decodePRun := by
  intro bits
  match bits with
  | [] | [false] | [true] => exact .inr ⟨rfl, by decide⟩
  | false :: false :: bits => exact .inl ⟨.pRun0, bits, rfl, rfl⟩
  | false :: true :: bits => exact .inl ⟨.pRun1, bits, rfl, rfl⟩
  | true :: false :: bits =>
    obtain hcode | ⟨hmore, hlen⟩ := withField_findsCodesOf (f := Instr.pRuns) (fun _ => rfl) bits
    · exact .inl hcode
    · exact .inr ⟨hmore, by simp only [List.length_cons]; omega⟩
  | true :: true :: bits =>
    obtain hcode | ⟨hmore, hlen⟩ := decodeExtended_findsCodesOf (Nat.le_refl 21) bits
    · exact .inl hcode
    · exact .inr ⟨hmore, by simp only [List.length_cons]; omega⟩

theorem decodePColor_findsCodesOf : FindsCodesOf .pColor 25 decodePColor := by
  intro bits
  unfold decodePColor
  cases hr : takeField 8 bits with
  | none => exact .inr ⟨rfl, by have := takeField_none.mp hr; omega⟩
  | some red =>
    have hred := takeField_length hr
    cases hg : takeField 8 red.2 with
    | none => exact .inr ⟨by simp [hg], by have := takeField_none.mp hg; omega⟩
    | some green =>
      have hgreen := takeField_length hg
      cases hb : takeField 8 green.2 with
      | none => exact .inr ⟨by simp [hg, hb], by have := takeField_none.mp hb; omega⟩
      | some blue =>
        have hblue := takeField_length hb
        cases hs : blue.2 with
        | nil => exact .inr ⟨by simp [hg, hb, hs], by simp only [hs, List.length_nil] at hblue; omega⟩
        | cons stamp rest => exact .inl ⟨.pColor red.1 green.1 blue.1 stamp, rest, by simp [hg, hb, hs], rfl⟩

theorem decodePStamp_findsCodesOf : FindsCodesOf .pStamp 4 decodePStamp := by
  intro bits
  match bits with
  | [] | [false] | [true] | [false, false] | [false, false, true] => exact .inr ⟨rfl, by decide⟩
  | false :: false :: false :: bits => exact .inl ⟨.sExit, bits, rfl, rfl⟩
  | false :: false :: true :: false :: bits => exact .inl ⟨.s1914, bits, rfl, rfl⟩
  | false :: false :: true :: true :: bits => exact .inl ⟨.s1926, bits, rfl, rfl⟩
  | false :: true :: bits => exact .inl ⟨.s1917, bits, rfl, rfl⟩
  | true :: false :: bits => exact .inl ⟨.s1920, bits, rfl, rfl⟩
  | true :: true :: bits => exact .inl ⟨.s1923, bits, rfl, rfl⟩

/-- In a stream phase 46 bits are enough for a code, and the code is one of that phase. -/
theorem decode_findsCode {site : DecodeSite} {bits : List Bool} (hsite : site ∈ [DecodeSite.lCode, .pRun, .pColor, .pStamp])
    (hlen : Config.maxCodeBits ≤ bits.length) : ∃ i rest, decode site bits = .code i rest ∧ i.site = site := by
  have of {bound : Nat} (hbound : bound ≤ 46) (h : FindsCodesOf site bound (decode site)) :=
    (h bits).resolve_right fun ⟨_, hshort⟩ => by
      have : 46 ≤ bits.length := hlen
      omega
  simp only [List.mem_cons, List.not_mem_nil, or_false] at hsite
  obtain rfl | rfl | rfl | rfl := hsite
  · exact of (by decide) decodeLCode_findsCodesOf
  · exact of (by decide) decodePRun_findsCodesOf
  · exact of (by decide) decodePColor_findsCodesOf
  · exact of (by decide) decodePStamp_findsCodesOf

end Sys2Proof

namespace Sys2Proof.Machine

/-! ### The codes of the stream -/

/-- The codes of the stream, shape by shape. -/
theorem streamCode_shapes {i : Instr} (h : isStreamCode i = true) :
    (∃ v, i = .lLit v) ∨ (∃ o n, i = .lCopy o n) ∨ i = .lEnd ∨ (∃ len n, runTable i = some (len, n)) ∨ i = .pEnd ∨
      (∃ r g b stamp, i = .pColor r g b stamp) ∨ i = .sExit ∨ ∃ len inc, stampTable i = some (len, inc) := by
  obtain rfl | rfl | rfl | rfl | ⟨n, happ⟩ | hrest := instr_shapes i
  · cases h
  · cases h
  · cases h
  · cases h
  · obtain ⟨v, rfl, -⟩ | ⟨o, m, rfl, -⟩ | ⟨rfl, -⟩ := appendCount_cases happ
    · exact .inl ⟨v, rfl⟩
    · exact .inr (.inl ⟨o, m, rfl⟩)
    · exact .inr (.inr (.inl rfl))
  · exact .inr (.inr (.inr hrest))

/-- The codes a stream phase reads are codes of the stream. -/
theorem isStreamCode_of_site {ph : Phase} {i : Instr} (h : ph.site = some i.site) : isStreamCode i = true := by
  have := Phase.site_stream h
  simp only [List.mem_cons, List.not_mem_nil, or_false] at this
  unfold isStreamCode
  obtain h | h | h | h := this <;> rw [h] <;> rfl

theorem eq_pColor_of_site {i : Instr} (h : i.site = .pColor) : ∃ r g b stamp, i = .pColor r g b stamp := by
  cases i
  case pColor r g b stamp => exact ⟨r, g, b, stamp, rfl⟩
  all_goals cases h

theorem runTable_eq_none_of_stamp {i : Instr} {len inc : Nat} (h : stampTable i = some (len, inc)) : runTable i = none := by
  cases i
  case s1914 | s1926 | s1917 | s1920 | s1923 => rfl
  all_goals cases h

/-- What the stream codes outside the tables of the run codes and the stamp codes do once their bits are consumed. -/
def State.afterOtherCode (i : Instr) (s : State) : State :=
  match i with
  | .lLit v => if s.outLen < Config.capacity then (s.appended v).setPhase .lCode else s.withError .decodeOverflow
  | .lCopy o n =>
    if n.toNat + 3 ≤ Config.capacity - s.outLen then (s.copied o.toNat (n.toNat + 3) 0).setPhase .lCode
    else (s.copied o.toNat (Config.capacity - s.outLen) 0).withError .decodeOverflow
  | .lEnd => s.setPhase .done
  | .pEnd => s.fillEntered
  | .pColor r g b stamp =>
    if stamp then ((s.colored ⟨r, g, b⟩).setStampPos s.outputPos).setPhase .pStamp else (s.colored ⟨r, g, b⟩).pixelClosed
  | .sExit => s.pixelClosed
  | _ => s

/-- The state after a stamp code's bits were consumed (R110). -/
def State.stampAdvanced (inc : Nat) (s : State) : State :=
  if Config.capacity ≤ s.stampPos + inc + 2 then (s.setStampPos (s.stampPos + inc)).pixelClosed else s.stamped inc

/-- What a stream code does once its bits are consumed. -/
def State.afterCode (i : Instr) (s : State) : State :=
  match runTable i, stampTable i with
  | some (_, n), _ => s.runAdvanced n
  | none, some (_, inc) => s.stampAdvanced inc
  | none, none => s.afterOtherCode i

theorem State.afterCode_run {i : Instr} {len n : Nat} (h : runTable i = some (len, n)) (s : State) :
    s.afterCode i = s.runAdvanced n := by
  rw [State.afterCode, h]

theorem State.afterCode_stamp {i : Instr} {len inc : Nat} (h : stampTable i = some (len, inc)) (s : State) :
    s.afterCode i = s.stampAdvanced inc := by
  rw [State.afterCode, runTable_eq_none_of_stamp h, h]

/-- What a stream code leaves when the block ends inside it (R144): StreamOverrun, and the colour of a `P.COLOR` of which
only the flag is missing (decision D21). -/
def State.cutCode (i : Instr) (p : Nat) (s : State) : State :=
  match i with
  | .pColor r g b _ => if p + 24 = Config.payloadBits then (s.colored ⟨r, g, b⟩).overrun else s.overrun
  | _ => s.overrun

/-- A cut code ends in StreamOverrun, on the state it found or, for `P.COLOR`, on the one with the colour written. -/
theorem State.cutCode_cases (i : Instr) (p : Nat) (s : State) :
    s.cutCode i p = s.overrun ∨ (i.site = .pColor ∧ p + 24 = Config.payloadBits ∧ ∃ c, s.cutCode i p = (s.colored c).overrun) := by
  unfold State.cutCode
  split
  · split
    · exact .inr ⟨rfl, ‹_›, _, rfl⟩
    · exact .inl rfl
  · exact .inl rfl

/-- The state a stream code leaves that begins at payload bit `p`. -/
def State.ran (i : Instr) (p : Nat) (s : State) : State :=
  if p + codeLength i ≤ Config.payloadBits then (s.atBit (p + codeLength i)).afterCode i else s.cutCode i p

/-- The code that begins at bit `p` reaches no address outside `PB`: only `P.COLOR` could. -/
def State.ColorFits (i : Instr) (p : Nat) (s : State) : Prop :=
  i.site = .pColor → p + 24 ≤ Config.payloadBits → s.outputPos + 2 < Config.capacity

/-- A stream code whose bits are there. -/
theorem exec_code_at {i : Instr} {s : State} {p : Nat} (hi : isStreamCode i = true) (hc : s.CursorAt p)
    (hp : p + codeLength i ≤ Config.payloadBits) (hfits : s.ColorFits i p) :
    exec i s = .next ((s.atBit (p + codeLength i)).afterCode i) := by
  obtain ⟨v, rfl⟩ | ⟨o, n, rfl⟩ | rfl | ⟨len, n, hrun⟩ | rfl | ⟨r, g, b, stamp, rfl⟩ | rfl | ⟨len, inc, hstamp⟩ :=
    streamCode_shapes hi
  · rw [codeLength_eq] at hp ⊢
    by_cases hroom : s.outLen < Config.capacity
    · rw [exec_lLit_room hc hp hroom]
      exact congrArg Host.Outcome.next (if_pos hroom).symm
    · rw [exec_lLit_full hc hp (Nat.le_of_not_lt hroom)]
      exact congrArg Host.Outcome.next (if_neg hroom).symm
  · rw [codeLength_eq] at hp ⊢
    exact exec_lCopy_at hc hp
  · exact exec_lEnd_at hc hp
  · rw [codeLength_run hrun] at hp ⊢
    rw [State.afterCode_run hrun, exec_run_at hrun hc hp]
  · exact exec_pEnd_at hc hp
  · rw [codeLength_eq] at hp ⊢
    have hp : p + 25 ≤ Config.payloadBits := hp
    exact exec_pColor_at hc hp (hfits rfl (by omega))
  · exact exec_sExit_at hc hp
  · rw [codeLength_stamp hstamp] at hp ⊢
    rw [State.afterCode_stamp hstamp, exec_stamp_at hstamp hc hp]
    rfl

/-- Every stream code but `P.COLOR` consumes all its bits first. -/
theorem exec_takesBitsFirst {i : Instr} (hi : isStreamCode i = true) (hcolor : i.site ≠ .pColor) (s : State) :
    ∃ k : Unit → State → Flow Unit, exec i s = ((takeBits (codeLength i) s).andThen k).outcome := by
  obtain ⟨v, rfl⟩ | ⟨o, n, rfl⟩ | rfl | ⟨len, n, hrun⟩ | rfl | ⟨r, g, b, stamp, rfl⟩ | rfl | ⟨len, inc, hstamp⟩ :=
    streamCode_shapes hi
  · rw [codeLength_eq]
    exact ⟨_, rfl⟩
  · rw [codeLength_eq]
    exact ⟨_, rfl⟩
  · exact ⟨_, rfl⟩
  · rw [codeLength_run hrun]
    exact ⟨_, exec_run hrun s⟩
  · exact ⟨_, rfl⟩
  · exact absurd rfl hcolor
  · exact ⟨_, rfl⟩
  · rw [codeLength_stamp hstamp]
    exact ⟨_, exec_stamp hstamp s⟩

theorem exec_pColor_short {r g b : Byte} {stamp : Bool} {s : State} {p : Nat} (hc : s.CursorAt p)
    (hp : p ≤ Config.payloadBits) (hn : Config.payloadBits < p + 24) :
    exec (.pColor r g b stamp) s = .next s.overrun := by
  change execPColor r g b stamp s = _
  rw [execPColor, takeBits_short hc hp hn]
  rfl

/-- A stream code that the end of the block cuts off. -/
theorem exec_code_cut {i : Instr} {s : State} {p : Nat} (hi : isStreamCode i = true) (hc : s.CursorAt p)
    (hp : p ≤ Config.payloadBits) (hn : Config.payloadBits < p + codeLength i) (hfits : s.ColorFits i p) :
    exec i s = .next (s.cutCode i p) := by
  by_cases hcolor : i.site = .pColor
  · obtain ⟨r, g, b, stamp, rfl⟩ := eq_pColor_of_site hcolor
    rw [codeLength_eq] at hn
    have hn : Config.payloadBits < p + 25 := hn
    by_cases hflag : p + 24 = Config.payloadBits
    · rw [exec_pColor_flagMissing hc hflag (hfits rfl (by omega))]
      exact congrArg Host.Outcome.next (if_pos hflag).symm
    · rw [exec_pColor_short hc hp (by omega)]
      exact congrArg Host.Outcome.next (if_neg hflag).symm
  · obtain ⟨k, hk⟩ := exec_takesBitsFirst hi hcolor s
    have hcut : s.cutCode i p = s.overrun := (State.cutCode_cases i p s).resolve_right fun h => hcolor h.1
    rw [hk, takeBits_short hc hp hn, hcut]
    rfl

/-- Everything a stream code does from a cursor at payload bit `p`. -/
theorem exec_code {i : Instr} {s : State} {p : Nat} (hi : isStreamCode i = true) (hc : s.CursorAt p)
    (hp : p ≤ Config.payloadBits) (hfits : s.ColorFits i p) : exec i s = .next (s.ran i p) := by
  unfold State.ran
  by_cases hlen : p + codeLength i ≤ Config.payloadBits
  · rw [if_pos hlen, exec_code_at hi hc hlen hfits]
  · rw [if_neg hlen, exec_code_cut hi hc hp (by omega) hfits]

/-- A `P.COLOR` that has a next state had room for its colour, unless its bits were missing. -/
theorem colorFits_of_next {i : Instr} {s t : State} {p : Nat} (hc : s.CursorAt p) (h : exec i s = .next t) :
    s.ColorFits i p := by
  intro hcolor hlen
  obtain ⟨r, g, b, stamp, rfl⟩ := eq_pColor_of_site hcolor
  change execPColor r g b stamp s = _ at h
  rw [execPColor, takeBits_at hc hlen, Flow.andThen_go] at h
  obtain ⟨hin, -⟩ | ⟨-, x, hout⟩ := storeTriple_cases s.outputPos ⟨r, g, b⟩ (s.atBit (p + 24))
  · exact hin
  · rw [State.setCursor_outputPos, hout] at h
    cases h

end Sys2Proof.Machine
end

section
/-!
PROOF. What the instructions leave alone: the inputs (`CB`, `IN_LEN`, the host's coming accesses) in every case, and the
cursor but for the bits of the code.
-/

namespace Sys2Proof.Machine

/-! ### The inputs -/

/-- What the host gives the core and no instruction writes: `CB`, `IN_LEN` and the accesses to come (R31, R43). -/
def State.inputs (s : State) : Memory × BitVec 32 × List (Option HostAccess) := (s.cb, s.inLen, s.hostSlots)

theorem State.inputs_eq_iff {s t : State} :
    t.inputs = s.inputs ↔ t.cb = s.cb ∧ t.inLen = s.inLen ∧ t.hostSlots = s.hostSlots := by
  simp only [State.inputs, Prod.mk.injEq]

theorem State.copied_inputs (offset count i : Nat) (s : State) : (s.copied offset count i).inputs = s.inputs := by
  obtain ⟨-, -, -, -, -, -, -, -, -, hinLen, hcb, hslots⟩ := State.copied_frame offset count i s
  exact State.inputs_eq_iff.mpr ⟨hcb, hinLen, hslots⟩

theorem State.runAdvanced_inputs (s : State) (n : Nat) : (s.runAdvanced n).inputs = s.inputs := by
  rw [State.runAdvanced_eq]
  rfl

theorem State.pixelClosed_inputs (s : State) : s.pixelClosed.inputs = s.inputs := by
  rw [State.pixelClosed_eq]
  rfl

theorem State.filled_inputs (s : State) : s.filled.inputs = s.inputs := by
  rw [State.filled_eq]
  rfl

theorem exec_start_inputs {s t : State} (h : exec .start s = .next t) : t.inputs = s.inputs := by
  rw [exec_start_eq] at h
  rw [← Host.Outcome.next.inj h]
  split
  · rfl
  split
  · rfl
  split
  · rfl
  split
  · rfl
  · rfl

theorem exec_append_inputs {i : Instr} {n : Nat} {s t : State} (hi : appendCount i = some n) (h : exec i s = .next t) :
    t.inputs = s.inputs := by
  obtain ⟨v, rfl, -⟩ | ⟨o, m, rfl, -⟩ | ⟨rfl, -⟩ := appendCount_cases hi
  · obtain ⟨b, m, ⟨-, rfl⟩ | ⟨-, rfl⟩ | ⟨-, rfl⟩⟩ := exec_lLit_cases h
    · rfl
    · rfl
    · rfl
  · obtain ⟨b, m, ⟨-, rfl⟩ | ⟨-, rfl⟩ | ⟨-, rfl⟩⟩ := exec_lCopy_cases h
    · rfl
    · exact State.copied_inputs _ _ _ _
    · exact State.copied_inputs _ _ _ _
  · obtain ⟨b, m, ⟨-, rfl⟩ | rfl⟩ := exec_lEnd_cases h
    · rfl
    · rfl

theorem exec_pColor_inputs {r g b : Byte} {stamp : Bool} {s t : State} (h : exec (.pColor r g b stamp) s = .next t) :
    t.inputs = s.inputs := by
  obtain ⟨b', m, ⟨-, rfl⟩ | ⟨-, ⟨-, rfl⟩ | ⟨-, rfl⟩ | ⟨-, rfl⟩⟩⟩ := exec_pColor_cases h
  · rfl
  · rfl
  · rfl
  · exact State.pixelClosed_inputs _

theorem exec_stamp_inputs {i : Instr} {len inc : Nat} {s t : State} (hi : stampTable i = some (len, inc))
    (h : exec i s = .next t) : t.inputs = s.inputs := by
  obtain ⟨b, m, ⟨-, rfl⟩ | ⟨-, rfl⟩ | ⟨-, rfl⟩⟩ := exec_stamp_cases hi h
  · rfl
  · exact State.pixelClosed_inputs _
  · rfl

/-- No instruction writes an input. -/
theorem exec_inputs {i : Instr} {s t : State} (h : exec i s = .next t) : t.inputs = s.inputs := by
  obtain rfl | rfl | rfl | rfl | ⟨n, happ⟩ | ⟨len, n, hrun⟩ | rfl | ⟨r, g, b, stamp, rfl⟩ | rfl | ⟨len, inc, hstamp⟩ :=
    instr_shapes i
  · rw [← Host.Outcome.next.inj ((exec_tagL s).symm.trans h)]
    rfl
  · rw [← Host.Outcome.next.inj ((exec_tagP s).symm.trans h)]
    rfl
  · exact exec_start_inputs h
  · obtain ⟨-, rfl⟩ := exec_fillStep_cases h
    exact State.filled_inputs s
  · exact exec_append_inputs happ h
  · obtain ⟨b, m, ⟨-, rfl⟩ | rfl⟩ := exec_run_cases hrun h
    · rfl
    · exact State.runAdvanced_inputs _ _
  · obtain ⟨b, m, ⟨-, rfl⟩ | rfl⟩ := exec_pEnd_cases h
    · rfl
    · rfl
  · exact exec_pColor_inputs h
  · obtain ⟨b, m, ⟨-, rfl⟩ | rfl⟩ := exec_sExit_cases h
    · rfl
    · exact State.pixelClosed_inputs _
  · exact exec_stamp_inputs hstamp h

/-- Settles O43: no instruction writes an input, so every byte of `CB` reads as before. -/
theorem coreNeverWritesItsInputs : Obligations.CoreNeverWritesItsInputs := by
  unfold Obligations.CoreNeverWritesItsInputs
  intro i s t h
  obtain ⟨hcb, hinLen, hslots⟩ := State.inputs_eq_iff.mp (exec_inputs h)
  exact ⟨fun a => congrArg (·.read a) hcb, hinLen, hslots⟩

/-! ### The cursor -/

/-- After its bits a code moves the cursor no more. -/
theorem State.afterCode_cursorAt {i : Instr} {s : State} {p : Nat} (hi : isStreamCode i = true) (h : s.CursorAt p) :
    (s.afterCode i).CursorAt p := by
  obtain ⟨v, rfl⟩ | ⟨o, n, rfl⟩ | rfl | ⟨len, n, hrun⟩ | rfl | ⟨r, g, b, stamp, rfl⟩ | rfl | ⟨len, inc, hstamp⟩ :=
    streamCode_shapes hi
  · change (if _ then _ else _ : State).CursorAt p
    split
    · exact h
    · exact h
  · have hcopied (count : Nat) : (s.copied o.toNat count 0).CursorAt p := by
      obtain ⟨-, hbyte, hmask, -⟩ := State.copied_frame o.toNat count 0 s
      exact ⟨hbyte.trans h.1, hmask.trans h.2⟩
    change (if _ then _ else _ : State).CursorAt p
    split
    · exact hcopied _
    · exact hcopied _
  · exact h
  · rw [State.afterCode_run hrun, State.runAdvanced_eq]
    exact h
  · exact h
  · change (if _ then _ else _ : State).CursorAt p
    split
    · exact h
    · rw [State.pixelClosed_eq]
      exact h
  · change s.pixelClosed.CursorAt p
    rw [State.pixelClosed_eq]
    exact h
  · rw [State.afterCode_stamp hstamp, State.stampAdvanced]
    split
    · rw [State.pixelClosed_eq]
      exact h
    · exact h

/-- Settles O12: the closed form of a stream code puts the cursor behind its bits or, where the block ends first, at the end
with StreamOverrun. -/
theorem cursorMovesForwardByTheCodeLength : Obligations.CursorMovesForwardByTheCodeLength := by
  unfold Obligations.CursorMovesForwardByTheCodeLength
  intro i s t p hc hp h
  refine ⟨fun hi hlen => ?_, fun hi hlen => ?_, ?_⟩
  · obtain rfl := Host.Outcome.next.inj ((exec_code_at hi hc hlen (colorFits_of_next hc h)).symm.trans h)
    exact State.afterCode_cursorAt hi (State.atBit_cursorAt s _)
  · obtain rfl := Host.Outcome.next.inj ((exec_code_cut hi hc hp hlen (colorFits_of_next hc h)).symm.trans h)
    obtain hcut | ⟨-, -, c, hcut⟩ := State.cutCode_cases i p s
    · rw [hcut]
      exact ⟨⟨rfl, rfl⟩, rfl, rfl⟩
    · rw [hcut]
      exact ⟨⟨rfl, rfl⟩, rfl, rfl⟩
  · rintro rfl
    obtain ⟨-, rfl⟩ := exec_fillStep_cases h
    rw [State.filled_eq]
    exact hc

end Sys2Proof.Machine
end

section
/-!
PROOF. The invariant of 10_state.md: every operation the instructions are made of keeps a state legal, so every step does.
The positions of FormatP are moved after the phase: the ranges of R12 are those of the phase a code ends in.
-/

namespace Sys2Proof.Machine

/-! ### Writing one register or memory -/

/-- The cursor may go to any payload bit and to the resting place behind the last one. -/
theorem State.Legal.atBit {s : State} (h : s.Legal) {p : Nat} (hp : p ≤ Config.payloadBits) : (s.atBit p).Legal :=
  { h with
    cursor := by
      rw [(s.atBit_cursorAt p).bitPos]
      exact ⟨s.atBit_cursorAt p, hp⟩ }

theorem State.Legal.withError {s : State} (h : s.Legal) (e : DecodeError) : (s.withError e).Legal :=
  { h with
    mainLoop := by simp
    stampLoop := by simp
    fillLoop := by simp
    err := by cases e <;> simp [DecodeError.code] }

theorem State.Legal.overrun {s : State} (h : s.Legal) : s.overrun.Legal :=
  (h.atBit (Nat.le_refl _)).withError .streamOverrun

/-- Outside ERROR the phase may become any other that the positions are in range for. -/
theorem State.Legal.setPhase {s : State} (h : s.Legal) {p : Phase} (hs : s.phase ≠ .error) (hp : p ≠ .error)
    (hmain : p = .pRun ∨ p = .pColor ∨ p = .pStamp → s.outputPos ≤ 921597)
    (hstamp : p = .pStamp → s.outputPos ≤ s.stampPos ∧ s.stampPos ≤ 921597) (hfill : p = .pFill → s.fillPos ≤ 921597) :
    (s.setPhase p).Legal :=
  { h with
    mainLoop := hmain
    stampLoop := hstamp
    fillLoop := hfill
    err := ⟨h.err.1, iff_of_false hp fun herr => hs (h.err.2.mpr herr)⟩ }

theorem State.Legal.setOutputPos {s : State} (h : s.Legal) {a : Nat} (ha : a % 3 = 0 ∧ a ≤ 51253236)
    (hmain : s.phase = .pRun ∨ s.phase = .pColor ∨ s.phase = .pStamp → a ≤ 921597)
    (hstamp : s.phase = .pStamp → a ≤ s.stampPos) : (s.setOutputPos a).Legal :=
  { h with
    outputPos := ha
    mainLoop := hmain
    stampLoop := fun hs => ⟨hstamp hs, (h.stampLoop hs).2⟩ }

theorem State.Legal.setStampPos {s : State} (h : s.Legal) {a : Nat} (ha : a % 3 = 0 ∧ a ≤ 923523)
    (hstamp : s.phase = .pStamp → s.outputPos ≤ a ∧ a ≤ 921597) : (s.setStampPos a).Legal :=
  { h with
    stampPos := ha
    stampLoop := hstamp }

theorem State.Legal.setFillPos {s : State} (h : s.Legal) {a : Nat} (ha : a % 3 = 0 ∧ a ≤ 921600)
    (hfill : s.phase = .pFill → a ≤ 921597) : (s.setFillPos a).Legal :=
  { h with
    fillPos := ha
    fillLoop := hfill }

theorem State.Legal.setCol {s : State} (h : s.Legal) (c : Rgb) : (s.setCol c).Legal := { h with }

theorem State.Legal.setCarry {s : State} (h : s.Legal) (c : Rgb) : (s.setCarry c).Legal := { h with }

theorem State.Legal.setInLen {s : State} (h : s.Legal) (n : BitVec 32) : (s.setInLen n).Legal := { h with }

theorem State.Legal.setHostSlots {s : State} (h : s.Legal) (later : List (Option HostAccess)) :
    (s.setHostSlots later).Legal := { h with }

theorem State.Legal.writeCb {s : State} (h : s.Legal) {a : Nat} (v : Byte) (ha : a < Config.blockSize) :
    (s.setCb (s.cb.write a v)).Legal :=
  { h with cb := ⟨Memory.wf_write a v h.cb.1, Memory.within_write v h.cb.2 ha⟩ }

theorem State.Legal.writeTriple {s : State} (h : s.Legal) {a : Nat} (c : Rgb) (ha : a + 2 < Config.capacity) :
    (s.setPb (s.pb.writeTriple a c)).Legal :=
  { h with pb := ⟨Memory.wf_writeTriple a c h.pb.1, Memory.within_writeTriple c h.pb.2 ha⟩ }

/-! ### FormatL -/

theorem State.Legal.appended {s : State} (h : s.Legal) (v : Byte) (hroom : s.outLen < Config.capacity) :
    (s.appended v).Legal :=
  { h with
    outLen := hroom
    lut := ⟨Memory.wf_write _ v h.lut.1, Memory.within_write v h.lut.2 (Nat.mod_lt _ (by decide))⟩
    pb := ⟨Memory.wf_write _ v h.pb.1, Memory.within_write v h.pb.2 hroom⟩ }

theorem State.Legal.copied {s : State} (h : s.Legal) (offset : Nat) {count : Nat} (i : Nat)
    (hroom : count ≤ Config.capacity - s.outLen) : (s.copied offset count i).Legal := by
  induction count generalizing i s with
  | zero => exact h
  | succ k ih =>
    refine ih (h.appended _ (by omega)) (i + 1) ?_
    change k ≤ Config.capacity - (s.outLen + 1)
    omega

/-! ### FormatP and the gap-fill pass -/

theorem State.Legal.fillEntered {s : State} (h : s.Legal) (hs : s.phase ≠ .error) : s.fillEntered.Legal :=
  ((h.setFillPos (a := 0) (by decide) (by simp)).setCarry Rgb.zero).setPhase hs (by decide) (by simp) (by simp) (by simp)

theorem State.Legal.runAdvanced {s : State} (h : s.Legal) {n : Nat} (hs : s.phase = .pRun) (hn : n ≤ 16777213) :
    (s.runAdvanced n).Legal := by
  have hmain := h.mainLoop (.inl hs)
  have hpos : (s.outputPos + 3 * n) % 3 = 0 ∧ s.outputPos + 3 * n ≤ 51253236 := by
    have := h.outputPos.1
    omega
  have hne : s.phase ≠ .error := by simp [hs]
  unfold State.runAdvanced
  split
  · exact (h.fillEntered hne).setOutputPos hpos (by simp [State.fillEntered]) (by simp [State.fillEntered])
  · have hin : s.outputPos + 3 * n ≤ 921597 := by simp only [Config.capacity_eq] at *; omega
    exact (h.setPhase (p := .pColor) hne (by decide) (fun _ => hmain) (by simp) (by simp)).setOutputPos hpos
      (fun _ => hin) (by simp)

theorem State.Legal.pixelClosed {s : State} (h : s.Legal) (hs : s.phase ≠ .error) (hmain : s.outputPos ≤ 921597) :
    s.pixelClosed.Legal := by
  have hpos : (s.outputPos + 3) % 3 = 0 ∧ s.outputPos + 3 ≤ 51253236 := by
    have := h.outputPos.1
    omega
  unfold State.pixelClosed
  split
  · have hin : s.outputPos + 3 ≤ 921597 := by simp only [Config.capacity_eq] at *; omega
    exact (h.setPhase (p := .pRun) hs (by decide) (fun _ => hmain) (by simp) (by simp)).setOutputPos hpos
      (fun _ => hin) (by simp)
  · exact (h.fillEntered hs).setOutputPos hpos (by simp [State.fillEntered]) (by simp [State.fillEntered])

theorem State.pixelClosed_phase_ne_pStamp (s : State) : s.pixelClosed.phase ≠ .pStamp := by
  rw [State.pixelClosed_eq]
  dsimp only
  split <;> decide

theorem State.setStampPos_pixelClosed (s : State) (a : Nat) : (s.setStampPos a).pixelClosed = s.pixelClosed.setStampPos a := by
  rw [State.pixelClosed_eq, State.pixelClosed_eq]
  rfl

theorem State.Legal.stampAdvanced {s : State} (h : s.Legal) {inc : Nat} (hs : s.phase = .pStamp) (hinc : inc % 3 = 0)
    (hmax : inc ≤ 1926) : (s.stampAdvanced inc).Legal := by
  have hmain := h.mainLoop (.inr (.inr hs))
  obtain ⟨hle, hstamp⟩ := h.stampLoop hs
  have hne : s.phase ≠ .error := by simp [hs]
  have hpos : (s.stampPos + inc) % 3 = 0 ∧ s.stampPos + inc ≤ 923523 := by
    have := h.stampPos.1
    omega
  unfold State.stampAdvanced
  split
  · rw [State.setStampPos_pixelClosed]
    exact (h.pixelClosed hne hmain).setStampPos hpos fun hp => absurd hp s.pixelClosed_phase_ne_pStamp
  · have hin : s.outputPos ≤ s.stampPos + inc ∧ s.stampPos + inc ≤ 921597 := by
      simp only [Config.capacity_eq] at *
      omega
    exact ((h.writeTriple s.col (by omega)).setStampPos hpos fun _ => hin).setPhase hne (by decide) (fun _ => hmain)
      (fun _ => hin) (by simp)

theorem State.Legal.colored {s : State} (h : s.Legal) (c : Rgb) (hmain : s.outputPos ≤ 921597) : (s.colored c).Legal :=
  (h.writeTriple c (by simp only [Config.capacity_eq]; omega)).setCol c

/-- What FILL.STEP does to the pixel, before the pass moves on (R121). -/
def State.pixelFilled (s : State) : State :=
  if s.readTriple s.fillPos = Rgb.zero then s.setPb (s.pb.writeTriple s.fillPos s.carry)
  else s.setCarry (s.readTriple s.fillPos)

theorem State.pixelFilled_phase (s : State) : s.pixelFilled.phase = s.phase := by
  unfold State.pixelFilled
  split
  · rfl
  · rfl

theorem State.filled_eq_pixelFilled (s : State) :
    s.filled =
      if Config.capacity ≤ s.fillPos + 3 then (s.pixelFilled.setPhase .done).setFillPos (s.fillPos + 3)
      else s.pixelFilled.setFillPos (s.fillPos + 3) := rfl

theorem State.Legal.pixelFilled {s : State} (h : s.Legal) (hs : s.phase = .pFill) : s.pixelFilled.Legal := by
  unfold State.pixelFilled
  split
  · have hfill := h.fillLoop hs
    exact h.writeTriple s.carry (by simp only [Config.capacity_eq]; omega)
  · exact h.setCarry _

theorem State.Legal.filled {s : State} (h : s.Legal) (hs : s.phase = .pFill) : s.filled.Legal := by
  have hfill := h.fillLoop hs
  have hpos : (s.fillPos + 3) % 3 = 0 ∧ s.fillPos + 3 ≤ 921600 := by
    have := h.fillPos.1
    omega
  have hpixel := h.pixelFilled hs
  have hne : s.pixelFilled.phase ≠ .error := by simp [State.pixelFilled_phase, hs]
  rw [State.filled_eq_pixelFilled]
  split
  · exact (hpixel.setPhase (p := .done) hne (by decide) (by simp) (by simp) (by simp)).setFillPos hpos (by simp)
  · exact hpixel.setFillPos hpos fun _ => by simp only [Config.capacity_eq] at *; omega

/-! ### The instructions -/

theorem runTable_le {i : Instr} {len n : Nat} (h : runTable i = some (len, n)) : n ≤ 16777213 := by
  cases i <;> simp only [runTable, Option.some.injEq, Prod.mk.injEq, reduceCtorEq] at h <;> obtain ⟨-, rfl⟩ := h <;> omega

theorem stampTable_inc {i : Instr} {len inc : Nat} (h : stampTable i = some (len, inc)) : inc % 3 = 0 ∧ inc ≤ 1926 := by
  cases i <;> simp only [stampTable, Option.some.injEq, Prod.mk.injEq, reduceCtorEq] at h <;> obtain ⟨-, rfl⟩ := h <;> decide

theorem Phase.site_eq_some {ph : Phase} {site : DecodeSite} (h : ph.site = some site) : ph = sitePhase site := by
  cases ph <;> cases h <;> rfl

/-- Only a running decode reads codes. -/
theorem Phase.busy_of_site {ph : Phase} {site : DecodeSite} (h : ph.site = some site) : ph.busy = true := by
  cases ph <;> cases h <;> rfl

theorem Phase.ne_error_of_busy {ph : Phase} (h : ph.busy = true) : ph ≠ .error := by
  rintro rfl
  cases h

theorem State.Legal.afterCode {s : State} (h : s.Legal) {i : Instr} (hs : s.phase.site = some i.site) :
    (s.afterCode i).Legal := by
  have hphase := Phase.site_eq_some hs
  have hne := Phase.ne_error_of_busy (Phase.busy_of_site hs)
  obtain ⟨v, rfl⟩ | ⟨o, n, rfl⟩ | rfl | ⟨len, n, hrun⟩ | rfl | ⟨r, g, b, stamp, rfl⟩ | rfl | ⟨len, inc, hstamp⟩ :=
    streamCode_shapes (isStreamCode_of_site hs)
  · change (if _ then _ else _ : State).Legal
    split
    · exact (h.appended v ‹_›).setPhase hne (by decide) (by simp) (by simp) (by simp)
    · exact h.withError _
  · change (if _ then _ else _ : State).Legal
    split
    · have hcopied := (State.copied_frame o.toNat (n.toNat + 3) 0 s).1
      exact (h.copied _ _ ‹_›).setPhase (by rwa [hcopied]) (by decide) (by simp) (by simp) (by simp)
    · exact (h.copied _ _ (Nat.le_refl _)).withError _
  · exact h.setPhase hne (by decide) (by simp) (by simp) (by simp)
  · rw [State.afterCode_run hrun]
    exact h.runAdvanced (hphase.trans (by rw [site_run hrun]; rfl)) (runTable_le hrun)
  · exact h.fillEntered hne
  · have hmain := h.mainLoop (.inr (.inl hphase))
    have hcolored := h.colored ⟨r, g, b⟩ hmain
    change (if _ then _ else _ : State).Legal
    split
    · have hstamp := hcolored.setStampPos (a := s.outputPos) ⟨h.outputPos.1, by omega⟩ (fun _ => ⟨Nat.le_refl _, hmain⟩)
      exact hstamp.setPhase hne (by decide) (fun _ => hmain) (fun _ => ⟨Nat.le_refl _, hmain⟩) (by simp)
    · exact hcolored.pixelClosed hne hmain
  · exact h.pixelClosed hne (h.mainLoop (.inr (.inr hphase)))
  · rw [State.afterCode_stamp hstamp]
    obtain ⟨hinc, hmax⟩ := stampTable_inc hstamp
    exact h.stampAdvanced (hphase.trans (by rw [site_stamp hstamp]; rfl)) hinc hmax

theorem State.Legal.outputPos_le_of_pColor {s : State} (h : s.Legal) {i : Instr} (hs : s.phase.site = some i.site)
    (hi : i.site = .pColor) : s.outputPos ≤ 921597 :=
  h.mainLoop (.inr (.inl ((Phase.site_eq_some hs).trans (by rw [hi]; rfl))))

theorem State.Legal.cutCode {s : State} (h : s.Legal) {i : Instr} (hs : s.phase.site = some i.site) (p : Nat) :
    (s.cutCode i p).Legal := by
  obtain hcut | ⟨hcolor, -, c, hcut⟩ := State.cutCode_cases i p s
  · rw [hcut]
    exact h.overrun
  · rw [hcut]
    exact (h.colored c (h.outputPos_le_of_pColor hs hcolor)).overrun

/-- A code of the state's phase runs, from the bit the cursor is at. -/
theorem State.Legal.exec_code {s : State} (h : s.Legal) {i : Instr} (hs : s.phase.site = some i.site) :
    exec i s = .next (s.ran i s.bitPos) :=
  Machine.exec_code (isStreamCode_of_site hs) h.cursor.1 h.cursor.2 fun hcolor _ => by
    have := h.outputPos_le_of_pColor hs hcolor
    simp only [Config.capacity_eq]
    omega

theorem State.Legal.ran {s : State} (h : s.Legal) {i : Instr} (hs : s.phase.site = some i.site) (p : Nat) :
    (s.ran i p).Legal := by
  unfold State.ran
  split
  · exact State.Legal.afterCode (h.atBit ‹_›) hs
  · exact h.cutCode hs p

theorem State.Legal.exec_fillStep {s : State} (h : s.Legal) (hs : s.phase = .pFill) : exec .fillStep s = .next s.filled :=
  exec_fillStep_inside (by have := h.fillLoop hs; simp only [Config.capacity_eq]; omega)

/-- START clears `ERR` with the phase it leaves, and puts every register with a range at its lower end. -/
theorem State.Legal.started {s : State} (h : s.Legal) {p : Phase} (hp : p = .lCode ∨ p = .pRun) :
    ((s.setErr 0#3).started p).Legal :=
  { h with
    cursor := (h.atBit (Nat.zero_le _)).cursor
    outLen := by simp [State.started]
    outputPos := by simp [State.started]
    mainLoop := by simp [State.started]
    stampLoop := by obtain rfl | rfl := hp <;> simp [State.started]
    fillLoop := by obtain rfl | rfl := hp <;> simp [State.started]
    err := by obtain rfl | rfl := hp <;> simp [State.started]
    lut := ⟨Memory.wf_cleared, Memory.within_cleared _⟩
    pb := ⟨Memory.wf_cleared, Memory.within_cleared _⟩ }

theorem State.Legal.exec_start {s t : State} (h : s.Legal) (hexec : exec .start s = .next t) : t.Legal := by
  rw [exec_start_eq] at hexec
  rw [← Host.Outcome.next.inj hexec]
  split
  · exact h
  split
  · exact h.withError _
  split
  · exact h.started (.inl rfl)
  split
  · exact h.started (.inr rfl)
  · exact h.withError _

/-! ### The step -/

/-- In a stream phase the sequencer runs a code of that phase, the one its bits decode to. -/
theorem sequencerStep_code {s : State} {site : DecodeSite} (hs : s.phase.site = some site) :
    ∃ i rest, decode site (fetchBits s) = .code i rest ∧ i.site = site ∧ sequencerStep s = exec i s := by
  have hlen : Config.maxCodeBits ≤ (fetchBits s).length := by
    rw [fetchBits, List.length_append, List.length_replicate]
    omega
  obtain ⟨i, rest, hcode, hsite⟩ := decode_findsCode (Phase.site_stream hs) hlen
  exact ⟨i, rest, hcode, hsite, by simp only [sequencerStep_site hs, runCodeAt, hcode]⟩

/-- The phases without codes. -/
theorem Phase.site_eq_none {ph : Phase} (h : ph.site = none) : ph = .pFill ∨ ph = .idle ∨ ph = .done ∨ ph = .error := by
  cases ph <;> simp [Phase.site] at h ⊢

theorem State.Legal.sequencerStep {s t : State} (h : s.Legal) (hstep : sequencerStep s = .next t) : t.Legal := by
  cases hs : s.phase.site with
  | some site =>
    obtain ⟨i, -, -, rfl, hcode⟩ := sequencerStep_code hs
    rw [hcode, h.exec_code hs] at hstep
    rw [← Host.Outcome.next.inj hstep]
    exact h.ran hs _
  | none =>
    obtain hfill | hhalted := Phase.site_eq_none hs
    · rw [sequencerStep_fill hfill, h.exec_fillStep hfill] at hstep
      rw [← Host.Outcome.next.inj hstep]
      exact h.filled hfill
    · rw [sequencerStep_halted hhalted] at hstep
      rwa [← Host.Outcome.next.inj hstep]

theorem State.Legal.hostAccess {s t : State} (h : s.Legal) {a : HostAccess} (haccess : hostAccess a s = .next t) :
    t.Legal := by
  obtain rfl | ⟨-, ⟨addr, v, -, haddr, rfl⟩ | ⟨n, -, rfl⟩ | ⟨-, hstart⟩⟩ := hostAccess_cases haccess
  · exact h
  · exact h.writeCb v haddr
  · exact h.setInLen n
  · exact h.exec_start hstart

/-- Settles O41: the sequencer's step and every access of the host keep a state legal. -/
theorem stepKeepsTheStateLegal : Obligations.StepKeepsTheStateLegal := by
  unfold Obligations.StepKeepsTheStateLegal
  intro s t h hstep
  obtain ⟨s0, hpass, heq⟩ | ⟨a, later, -, heq⟩ := step_cases s
  · obtain ⟨-, later, rfl⟩ := step_hostPasses hpass
    exact (h.setHostSlots later).sequencerStep (heq.symm.trans hstep)
  · exact (h.setHostSlots later).hostAccess (heq.symm.trans hstep)

/-- Settles O40: the values assumption 2 names are in range, and the memories list nothing. -/
theorem resetStateIsLegal : Obligations.ResetStateIsLegal := by
  unfold Obligations.ResetStateIsLegal
  constructor <;> decide

end Sys2Proof.Machine
end

section
/-!
PROOF. The relational invariant of O50: two states that agree on what their phase reads still agree after the same operation,
so after the same step. As in the proof that steps keep a state legal, positions are written after the phase.
-/

namespace Sys2Proof.Machine

/-! ### Writing one register or memory on both sides -/

/-- The inputs two cores share: all but `CB[1]` (R28, R67). -/
def State.SharesInputs (s1 s2 : State) : Prop :=
  s1.inLen = s2.inLen ∧ (∀ a, a ≠ 1 → s1.readCb a = s2.readCb a) ∧ s1.hostSlots = s2.hostSlots

theorem State.Agrees.sharesInputs {s1 s2 : State} (h : s1.Agrees s2) : s1.SharesInputs s2 := ⟨h.inLen, h.cb, h.hostSlots⟩

/-- The errors of two cores that share their inputs agree whatever else the cores hold. -/
theorem State.SharesInputs.withError {s1 s2 : State} (h : s1.SharesInputs s2) (e : DecodeError) :
    (s1.withError e).Agrees (s2.withError e) := by
  obtain ⟨hinLen, hcb, hslots⟩ := h
  exact {
    phase := rfl
    err := rfl
    inLen := hinLen
    cb := hcb
    hostSlots := hslots
    cursor := by simp [Phase.site]
    formatL := by simp
    formatP := by simp
    stamp := by simp
    fill := by simp
    pb := by simp [Phase.busy, Phase.status] }

theorem State.SharesInputs.started {s1 s2 : State} (h : s1.SharesInputs s2) {p : Phase} (hp : p = .lCode ∨ p = .pRun) :
    ((s1.setErr 0#3).started p).Agrees ((s2.setErr 0#3).started p) := by
  obtain ⟨hinLen, hcb, hslots⟩ := h
  exact {
    phase := rfl
    err := rfl
    inLen := hinLen
    cb := hcb
    hostSlots := hslots
    cursor := fun _ => ⟨rfl, rfl⟩
    formatL := fun _ => ⟨rfl, fun _ => rfl⟩
    formatP := fun _ => rfl
    stamp := by obtain rfl | rfl := hp <;> simp [State.started]
    fill := by obtain rfl | rfl := hp <;> simp [State.started]
    pb := fun _ _ => rfl }

theorem State.Agrees.withError {s1 s2 : State} (h : s1.Agrees s2) (e : DecodeError) :
    (s1.withError e).Agrees (s2.withError e) := h.sharesInputs.withError e

theorem State.Agrees.overrun {s1 s2 : State} (h : s1.Agrees s2) : s1.overrun.Agrees s2.overrun := by
  have hin : (s1.atBit Config.payloadBits).SharesInputs (s2.atBit Config.payloadBits) := h.sharesInputs
  exact hin.withError .streamOverrun

theorem State.Agrees.atBit {s1 s2 : State} (h : s1.Agrees s2) (p : Nat) : (s1.atBit p).Agrees (s2.atBit p) :=
  { h with cursor := fun _ => ⟨rfl, rfl⟩ }

/-- From a running decode the phase may become any whose registers agree. -/
theorem State.Agrees.setPhase {s1 s2 : State} (h : s1.Agrees s2) {p : Phase} (hbusy : s1.phase.busy = true)
    (hcursor : p.site ≠ none → s1.phase.site ≠ none)
    (hformatL : p = .lCode → s1.phase = .lCode)
    (hformatP : p = .pRun ∨ p = .pColor ∨ p = .pStamp → s1.phase = .pRun ∨ s1.phase = .pColor ∨ s1.phase = .pStamp)
    (hstamp : p = .pStamp → s1.stampPos = s2.stampPos ∧ s1.col = s2.col)
    (hfill : p = .pFill → s1.fillPos = s2.fillPos ∧ s1.carry = s2.carry) : (s1.setPhase p).Agrees (s2.setPhase p) :=
  { h with
    phase := rfl
    cursor := fun hp => h.cursor (hcursor hp)
    formatL := fun hp => h.formatL (hformatL hp)
    formatP := fun hp => h.formatP (hformatP hp)
    stamp := hstamp
    fill := hfill
    pb := fun _ => h.pb (.inl hbusy) }

theorem State.Agrees.setOutputPos {s1 s2 : State} (h : s1.Agrees s2) (a : Nat) :
    (s1.setOutputPos a).Agrees (s2.setOutputPos a) := { h with formatP := fun _ => rfl }

theorem State.Agrees.setStampPos {s1 s2 : State} (h : s1.Agrees s2) (a : Nat) :
    (s1.setStampPos a).Agrees (s2.setStampPos a) := { h with stamp := fun hs => ⟨rfl, (h.stamp hs).2⟩ }

theorem State.Agrees.setCol {s1 s2 : State} (h : s1.Agrees s2) (c : Rgb) : (s1.setCol c).Agrees (s2.setCol c) :=
  { h with stamp := fun hs => ⟨(h.stamp hs).1, rfl⟩ }

theorem State.Agrees.setFillPos {s1 s2 : State} (h : s1.Agrees s2) (a : Nat) :
    (s1.setFillPos a).Agrees (s2.setFillPos a) := { h with fill := fun hs => ⟨rfl, (h.fill hs).2⟩ }

theorem State.Agrees.setCarry {s1 s2 : State} (h : s1.Agrees s2) (c : Rgb) : (s1.setCarry c).Agrees (s2.setCarry c) :=
  { h with fill := fun hs => ⟨(h.fill hs).1, rfl⟩ }

theorem State.Agrees.setInLen {s1 s2 : State} (h : s1.Agrees s2) (n : BitVec 32) : (s1.setInLen n).Agrees (s2.setInLen n) :=
  { h with inLen := rfl }

theorem State.Agrees.setHostSlots {s1 s2 : State} (h : s1.Agrees s2) (later : List (Option HostAccess)) :
    (s1.setHostSlots later).Agrees (s2.setHostSlots later) := { h with hostSlots := rfl }

/-- One write to two memories that read alike at an address. -/
theorem Memory.read_write_congr {m1 m2 : Memory} {x : Nat} (h : m1.read x = m2.read x) (a : Nat) (v : Byte) :
    (m1.write a v).read x = (m2.write a v).read x := by
  rw [Memory.read_write, Memory.read_write, h]

theorem Memory.read_writeTriple_congr {m1 m2 : Memory} {x : Nat} (h : m1.read x = m2.read x) (a : Nat) (c : Rgb) :
    (m1.writeTriple a c).read x = (m2.writeTriple a c).read x := by
  rw [Memory.read_writeTriple, Memory.read_writeTriple, h]

theorem State.Agrees.writeCb {s1 s2 : State} (h : s1.Agrees s2) (a : Nat) (v : Byte) :
    (s1.setCb (s1.cb.write a v)).Agrees (s2.setCb (s2.cb.write a v)) :=
  { h with cb := fun x hx => Memory.read_write_congr (h.cb x hx) a v }

theorem State.Agrees.writeTriple {s1 s2 : State} (h : s1.Agrees s2) (a : Nat) (c : Rgb) :
    (s1.setPb (s1.pb.writeTriple a c)).Agrees (s2.setPb (s2.pb.writeTriple a c)) :=
  { h with pb := fun hs x => Memory.read_writeTriple_congr (h.pb hs x) a c }

theorem State.readTriple_congr {s1 s2 : State} (h : ∀ a, s1.readPb a = s2.readPb a) (a : Nat) :
    s1.readTriple a = s2.readTriple a := by
  simp only [State.readTriple, h]

/-! ### FormatL -/

theorem State.Agrees.appended {s1 s2 : State} (h : s1.Agrees s2) (hs : s1.phase = .lCode) (v : Byte) :
    (s1.appended v).Agrees (s2.appended v) := by
  obtain ⟨houtLen, hlut⟩ := h.formatL hs
  unfold State.appended
  rw [houtLen]
  exact { h with
    formatL := fun _ => ⟨rfl, fun x => Memory.read_write_congr (hlut x) _ v⟩
    pb := fun hp x => Memory.read_write_congr (h.pb hp x) _ v }

theorem State.Agrees.copied {s1 s2 : State} (h : s1.Agrees s2) (hs : s1.phase = .lCode) (offset count i : Nat) :
    (s1.copied offset count i).Agrees (s2.copied offset count i) := by
  induction count generalizing i s1 s2 with
  | zero => exact h
  | succ k ih =>
    unfold State.copied
    rw [(h.formatL hs).2]
    exact ih (h.appended hs _) hs (i + 1)

/-! ### FormatP and the gap-fill pass -/

theorem State.Agrees.fillEntered {s1 s2 : State} (h : s1.Agrees s2) (hbusy : s1.phase.busy = true) :
    s1.fillEntered.Agrees s2.fillEntered :=
  ((h.setFillPos 0).setCarry Rgb.zero).setPhase hbusy (by simp [Phase.site]) (by simp) (by simp) (by simp)
    fun _ => ⟨rfl, rfl⟩

theorem State.Agrees.runAdvanced {s1 s2 : State} (h : s1.Agrees s2) (hs : s1.phase = .pRun) (n : Nat) :
    (s1.runAdvanced n).Agrees (s2.runAdvanced n) := by
  have hbusy : s1.phase.busy = true := by rw [hs]; rfl
  unfold State.runAdvanced
  rw [h.formatP (.inl hs)]
  split
  · exact (h.fillEntered hbusy).setOutputPos _
  · exact (h.setOutputPos _).setPhase hbusy (by simp [hs, Phase.site]) (by simp) (fun _ => .inl hs) (by simp) (by simp)

theorem State.Agrees.pixelClosed {s1 s2 : State} (h : s1.Agrees s2) (hs : s1.phase = .pColor ∨ s1.phase = .pStamp) :
    s1.pixelClosed.Agrees s2.pixelClosed := by
  have hbusy : s1.phase.busy = true := by obtain hs | hs := hs <;> rw [hs] <;> rfl
  have hsite : s1.phase.site ≠ none := by obtain hs | hs := hs <;> rw [hs] <;> decide
  unfold State.pixelClosed
  rw [h.formatP (.inr hs)]
  split
  · exact (h.setOutputPos _).setPhase hbusy (fun _ => hsite) (by simp) (fun _ => .inr hs) (by simp) (by simp)
  · exact (h.fillEntered hbusy).setOutputPos _

theorem State.Agrees.stampAdvanced {s1 s2 : State} (h : s1.Agrees s2) (hs : s1.phase = .pStamp) (inc : Nat) :
    (s1.stampAdvanced inc).Agrees (s2.stampAdvanced inc) := by
  obtain ⟨hstampPos, hcol⟩ := h.stamp hs
  unfold State.stampAdvanced State.stamped
  rw [hstampPos, hcol]
  split
  · exact (h.setStampPos _).pixelClosed (.inr hs)
  · have hwritten := (h.writeTriple (s2.stampPos + inc) s2.col).setStampPos (s2.stampPos + inc)
    exact hwritten.setPhase (by simp [hs, Phase.busy, Phase.status]) (by simp [hs, Phase.site]) (by simp)
      (fun _ => .inr (.inr hs)) (fun _ => ⟨rfl, hcol⟩) (by simp)

theorem State.Agrees.colored {s1 s2 : State} (h : s1.Agrees s2) (hs : s1.phase = .pColor) (c : Rgb) :
    (s1.colored c).Agrees (s2.colored c) := by
  unfold State.colored
  rw [h.formatP (.inr (.inl hs))]
  exact (h.writeTriple _ c).setCol c

theorem State.Agrees.pixelFilled {s1 s2 : State} (h : s1.Agrees s2) (hs : s1.phase = .pFill) :
    s1.pixelFilled.Agrees s2.pixelFilled := by
  obtain ⟨hfillPos, hcarry⟩ := h.fill hs
  have hbusy : s1.phase.busy = true := by rw [hs]; rfl
  unfold State.pixelFilled
  rw [hfillPos, hcarry, State.readTriple_congr (h.pb (.inl hbusy))]
  split
  · exact h.writeTriple _ _
  · exact h.setCarry _

theorem State.Agrees.filled {s1 s2 : State} (h : s1.Agrees s2) (hs : s1.phase = .pFill) : s1.filled.Agrees s2.filled := by
  have hpixel := h.pixelFilled hs
  have hbusy : s1.pixelFilled.phase.busy = true := by rw [State.pixelFilled_phase, hs]; rfl
  rw [State.filled_eq_pixelFilled, State.filled_eq_pixelFilled, (h.fill hs).1]
  split
  · exact (hpixel.setPhase (p := .done) hbusy (by simp [Phase.site]) (by simp) (by simp) (by simp) (by simp)).setFillPos _
  · exact hpixel.setFillPos _

/-! ### The instructions -/

theorem State.Agrees.afterCode {s1 s2 : State} (h : s1.Agrees s2) {i : Instr} (hs : s1.phase.site = some i.site) :
    (s1.afterCode i).Agrees (s2.afterCode i) := by
  have hphase := Phase.site_eq_some hs
  have hbusy := Phase.busy_of_site hs
  have hsite : s1.phase.site ≠ none := by simp [hs]
  obtain ⟨v, rfl⟩ | ⟨o, n, rfl⟩ | rfl | ⟨len, n, hrun⟩ | rfl | ⟨r, g, b, stamp, rfl⟩ | rfl | ⟨len, inc, hstamp⟩ :=
    streamCode_shapes (isStreamCode_of_site hs)
  · have hphase : s1.phase = .lCode := hphase
    change State.Agrees (if _ then _ else _) (if _ then _ else _)
    rw [(h.formatL hphase).1]
    split
    · exact (h.appended hphase v).setPhase hbusy (fun _ => hsite) (fun _ => hphase) (by simp) (by simp) (by simp)
    · exact h.withError _
  · have hphase : s1.phase = .lCode := hphase
    change State.Agrees (if _ then _ else _) (if _ then _ else _)
    rw [(h.formatL hphase).1]
    split
    · have hkept := (State.copied_frame o.toNat (n.toNat + 3) 0 s1).1
      exact (h.copied hphase _ _ _).setPhase (by rwa [hkept]) (fun _ => by rwa [hkept]) (fun _ => hkept.trans hphase)
        (by simp) (by simp) (by simp)
    · exact (h.copied hphase _ _ _).withError _
  · exact h.setPhase hbusy (by simp [Phase.site]) (by simp) (by simp) (by simp) (by simp)
  · rw [State.afterCode_run hrun, State.afterCode_run hrun]
    exact h.runAdvanced (hphase.trans (by rw [site_run hrun]; rfl)) n
  · exact h.fillEntered hbusy
  · have hphase : s1.phase = .pColor := hphase
    have hcolored := h.colored hphase ⟨r, g, b⟩
    change State.Agrees (if _ then _ else _) (if _ then _ else _)
    split
    · rw [h.formatP (.inr (.inl hphase))]
      exact (hcolored.setStampPos s2.outputPos).setPhase hbusy (fun _ => hsite) (by simp) (fun _ => .inr (.inl hphase))
        (fun _ => ⟨rfl, rfl⟩) (by simp)
    · exact hcolored.pixelClosed (.inl hphase)
  · exact h.pixelClosed (.inr hphase)
  · rw [State.afterCode_stamp hstamp, State.afterCode_stamp hstamp]
    exact h.stampAdvanced (hphase.trans (by rw [site_stamp hstamp]; rfl)) inc

theorem State.Agrees.cutCode {s1 s2 : State} (h : s1.Agrees s2) {i : Instr} (hs : s1.phase.site = some i.site) (p : Nat) :
    (s1.cutCode i p).Agrees (s2.cutCode i p) := by
  unfold State.cutCode
  split
  · split
    · exact (h.colored (Phase.site_eq_some hs) _).overrun
    · exact h.overrun
  · exact h.overrun

theorem State.Agrees.ran {s1 s2 : State} (h : s1.Agrees s2) {i : Instr} (hs : s1.phase.site = some i.site) (p : Nat) :
    (s1.ran i p).Agrees (s2.ran i p) := by
  unfold State.ran
  split
  · exact (h.atBit _).afterCode hs
  · exact h.cutCode hs p

/-- START of two cores that share their inputs, and of which none is busy, leaves two that agree. -/
theorem State.SharesInputs.exec_start {s1 s2 : State} (h : s1.SharesInputs s2) (h1 : s1.phase.busy = false)
    (h2 : s2.phase.busy = false) :
    ∃ t1 t2, exec .start s1 = .next t1 ∧ exec .start s2 = .next t2 ∧ t1.Agrees t2 := by
  have hidle1 : ¬ s1.phase.busy = true := by simp [h1]
  have hidle2 : ¬ s2.phase.busy = true := by simp [h2]
  refine ⟨_, _, exec_start_eq s1, exec_start_eq s2, ?_⟩
  rw [if_neg hidle1, if_neg hidle2, h.1, h.2.1 0 (by decide)]
  split
  · exact h.withError _
  split
  · exact h.started (.inl rfl)
  split
  · exact h.started (.inr rfl)
  · exact h.withError _

/-! ### The step -/

/-- The decoder sees the same bits: the payload begins behind `CB[1]`. -/
theorem State.Agrees.fetchBits {s1 s2 : State} (h : s1.Agrees s2) (h1 : s1.Legal) (hs : s1.phase.site ≠ none) :
    fetchBits s1 = fetchBits s2 := by
  obtain ⟨hbyte, hmask⟩ := h.cursor hs
  have hc2 : s2.CursorAt s1.bitPos := ⟨hbyte.symm.trans h1.cursor.1.1, hmask.symm.trans h1.cursor.1.2⟩
  have hbit : s1.payloadBit = s2.payloadBit := by
    funext p
    simp only [State.payloadBit, h.cb (2 + p / 8) (by omega)]
  rw [fetchBits_at h1.cursor.1 h1.cursor.2, fetchBits_at hc2 h1.cursor.2, State.payloadFrom, State.payloadFrom, hbit]

theorem State.Agrees.bitPos {s1 s2 : State} (h : s1.Agrees s2) (hs : s1.phase.site ≠ none) : s1.bitPos = s2.bitPos := by
  obtain ⟨hbyte, hmask⟩ := h.cursor hs
  rw [State.bitPos, State.bitPos, hbyte, hmask]

/-- From legal states that agree the sequencer steps to two that agree. -/
theorem State.Agrees.sequencerStep {s1 s2 : State} (h : s1.Agrees s2) (h1 : s1.Legal) (h2 : s2.Legal) :
    ∃ t1 t2, sequencerStep s1 = .next t1 ∧ sequencerStep s2 = .next t2 ∧ t1.Agrees t2 := by
  cases hs : s1.phase.site with
  | some site =>
    have hne : s1.phase.site ≠ none := by simp [hs]
    obtain ⟨i, rest, hcode, rfl, hstep1⟩ := sequencerStep_code hs
    have hs2 : s2.phase.site = some i.site := h.phase ▸ hs
    obtain ⟨i2, rest2, hcode2, -, hstep2⟩ := sequencerStep_code hs2
    obtain ⟨rfl, -⟩ := DecodeResult.code.inj ((h.fetchBits h1 hne ▸ hcode).symm.trans hcode2)
    refine ⟨s1.ran i s1.bitPos, s2.ran i s2.bitPos, hstep1.trans (h1.exec_code hs), hstep2.trans (h2.exec_code hs2), ?_⟩
    rw [h.bitPos hne]
    exact h.ran hs _
  | none =>
    obtain hfill | hhalted := Phase.site_eq_none hs
    · have hfill2 : s2.phase = .pFill := h.phase ▸ hfill
      exact ⟨s1.filled, s2.filled, (sequencerStep_fill hfill).trans (h1.exec_fillStep hfill),
        (sequencerStep_fill hfill2).trans (h2.exec_fillStep hfill2), h.filled hfill⟩
    · exact ⟨s1, s2, sequencerStep_halted hhalted, sequencerStep_halted (h.phase ▸ hhalted), h⟩

/-- The same access of the host to two cores that agree. -/
theorem State.Agrees.hostAccess {s1 s2 t1 : State} (h : s1.Agrees s2) {a : HostAccess} (haccess : hostAccess a s1 = .next t1) :
    ∃ t2, hostAccess a s2 = .next t2 ∧ t1.Agrees t2 := by
  have hphase : s2.phase = s1.phase := h.phase.symm
  cases a with
  | writeCb addr v =>
    simp only [Machine.hostAccess, hphase] at haccess ⊢
    split_ifs at haccess ⊢
    rw [← Host.Outcome.next.inj haccess]
    exact ⟨_, rfl, h.writeCb addr v⟩
  | writeInLen n =>
    simp only [Machine.hostAccess, hphase] at haccess ⊢
    split_ifs at haccess ⊢
    rw [← Host.Outcome.next.inj haccess]
    exact ⟨_, rfl, h.setInLen n⟩
  | writeCtrl startBit =>
    simp only [Machine.hostAccess] at haccess ⊢
    split_ifs at haccess ⊢
    · cases hbusy : s1.phase.busy with
      | false =>
        obtain ⟨u1, u2, hu1, hu2, hagree⟩ := h.sharesInputs.exec_start hbusy (hphase ▸ hbusy)
        rw [← Host.Outcome.next.inj (hu1.symm.trans haccess)]
        exact ⟨u2, hu2, hagree⟩
      | true =>
        rw [exec_start_eq, if_pos hbusy] at haccess
        rw [← Host.Outcome.next.inj haccess]
        exact ⟨s2, by rw [exec_start_eq, if_pos (hphase ▸ hbusy)], h⟩
    · rw [← Host.Outcome.next.inj haccess]
      exact ⟨s2, rfl, h⟩
  | readCtrl | readStatus | readErr =>
    rw [← Host.Outcome.next.inj haccess]
    exact ⟨s2, rfl, h⟩
  | readPb addr =>
    simp only [Machine.hostAccess, hphase] at haccess ⊢
    split_ifs at haccess ⊢
    rw [← Host.Outcome.next.inj haccess]
    exact ⟨s2, rfl, h⟩

/-- Where the host passes at one core, it passes at the other. -/
theorem State.Agrees.hostPasses {s1 s2 u1 : State} (h : s1.Agrees s2) (hpass : s1.HostPasses u1) :
    ∃ u2, s2.HostPasses u2 ∧ u1.Agrees u2 := by
  obtain ⟨hslots, rfl⟩ | ⟨later, hslots, rfl⟩ := hpass
  · exact ⟨s2, .inl ⟨h.hostSlots ▸ hslots, rfl⟩, h⟩
  · exact ⟨s2.setHostSlots later, .inr ⟨later, h.hostSlots ▸ hslots, rfl⟩, h.setHostSlots later⟩

theorem State.Legal.hostPasses {s s0 : State} (h : s.Legal) (hpass : s.HostPasses s0) : s0.Legal := by
  obtain ⟨-, later, rfl⟩ := step_hostPasses hpass
  exact h.setHostSlots later

theorem step_hostAccess {s : State} {a : HostAccess} {later : List (Option HostAccess)}
    (h : s.hostSlots = some a :: later) : step s = hostAccess a (s.setHostSlots later) := by
  simp only [step, stepMachine, h]

/-- Settles O50: the sequencer's step and every access of the host keep the agreement. -/
theorem stepKeepsTheAgreement : Obligations.StepKeepsTheAgreement := by
  unfold Obligations.StepKeepsTheAgreement
  intro s1 s2 t1 h1 h2 h hstep
  obtain ⟨u1, hpass1, heq1⟩ | ⟨a, later, hslots, heq1⟩ := step_cases s1
  · obtain ⟨u2, hpass2, hu⟩ := h.hostPasses hpass1
    obtain ⟨v1, v2, hv1, hv2, hagree⟩ := hu.sequencerStep (h1.hostPasses hpass1) (h2.hostPasses hpass2)
    rw [← Host.Outcome.next.inj ((heq1.trans hv1).symm.trans hstep)]
    exact ⟨v2, (step_hostPasses hpass2).1.trans hv2, hagree⟩
  · obtain ⟨t2, ht2, hagree⟩ := (h.setHostSlots later).hostAccess (heq1.symm.trans hstep)
    exact ⟨t2, (step_hostAccess (h.hostSlots ▸ hslots)).trans ht2, hagree⟩

/-! ### Any number of steps -/

theorem sequencerStep_inputs {s t : State} (h : sequencerStep s = .next t) : t.inputs = s.inputs := by
  cases hs : s.phase.site with
  | some site =>
    obtain ⟨i, -, -, -, hcode⟩ := sequencerStep_code hs
    exact exec_inputs (hcode.symm.trans h)
  | none =>
    obtain hfill | hhalted := Phase.site_eq_none hs
    · exact exec_inputs ((sequencerStep_fill hfill).symm.trans h)
    · rw [sequencerStep_halted hhalted] at h
      rw [← Host.Outcome.next.inj h]

theorem runSteps_succ {s t : State} (n : Nat) (h : step s = .next t) : runSteps (n + 1) s = runSteps n t := by
  simp only [runSteps, h, nextState]

/-- Left alone by the host, two legal cores that agree run on, and agree after any number of steps. -/
theorem State.Agrees.runSteps {s1 s2 : State} (n : Nat) (h : s1.Agrees s2) (h1 : s1.Legal) (h2 : s2.Legal)
    (hslots : s1.hostSlots = []) : ∃ t1 t2, runSteps n s1 = some t1 ∧ runSteps n s2 = some t2 ∧ t1.Agrees t2 := by
  induction n generalizing s1 s2 with
  | zero => exact ⟨s1, s2, rfl, rfl, h⟩
  | succ n ih =>
    obtain ⟨u1, u2, hu1, hu2, hagree⟩ := h.sequencerStep h1 h2
    have hstep1 := (step_hostPasses (s := s1) (.inl ⟨hslots, rfl⟩)).1.trans hu1
    have hstep2 := (step_hostPasses (s := s2) (.inl ⟨h.hostSlots ▸ hslots, rfl⟩)).1.trans hu2
    rw [runSteps_succ n hstep1, runSteps_succ n hstep2]
    obtain ⟨-, -, hslotsKept⟩ := State.inputs_eq_iff.mp (sequencerStep_inputs hu1)
    exact ih hagree (h1.sequencerStep hu1) (h2.sequencerStep hu2) (hslotsKept.trans hslots)

/-- Settles O48: START makes the two cores agree, whatever they held, and every later step keeps that. -/
theorem outcomeDependsOnTheInputAlone : Obligations.OutcomeDependsOnTheInputAlone := by
  unfold Obligations.OutcomeDependsOnTheInputAlone
  intro s1 s2 k h1 h2 hidle1 hidle2 hinLen hcb hslots1 hslots2
  have hinputs : (s1.setHostSlots []).SharesInputs (s2.setHostSlots []) := ⟨hinLen, hcb, rfl⟩
  obtain ⟨u1, u2, hu1, hu2, hagree⟩ := hinputs.exec_start hidle1 hidle2
  obtain ⟨-, -, hslots⟩ := State.inputs_eq_iff.mp (exec_inputs hu1)
  obtain ⟨t1, t2, ht1, ht2, hend⟩ :=
    hagree.runSteps k ((h1.setHostSlots []).exec_start hu1) ((h2.setHostSlots []).exec_start hu2) hslots
  refine ⟨t1, t2, ?_, ?_, hend.phase, hend.err, fun hdone => hend.pb (.inr hdone)⟩
  · rw [runSteps_succ k ((step_hostAccess hslots1).trans hu1), ht1]
  · rw [runSteps_succ k ((step_hostAccess hslots2).trans hu2), ht2]

end Sys2Proof.Machine
end

section
/-!
PROOF. START and the tags, the reset state, and the host's accesses: each read off what the operation answers.
-/

namespace Sys2Proof.Machine

/-! ### START -/

theorem exec_start_known {s : State} (hidle : s.phase.busy = false) (hlen : 921600 ≤ s.inLen.toNat)
    (htag : s.readCb 0 = 0x4C#8 ∨ s.readCb 0 = 0x50#8) :
    exec .start s = .next ((s.setErr 0#3).started (if s.readCb 0 = 0x4C#8 then .lCode else .pRun)) := by
  have hshort : ¬ s.inLen.toNat < Config.blockSize := Nat.not_lt.mpr hlen
  rw [exec_start_eq, if_neg (by simp [hidle]), if_neg hshort]
  obtain htag | htag := htag
  · rw [if_pos htag, if_pos htag]
  · have hother : s.readCb 0 ≠ 0x4C#8 := by rw [htag]; decide
    rw [if_neg hother, if_neg hother, if_pos htag]

/-- Settles O16: the state is the started one of the tag's format, with `ERR` cleared. -/
theorem startInitialisesTheDecode : Obligations.StartInitialisesTheDecode := by
  unfold Obligations.StartInitialisesTheDecode
  intro s hidle hlen htag
  refine ⟨_, exec_start_known hidle hlen htag, rfl, fun _ => rfl, fun _ => rfl, rfl, rfl, rfl, rfl, rfl, fun hl => if_pos hl,
    fun hp => if_neg ?_, rfl, rfl, rfl, rfl, rfl, rfl⟩
  rw [hp]
  decide

/-- Settles O20: both tags start the decode, each in the phase of its format. -/
theorem tagsSelectTheirFormat : Obligations.TagsSelectTheirFormat := by
  unfold Obligations.TagsSelectTheirFormat
  rintro i s (rfl | rfl)
  · exact ⟨s.started .lCode, exec_tagL s, fun _ => rfl, nofun, ⟨rfl, rfl⟩, rfl, rfl, rfl, fun _ => rfl, fun _ => rfl, rfl, rfl,
      rfl, rfl, rfl, rfl, rfl⟩
  · exact ⟨s.started .pRun, exec_tagP s, nofun, fun _ => rfl, ⟨rfl, rfl⟩, rfl, rfl, rfl, fun _ => rfl, fun _ => rfl, rfl, rfl,
      rfl, rfl, rfl, rfl, rfl⟩

/-! ### Steps without a code -/

theorem hostAccess_start (s : State) : hostAccess (.writeCtrl 1#1) s = exec .start s := rfl

/-- Settles O10: where the host passes the step is the sequencer's, and a write of `CTRL.START` is an access of the host. -/
theorem stepWithoutACode : Obligations.StepWithoutACode := by
  unfold Obligations.StepWithoutACode
  intro s s0
  refine ⟨fun hpass hfill => ?_, fun hpass hhalted => ?_, fun later hslots => ?_⟩
  · obtain ⟨hstep, later, rfl⟩ := step_hostPasses hpass
    exact hstep.trans (sequencerStep_fill (s := s.setHostSlots later) hfill)
  · obtain ⟨hstep, later, rfl⟩ := step_hostPasses hpass
    exact hstep.trans (sequencerStep_halted (s := s.setHostSlots later) hhalted)
  · rw [step_hostAccess hslots, hostAccess_start]

/-- Settles O19: START's own guard makes the write of 1 harmless while BUSY. -/
theorem controlStartIsIgnoredWhileBusy : Obligations.ControlStartIsIgnoredWhileBusy := by
  unfold Obligations.ControlStartIsIgnoredWhileBusy
  intro s
  have hignored (hbusy : s.phase.busy = true) : exec .start s = .next s := by rw [exec_start_eq, if_pos hbusy]
  exact ⟨fun hbusy => ⟨hignored hbusy, (hostAccess_start s).trans (hignored hbusy)⟩, fun _ => hostAccess_start s,
    rfl, rfl⟩

/-! ### Reset and the host's contract -/

/-- Settles O21: the values R26 states. -/
theorem resetLeavesTheCoreIdle : Obligations.ResetLeavesTheCoreIdle := ⟨rfl, rfl, rfl, rfl⟩

/-- Settles O22, phase by phase. -/
theorem statusIsAFunctionOfThePhase : Obligations.StatusIsAFunctionOfThePhase := by
  unfold Obligations.StatusIsAFunctionOfThePhase
  intro s
  simp only [hostReadValue]
  cases s.phase <;> decide

/-- Settles O23: each access is decided by the phase, and a write of `CB` is one write of its memory. -/
theorem hostAccessesKeepTheContract : Obligations.HostAccessesKeepTheContract := by
  unfold Obligations.HostAccessesKeepTheContract
  intro s
  refine ⟨fun a v hidle ha => ?_, fun n hidle => ?_, fun a v hbusy => if_pos hbusy, fun n hbusy => if_pos hbusy,
    fun a hdone ha => ⟨?_, if_pos ⟨hdone, ha⟩⟩, fun a hdone => ⟨if_neg hdone, if_neg fun h => hdone h.1⟩, rfl, rfl, rfl⟩
  · refine ⟨s.setCb (s.cb.write a v), ?_, Memory.read_write_same _ _ _, fun b hb => Memory.read_write_other _ _ hb, rfl⟩
    simp only [hostAccess, hidle, Bool.false_eq_true, if_false]
    exact if_pos ha
  · simp only [hostAccess, hidle, Bool.false_eq_true, if_false]
    rfl
  · exact (if_pos hdone).trans (if_pos ha)

end Sys2Proof.Machine
end

section
/-!
PROOF. Progress and the lookup table: a legal state always has a next one, and the codes of FormatP and the gap-fill pass
commute with replacing `LUT`. For the latter every sub-step they are made of is shown to commute, and sequencing to keep that.
-/

namespace Sys2Proof.Machine

/-! ### Progress -/

/-- A legal state has a next one: the code its phase reads runs, the pass is at a pixel of `PB`, or nothing is to be done. -/
theorem State.Legal.exists_sequencerStep {s : State} (h : s.Legal) : ∃ t, Machine.sequencerStep s = .next t := by
  cases hs : s.phase.site with
  | some site =>
    obtain ⟨i, -, -, rfl, hcode⟩ := sequencerStep_code hs
    exact ⟨_, hcode.trans (h.exec_code hs)⟩
  | none =>
    obtain hfill | hhalted := Phase.site_eq_none hs
    · exact ⟨_, (sequencerStep_fill hfill).trans (h.exec_fillStep hfill)⟩
    · exact ⟨_, sequencerStep_halted hhalted⟩

/-- Settles O42: where the host passes, the step is the sequencer's, on a state that is still legal. -/
theorem legalStateAlwaysSteps : Obligations.LegalStateAlwaysSteps := by
  unfold Obligations.LegalStateAlwaysSteps
  intro s s0 h hpass
  obtain ⟨t, ht⟩ := (h.hostPasses hpass).exists_sequencerStep
  exact ⟨t, (step_hostPasses hpass).1.trans ht⟩

/-! ### Sub-steps that ignore the table -/

/-- A sub-step's end with the table replaced. -/
def Flow.setLut {α : Type} (m : Memory) : Flow α → Flow α
  | .go v s => .go v (s.setLut m)
  | .raised s => .raised (s.setLut m)
  | .fault f => .fault f
  | .refused r => .refused r

@[simp] theorem Flow.setLut_go {α : Type} (m : Memory) (v : α) (s : State) :
    (Flow.go v s).setLut m = .go v (s.setLut m) := rfl

@[simp] theorem Flow.setLut_raised {α : Type} (m : Memory) (s : State) :
    (Flow.raised s : Flow α).setLut m = .raised (s.setLut m) := rfl

/-- A sub-step that neither reads nor writes `LUT`: it ends the same way whatever the table, and leaves the table. -/
def IgnoresTable {α : Type} (op : State → Flow α) : Prop := ∀ s m, op (s.setLut m) = (op s).setLut m

/-- Sub-steps in sequence ignore the table if each does. -/
theorem IgnoresTable.andThen {α β : Type} {op : State → Flow α} {k : α → State → Flow β} (hop : IgnoresTable op)
    (hk : ∀ v, IgnoresTable (k v)) : IgnoresTable fun s => (op s).andThen k := by
  intro s m
  simp only [hop s m]
  cases op s with
  | go v t => exact hk v t m
  | raised t => rfl
  | fault f => rfl
  | refused r => rfl

/-- An instruction made of such a sub-step commutes with replacing the table. -/
theorem IgnoresTable.nextState_outcome {α : Type} {op : State → Flow α} (hop : IgnoresTable op) (s : State) (m : Memory) :
    nextState (op (s.setLut m)).outcome = (nextState (op s).outcome).map (·.setLut m) := by
  rw [hop s m]
  cases op s <;> rfl

/-- Reading a bit looks at `CB` and the cursor: branch by branch the table is only carried along. -/
theorem readBit_ignoresTable : IgnoresTable readBit := by
  intro s m
  unfold readBit
  simp only [apply_ite (Flow.setLut m), apply_ite (State.setLut · m), raise_eq, Flow.setLut_go, Flow.setLut_raised]
  rfl

theorem readBitsFrom_ignoresTable (n result : Nat) : IgnoresTable (readBitsFrom n result) := by
  induction n generalizing result with
  | zero => exact fun _ _ => rfl
  | succ k ih => exact readBit_ignoresTable.andThen fun _ => ih _

theorem takeBits_ignoresTable (n : Nat) : IgnoresTable (takeBits n) :=
  (readBitsFrom_ignoresTable n 0).andThen fun _ _ _ => rfl

theorem storePb_ignoresTable (a : Nat) (v : Byte) : IgnoresTable (storePb a v) := by
  intro s m
  unfold storePb
  split
  · rfl
  · rfl

theorem storeTriple_ignoresTable (a : Nat) (c : Rgb) : IgnoresTable (storeTriple a c) :=
  (storePb_ignoresTable a c.r).andThen fun _ =>
  (storePb_ignoresTable (a + 1) c.g).andThen fun _ =>
  storePb_ignoresTable (a + 2) c.b

theorem runAdvance_ignoresTable (n : Nat) : IgnoresTable (runAdvance n) := by
  intro s m
  rw [runAdvance_eq, runAdvance_eq, State.runAdvanced_eq, State.runAdvanced_eq]
  rfl

theorem nextPixel_ignoresTable : IgnoresTable nextPixel := by
  intro s m
  rw [nextPixel_eq, nextPixel_eq, State.pixelClosed_eq, State.pixelClosed_eq]
  rfl

theorem stampAdvance_ignoresTable (inc : Nat) : IgnoresTable (stampAdvance inc) := by
  intro s m
  rw [stampAdvance_eq, stampAdvance_eq, State.setLut_stampPos]
  split
  · rw [State.pixelClosed_eq, State.pixelClosed_eq]
    rfl
  · rfl

/-! ### The instructions of FormatP and the gap-fill pass -/

theorem exec_pColor_ignoresTable (r g b : Byte) (stamp : Bool) (s : State) (m : Memory) :
    nextState (exec (.pColor r g b stamp) (s.setLut m)) =
      (nextState (exec (.pColor r g b stamp) s)).map (·.setLut m) := by
  have hend : IgnoresTable fun s => if stamp then goPhase .pStamp (s.setStampPos s.outputPos) else nextPixel s := by
    cases stamp
    · exact nextPixel_ignoresTable
    · exact fun _ _ => rfl
  have hflag := (takeBits_ignoresTable 1).andThen fun _ => hend
  have hcolor : IgnoresTable fun s => storeTriple s.outputPos ⟨r, g, b⟩ s :=
    fun s => storeTriple_ignoresTable s.outputPos ⟨r, g, b⟩ s
  exact ((takeBits_ignoresTable 24).andThen fun _ => hcolor.andThen fun _ s =>
    hflag (s.setCol ⟨r, g, b⟩)).nextState_outcome s m

theorem exec_fillStep_ignoresTable (s : State) (m : Memory) :
    nextState (exec .fillStep (s.setLut m)) = (nextState (exec .fillStep s)).map (·.setLut m) := by
  by_cases hin : s.fillPos + 2 < Config.capacity
  · rw [exec_fillStep_inside hin, exec_fillStep_inside (s := s.setLut m) hin]
    change some (s.setLut m).filled = some (s.filled.setLut m)
    rw [State.filled_eq, State.filled_eq]
    rfl
  · have hout := Nat.le_of_not_lt hin
    rw [exec_fillStep_outside hout, exec_fillStep_outside (s := s.setLut m) hout]
    rfl

/-- Settles O44: each of the instructions is made of sub-steps that ignore the table. -/
theorem formatPIgnoresTheTable : Obligations.FormatPIgnoresTheTable := by
  unfold Obligations.FormatPIgnoresTheTable
  intro i s m hsite
  obtain rfl | rfl | rfl | rfl | ⟨n, happ⟩ | ⟨len, n, hrun⟩ | rfl | ⟨r, g, b, stamp, rfl⟩ | rfl | ⟨len, inc, hstamp⟩ :=
    instr_shapes i
  · exact absurd hsite (by decide)
  · exact absurd hsite (by decide)
  · exact absurd hsite (by decide)
  · exact exec_fillStep_ignoresTable s m
  · rw [site_append happ] at hsite
    exact absurd hsite (by decide)
  · rw [exec_run hrun, exec_run hrun]
    exact ((takeBits_ignoresTable len).andThen fun _ => runAdvance_ignoresTable n).nextState_outcome s m
  · exact ((takeBits_ignoresTable 23).andThen fun _ _ _ => rfl).nextState_outcome s m
  · exact exec_pColor_ignoresTable r g b stamp s m
  · exact ((takeBits_ignoresTable 3).andThen fun _ => nextPixel_ignoresTable).nextState_outcome s m
  · rw [exec_stamp hstamp, exec_stamp hstamp]
    exact ((takeBits_ignoresTable len).andThen fun _ => stampAdvance_ignoresTable inc).nextState_outcome s m

end Sys2Proof.Machine
end

section
/-!
PROOF. The decoder and the encoder of 30_encoding.md are inverse to each other: the decoder reads the encoder's bits as the
instruction they stand for (R53 to R57), and the bits it answers a code for begin with that code's encoding (R61).
-/

namespace Sys2Proof

/-! ### Decoding the encoder's bits -/

/-- The whole byte splits off, and the two letters are compared with it (R53, R65). -/
theorem decodeTag_fieldBits (b : Byte) (rest : List Bool) :
    decodeTag (fieldBits b ++ rest) =
      if b = Config.tagL then .code .tagL rest else if b = Config.tagP then .code .tagP rest else .illegalTag b := by
  simp only [decodeTag, takeField_append, decodeTagByte]
  by_cases hl : b = Config.tagL
  · rw [if_pos hl, if_pos hl]
  · rw [if_neg hl, if_neg hl]
    by_cases hp : b = Config.tagP
    · rw [if_pos hp, if_pos hp]
    · rw [if_neg hp, if_neg hp]

theorem decode_encode_lCopy {o : BitVec 16} (ho : o ≠ 0#16) (n : BitVec 4) (rest : List Bool) :
    decode .lCode (encode (.lCopy o n) ++ rest) = .code (.lCopy o n) rest := by
  change decodeLCode (false :: ((fieldBits o ++ fieldBits n) ++ rest)) = _
  simp only [decodeLCode, List.append_assoc, takeField_append, if_neg ho, withField_append]

theorem decode_encode_lEnd (rest : List Bool) : decode .lCode (encode .lEnd ++ rest) = .code .lEnd rest := by
  change decodeLCode (false :: (fieldBits 0#16 ++ rest)) = _
  simp only [decodeLCode, takeField_append, if_true]

theorem decode_encode_pColor (r g b : Byte) (stamp : Bool) (rest : List Bool) :
    decode .pColor (encode (.pColor r g b stamp) ++ rest) = .code (.pColor r g b stamp) rest := by
  simp only [encode, List.append_assoc, decode, decodePColor, takeField_append, List.singleton_append]

/-- Each one-bit of an extended run code brings the sentinel one bit nearer. -/
theorem decodeExtended_ones (n left : Nat) (bits : List Bool) :
    decodeExtended (n + left) (List.replicate n true ++ bits) = decodeExtended left bits := by
  induction n with
  | zero => rw [Nat.zero_add]; rfl
  | succ n ih => rw [Nat.add_right_comm]; exact ih

/-- Behind the unary part of an extended run code the decoder reads the payload, as wide as that part says. -/
theorem decode_encodeRunx {k : Nat} (hk : 3 ≤ k) (hk' : k ≤ 23) {f : BitVec k → Instr}
    (hf : ∀ bits, decodeRunx k bits = withField k f bits) (v : BitVec k) (rest : List Bool) :
    decode .pRun (encodeRunx v ++ rest) = .code (f v) rest := by
  have hleft : k - 3 + (23 - k + 1) = 21 := by omega
  have hwidth : 24 - (23 - k + 1) = k := by omega
  calc decode .pRun (encodeRunx v ++ rest)
      = decodeExtended 21 (List.replicate (k - 3) true ++ false :: (fieldBits v ++ rest)) := by
        simp only [encodeRunx, List.cons_append, List.append_assoc]
        rfl
    _ = decodeExtended (23 - k + 1) (false :: (fieldBits v ++ rest)) := by rw [← hleft, decodeExtended_ones]
    _ = decodeRunx (24 - (23 - k + 1)) (fieldBits v ++ rest) := rfl
    _ = .code (f v) rest := by rw [hwidth, hf, withField_append]

/-- Decoding the encoding of a well-formed instruction gives it back, whatever bits follow. -/
theorem decode_encode {i : Instr} (hwf : i.wellFormed = true) (rest : List Bool) :
    decode i.site (encode i ++ rest) = .code i rest := by
  cases i
  case tagL => exact (decodeTag_fieldBits Config.tagL rest).trans (if_pos rfl)
  case tagP => exact (decodeTag_fieldBits Config.tagP rest).trans ((if_neg (by decide)).trans (if_pos rfl))
  case lLit b => exact withField_append Instr.lLit b rest
  case lCopy o n => exact decode_encode_lCopy (by simpa [Instr.wellFormed] using hwf) n rest
  case lEnd => exact decode_encode_lEnd rest
  case pRuns v => exact withField_append Instr.pRuns v rest
  case pRun0 | pRun1 => rfl
  case pEnd => rfl
  case pColor r g b stamp => exact decode_encode_pColor r g b stamp rest
  case sExit | s1914 | s1926 | s1917 | s1920 | s1923 => rfl
  case start | fillStep => rfl
  all_goals exact decode_encodeRunx (by decide) (by decide) (fun _ => rfl) _ rest

/-- Settles O1: every instruction's place reads its own encoding. -/
theorem decodeOfEncodeIsTheInstruction : Obligations.DecodeOfEncodeIsTheInstruction := by
  unfold Obligations.DecodeOfEncodeIsTheInstruction
  exact fun i rest hwf => decode_encode hwf rest

/-! ### Encoding the decoder's answer -/

/-- `i` is a well-formed code of `site`, and `bits` are its encoding and then `rest`. -/
structure IsCodeAt (site : DecodeSite) (i : Instr) (bits rest : List Bool) : Prop where
  wellFormed : i.wellFormed = true
  site_eq : i.site = site
  bits_eq : bits = encode i ++ rest

/-- The offset of `L.END` is 0, and `L.COPY` is read for the others only, so it is well formed. -/
theorem decodeLCode_isCodeAt {bits rest : List Bool} {i : Instr} (h : decodeLCode bits = .code i rest) :
    IsCodeAt .lCode i bits rest := by
  match bits with
  | [] => cases h
  | true :: bits =>
    obtain ⟨v, rest', rfl, hcode⟩ | ⟨-, hshort⟩ := withField_cases 8 Instr.lLit bits
    · obtain ⟨rfl, rfl⟩ := DecodeResult.code.inj (hcode.symm.trans h)
      exact ⟨rfl, rfl, rfl⟩
    · cases hshort.symm.trans h
  | false :: bits =>
    cases ho : takeField 16 bits with
    | none => simp [decodeLCode, ho] at h
    | some field =>
      obtain rfl := takeField_some ho
      simp only [decodeLCode, ho] at h
      by_cases hend : field.1 = 0#16
      · rw [if_pos hend] at h
        obtain ⟨rfl, rfl⟩ := DecodeResult.code.inj h
        exact ⟨rfl, rfl, by rw [hend]; rfl⟩
      · rw [if_neg hend] at h
        obtain ⟨n, rest', hrest, hcode⟩ | ⟨-, hshort⟩ := withField_cases 4 (Instr.lCopy field.1) field.2
        · obtain ⟨rfl, rfl⟩ := DecodeResult.code.inj (hcode.symm.trans h)
          exact ⟨by simpa [Instr.wellFormed] using hend, rfl, by rw [hrest]; simp [encode]⟩
        · cases hshort.symm.trans h

/-- For each parameter of the extended run code the payload is one field, of the code with that parameter. -/
theorem decodeRunx_eq_withField {k : Nat} (hk : 3 ≤ k) (hk' : k ≤ 23) :
    ∃ f : BitVec k → Instr, (∀ bits, decodeRunx k bits = withField k f bits) ∧
      ∀ v, (f v).wellFormed = true ∧ (f v).site = .pRun ∧ encode (f v) = encodeRunx v := by
  interval_cases k
  all_goals exact ⟨_, fun _ => rfl, fun _ => ⟨rfl, rfl, rfl⟩⟩

/-- An extended run code with `left` one-bits missing from the sentinel has `21 - left` of them behind it. -/
theorem decodeExtended_isCodeAt {left : Nat} (hleft : left ≤ 21) {bits rest : List Bool} {i : Instr}
    (h : decodeExtended left bits = .code i rest) :
    IsCodeAt .pRun i (true :: true :: (List.replicate (21 - left) true ++ bits)) rest := by
  induction left generalizing bits with
  | zero =>
    obtain ⟨rfl, rfl⟩ := DecodeResult.code.inj h
    exact ⟨rfl, rfl, rfl⟩
  | succ left ih =>
    match bits with
    | [] => cases h
    | true :: bits =>
      have hones : 21 - left = 21 - (left + 1) + 1 := by omega
      have hcode := ih (by omega) h
      rwa [hones, List.replicate_succ', List.append_assoc] at hcode
    | false :: bits =>
      have h : decodeRunx (24 - (left + 1)) bits = .code i rest := h
      obtain ⟨f, hf, hcodes⟩ := decodeRunx_eq_withField (k := 24 - (left + 1)) (by omega) (by omega)
      rw [hf] at h
      obtain ⟨v, rest', rfl, hcode⟩ | ⟨-, hshort⟩ := withField_cases _ f bits
      · obtain ⟨rfl, rfl⟩ := DecodeResult.code.inj (hcode.symm.trans h)
        obtain ⟨hwf, hsite, hencode⟩ := hcodes v
        exact ⟨hwf, hsite, by simp [hencode, encodeRunx, Config.firstExtendedBits]; omega⟩
      · cases hshort.symm.trans h

theorem decodePRun_isCodeAt {bits rest : List Bool} {i : Instr} (h : decodePRun bits = .code i rest) :
    IsCodeAt .pRun i bits rest := by
  match bits with
  | [] | [false] | [true] => cases h
  | false :: false :: bits | false :: true :: bits =>
    obtain ⟨rfl, rfl⟩ := DecodeResult.code.inj h
    exact ⟨rfl, rfl, rfl⟩
  | true :: false :: bits =>
    obtain ⟨v, rest', rfl, hcode⟩ | ⟨-, hshort⟩ := withField_cases 2 Instr.pRuns bits
    · obtain ⟨rfl, rfl⟩ := DecodeResult.code.inj (hcode.symm.trans h)
      exact ⟨rfl, rfl, rfl⟩
    · cases hshort.symm.trans h
  | true :: true :: bits => exact decodeExtended_isCodeAt (Nat.le_refl 21) h

theorem decodePColor_isCodeAt {bits rest : List Bool} {i : Instr} (h : decodePColor bits = .code i rest) :
    IsCodeAt .pColor i bits rest := by
  unfold decodePColor at h
  cases hr : takeField 8 bits with
  | none => simp [hr] at h
  | some red =>
    cases hg : takeField 8 red.2 with
    | none => simp [hr, hg] at h
    | some green =>
      cases hb : takeField 8 green.2 with
      | none => simp [hr, hg, hb] at h
      | some blue =>
        simp only [hr, hg, hb] at h
        cases hs : blue.2 with
        | nil => simp [hs] at h
        | cons stamp rest' =>
          obtain ⟨rfl, rfl⟩ : .pColor red.1 green.1 blue.1 stamp = i ∧ rest' = rest := by simpa [hs] using h
          refine ⟨rfl, rfl, ?_⟩
          rw [takeField_some hr, takeField_some hg, takeField_some hb, hs]
          simp [encode]

theorem decodePStamp_isCodeAt {bits rest : List Bool} {i : Instr} (h : decodePStamp bits = .code i rest) :
    IsCodeAt .pStamp i bits rest := by
  match bits with
  | [] | [false] | [true] | [false, false] | [false, false, true] => cases h
  | false :: false :: false :: bits | false :: false :: true :: false :: bits | false :: false :: true :: true :: bits
  | false :: true :: bits | true :: false :: bits | true :: true :: bits =>
    obtain ⟨rfl, rfl⟩ := DecodeResult.code.inj h
    exact ⟨rfl, rfl, rfl⟩

/-- In a stream phase the bits a code was decoded from begin with that code's encoding. -/
theorem decode_isCodeAt {site : DecodeSite} (hsite : site ∈ [DecodeSite.lCode, .pRun, .pColor, .pStamp])
    {bits rest : List Bool} {i : Instr} (h : decode site bits = .code i rest) : IsCodeAt site i bits rest := by
  simp only [List.mem_cons, List.not_mem_nil, or_false] at hsite
  obtain rfl | rfl | rfl | rfl := hsite
  · exact decodeLCode_isCodeAt h
  · exact decodePRun_isCodeAt h
  · exact decodePColor_isCodeAt h
  · exact decodePStamp_isCodeAt h

/-- Bits that begin with a well-formed code of a place decode to it there. -/
theorem IsCodeAt.decode_eq {site : DecodeSite} {i : Instr} {bits rest : List Bool} (h : IsCodeAt site i bits rest) :
    decode site bits = .code i rest := by
  rw [h.bits_eq, ← h.site_eq]
  exact decode_encode h.wellFormed rest

theorem FindsCodesOf.mono {site : DecodeSite} {m n : Nat} {decoder : List Bool → DecodeResult}
    (h : FindsCodesOf site m decoder) (hmn : m ≤ n) : FindsCodesOf site n decoder :=
  fun bits => (h bits).imp_right (And.imp_right fun hlen => Nat.lt_of_lt_of_le hlen hmn)

/-- No code of a stream phase is longer than 46 bits (R60). -/
theorem decode_findsCodesOf {site : DecodeSite} (hsite : site ∈ [DecodeSite.lCode, .pRun, .pColor, .pStamp]) :
    FindsCodesOf site 46 (decode site) := by
  simp only [List.mem_cons, List.not_mem_nil, or_false] at hsite
  obtain rfl | rfl | rfl | rfl := hsite
  · exact decodeLCode_findsCodesOf.mono (by decide)
  · exact decodePRun_findsCodesOf
  · exact decodePColor_findsCodesOf.mono (by decide)
  · exact decodePStamp_findsCodesOf.mono (by decide)

/-- Settles O2: the decoder is a function, and bits that begin with a code decode to it, so they begin with one code only, and
with none where the decoder finds none. -/
theorem everyBitStringBeginsWithOneCode : Obligations.EveryBitStringBeginsWithOneCode := by
  unfold Obligations.EveryBitStringBeginsWithOneCode
  intro site bits hsite
  obtain ⟨i, rest, hcode, -⟩ | ⟨hmore, hlen⟩ := decode_findsCodesOf hsite bits
  · obtain ⟨hwf, hi, hbits⟩ := decode_isCodeAt hsite hcode
    refine .inl ⟨i, rest, hcode, hwf, hi, hbits, fun j rest' hwf' hj hbits' => ?_⟩
    have hcode' := IsCodeAt.decode_eq ⟨hwf', hj, hbits'⟩
    exact DecodeResult.code.inj (hcode'.symm.trans hcode)
  · refine .inr ⟨hmore, hlen, fun i rest hwf hi hbits => ?_⟩
    cases hmore.symm.trans (IsCodeAt.decode_eq ⟨hwf, hi, hbits⟩)

/-- Settles O4: a tag byte with no bits behind it. -/
theorem tagByteIsComparedWhole : Obligations.TagByteIsComparedWhole := by
  unfold Obligations.TagByteIsComparedWhole
  intro b
  have htag := decodeTag_fieldBits b []
  rwa [List.append_nil] at htag

end Sys2Proof
end

section
/-!
PROOF. The run codes and the stamp codes, read off their closed forms, and the codes that the end of the block cuts off: the
payload is then the first part of the code that the zeros of the fetch complete it to.
-/

namespace Sys2Proof.Machine

/-- A cut code leaves nothing but StreamOverrun, unless it is a `P.COLOR` of which only the flag is missing. -/
theorem exec_cut_eq_overrun {i : Instr} {s : State} {p : Nat} (hi : isStreamCode i = true)
    (hflag : i.site = .pColor → p + 24 ≠ Config.payloadBits) (hc : s.CursorAt p) (hp : p ≤ Config.payloadBits)
    (hn : Config.payloadBits < p + codeLength i) : exec i s = .next s.overrun := by
  have hfits : s.ColorFits i p := by
    intro hcolor hle
    have hne := hflag hcolor
    obtain ⟨r, g, b, stamp, rfl⟩ := eq_pColor_of_site hcolor
    rw [codeLength_eq] at hn
    change Config.payloadBits < p + 25 at hn
    omega
  rw [exec_code_cut hi hc hp hn hfits]
  exact congrArg _ ((State.cutCode_cases i p s).resolve_right fun ⟨hcolor, h, _⟩ => hflag hcolor h)

/-! ### The run codes and the stamp codes -/

theorem isStreamCode_run {i : Instr} {len n : Nat} (h : runTable i = some (len, n)) : isStreamCode i = true := by
  rw [isStreamCode, site_run h]
  rfl

theorem isStreamCode_stamp {i : Instr} {len inc : Nat} (h : stampTable i = some (len, inc)) : isStreamCode i = true := by
  rw [isStreamCode, site_stamp h]
  rfl

theorem exec_run_cut {i : Instr} {len n p : Nat} {s : State} (h : runTable i = some (len, n)) (hc : s.CursorAt p)
    (hp : p ≤ Config.payloadBits) (hn : Config.payloadBits < p + len) : exec i s = .next s.overrun :=
  exec_cut_eq_overrun (isStreamCode_run h) (by simp [site_run h]) hc hp (by rwa [codeLength_run h])

theorem exec_stamp_cut {i : Instr} {len inc p : Nat} {s : State} (h : stampTable i = some (len, inc)) (hc : s.CursorAt p)
    (hp : p ≤ Config.payloadBits) (hn : Config.payloadBits < p + len) : exec i s = .next s.overrun :=
  exec_cut_eq_overrun (isStreamCode_stamp h) (by simp [site_stamp h]) hc hp (by rwa [codeLength_stamp h])

theorem State.runAdvanced_atFillStart {s : State} {n : Nat} (h : Config.capacity ≤ s.outputPos + 3 * n) :
    (s.runAdvanced n).AtFillStart := by
  rw [State.runAdvanced, if_pos h]
  exact ⟨rfl, rfl, rfl⟩

theorem State.runAdvanced_phase_of_lt {s : State} {n : Nat} (h : s.outputPos + 3 * n < Config.capacity) :
    (s.runAdvanced n).phase = .pColor := by
  rw [State.runAdvanced, if_neg (Nat.not_le.mpr h)]
  rfl

/-- Settles O29: after its bits a run code is the run advance. -/
theorem runCodesAdvanceTheOutputPosition : Obligations.RunCodesAdvanceTheOutputPosition := by
  unfold Obligations.RunCodesAdvanceTheOutputPosition
  intro i len n s p hrun hc hp
  refine ⟨fun hlen => ⟨_, exec_run_at hrun hc hlen, ?_⟩, exec_run_cut hrun hc hp⟩
  have hpos : ((s.atBit (p + len)).runAdvanced n).outputPos = s.outputPos + 3 * n := by rw [State.runAdvanced_eq]; rfl
  rw [hpos]
  refine ⟨?_, rfl, State.runAdvanced_phase_of_lt (s := s.atBit (p + len)),
    State.runAdvanced_atFillStart (s := s.atBit (p + len)), ?_⟩
  all_goals rw [State.runAdvanced_eq]
  · exact ⟨rfl, rfl⟩
  · rfl

/-- The close of a pixel record, as R102 says it of the state before. -/
theorem State.pixelClosed_closesPixelOf (s : State) : s.pixelClosed.ClosesPixelOf s := by
  refine ⟨by rw [State.pixelClosed_eq], fun hin => ?_, fun hout => ?_⟩
  · rw [State.pixelClosed, if_pos hin]
    rfl
  · rw [State.pixelClosed, if_neg (Nat.not_lt.mpr hout)]
    exact ⟨rfl, rfl, rfl⟩

/-- The triple just written. -/
theorem State.readTriple_of_writeTriple {s t : State} {a : Nat} {c : Rgb} (h : t.pb = s.pb.writeTriple a c) :
    t.readTriple a = c := by
  simp [State.readTriple, State.readPb, h, Memory.read_writeTriple]

/-- Settles O33: after its bits a stamp code is the stamp advance, which writes the triple or closes the pixel record. -/
theorem stampCodesReplicateTheColor : Obligations.StampCodesReplicateTheColor := by
  unfold Obligations.StampCodesReplicateTheColor
  intro i len inc s p hstamp hc hp
  refine ⟨fun hlen hin => ?_, fun hlen hout => ?_, exec_stamp_cut hstamp hc hp⟩
  · have hexec := (exec_stamp_at hstamp hc hlen).trans (congrArg _ (if_neg (Nat.not_le.mpr hin)))
    exact ⟨_, hexec, ⟨rfl, rfl⟩, rfl, State.readTriple_of_writeTriple (s := s) rfl, rfl, rfl, rfl, rfl⟩
  · have hexec := (exec_stamp_at hstamp hc hlen).trans (congrArg _ (if_pos hout))
    refine ⟨_, hexec, ?_, ?_, State.pixelClosed_closesPixelOf _, ?_⟩
    all_goals rw [State.pixelClosed_eq]
    · exact ⟨rfl, rfl⟩
    · rfl
    · exact ⟨fun _ => rfl, rfl, rfl⟩

/-! ### Cut codes -/

/-- Where the payload decodes to no code, it ends at the end of the block. -/
theorem length_payloadFrom_of_needsMoreBits {s : State} {p : Nat} {site : DecodeSite}
    (hsite : site ∈ [DecodeSite.lCode, .pRun, .pColor, .pStamp]) (h : decode site (s.payloadFrom p) = .needsMoreBits) :
    (s.payloadFrom p).length = Config.payloadBits - p := by
  have hshort : (s.payloadFrom p).length < 46 := by
    obtain ⟨i, rest, hcode, -⟩ | ⟨-, hlen⟩ := decode_findsCodesOf hsite (s.payloadFrom p)
    · cases h.symm.trans hcode
    · exact hlen
  have hlen := length_payloadFrom s p
  change _ = min 46 _ at hlen
  omega

/-- Where the payload decodes to no code, the sequencer runs one that the payload is the first part of: the zeros behind the
block only complete it. -/
theorem sequencerStep_cut {s : State} {p : Nat} {site : DecodeSite} (hc : s.CursorAt p) (hp : p ≤ Config.payloadBits)
    (hsite : s.phase.site = some site) (h : decode site (s.payloadFrom p) = .needsMoreBits) :
    ∃ i, i.site = site ∧ sequencerStep s = exec i s ∧ Config.payloadBits < p + codeLength i ∧
      s.payloadFrom p = (encode i).take (Config.payloadBits - p) := by
  have hstream := Phase.site_stream hsite
  have hlen := length_payloadFrom_of_needsMoreBits hstream h
  obtain ⟨i, rest, hcode, hi, hstep⟩ := sequencerStep_code hsite
  obtain ⟨hwf, -, hbits⟩ := decode_isCodeAt hstream hcode
  rw [fetchBits_at hc hp] at hbits
  have hlong : Config.payloadBits < p + codeLength i := by
    by_contra hfits
    obtain ⟨rest', hrest⟩ : encode i <+: s.payloadFrom p :=
      List.prefix_of_prefix_length_le ⟨rest, hbits.symm⟩ ⟨_, rfl⟩ (by rw [hlen]; change codeLength i ≤ _; omega)
    cases h.symm.trans (IsCodeAt.decode_eq ⟨hwf, hi, hrest.symm⟩)
  refine ⟨i, hi, hstep, hlong, ?_⟩
  have hprefix : s.payloadFrom p <+: encode i :=
    List.prefix_of_prefix_length_le ⟨_, rfl⟩ ⟨rest, hbits.symm⟩ (by rw [hlen]; change _ ≤ codeLength i; omega)
  rw [← hlen]
  exact List.prefix_iff_eq_take.mp hprefix

/-- Settles O11: the code the zeros complete needs one of them, so its own bit reads run off the block. -/
theorem cutCodeRaisesStreamOverrun : Obligations.CutCodeRaisesStreamOverrun := by
  unfold Obligations.CutCodeRaisesStreamOverrun
  intro s s0 p site hpass hc hp hsite hmore
  obtain ⟨hstep, later, rfl⟩ := step_hostPasses hpass
  obtain ⟨i, rfl, hrun, hlong, hpayload⟩ := sequencerStep_cut (s := s.setHostSlots later) hc hp hsite hmore
  have hi := isStreamCode_of_site hsite
  rw [hstep, hrun]
  refine ⟨fun hflag => ?_, fun hphase hflag hin => ?_⟩
  · have hnotFlag (hcolor : i.site = .pColor) : p + 24 ≠ Config.payloadBits := fun h =>
      hflag ⟨(Phase.site_eq_some hsite).trans (by rw [hcolor]; rfl), h⟩
    exact exec_cut_eq_overrun hi hnotFlag hc hp hlong
  · have hcolor : i.site = .pColor := by rw [hphase] at hsite; exact (Option.some.inj hsite).symm
    obtain ⟨r, g, b, stamp, rfl⟩ := eq_pColor_of_site hcolor
    refine ⟨_, ⟨r, g, b⟩, exec_pColor_flagMissing (s := s.setHostSlots later) hc hflag hin,
      State.readTriple_of_writeTriple (s := s) rfl, rfl, ?_, fun a ha => Memory.read_writeTriple_outside _ _ ha, rfl⟩
    have hbits : Config.payloadBits - p = 24 := by omega
    have hencode : encode (.pColor r g b stamp) = (fieldBits r ++ (fieldBits g ++ fieldBits b)) ++ [stamp] := by
      simp [encode]
    rw [hbits, hencode, List.take_left' (by simp)] at hpayload
    exact hpayload.symm

end Sys2Proof.Machine
end

section
/-!
PROOF. The legal phase transitions (R52): an instruction run in its phase ends in the phase of its row, and the rows lead only
to phases that are listed for the one the instruction runs in.
-/

namespace Sys2Proof.Machine

/-! ### The rows of the operations -/

theorem State.runAdvanced_runRow (s : State) (n : Nat) : PhaseRow.RunRow (s.runAdvanced n) := by
  rw [State.runAdvanced_eq]
  by_cases hout : Config.capacity ≤ s.outputPos + 3 * n
  · exact .inr (.inl ⟨hout, if_pos hout⟩)
  · exact .inl ⟨Nat.lt_of_not_le hout, if_neg hout⟩

theorem State.pixelClosed_pixelRow (s : State) : PhaseRow.PixelRow s.pixelClosed := by
  rw [State.pixelClosed_eq]
  by_cases hin : s.outputPos + 3 < Config.capacity
  · exact .inl ⟨hin, if_pos hin⟩
  · exact .inr ⟨Nat.le_of_not_lt hin, if_neg hin⟩

/-- The row of the run codes. -/
theorem phaseRow_run {i : Instr} {len n : Nat} (h : runTable i = some (len, n)) (s t : State) :
    PhaseRow i s t = PhaseRow.RunRow t := by
  cases i
  case tagL | tagP | lLit | lCopy | lEnd | pEnd | pColor | sExit | s1914 | s1926 | s1917 | s1920 | s1923 | start | fillStep =>
    cases h
  all_goals rfl

/-- The row of the stamp codes. -/
theorem phaseRow_stamp {i : Instr} {len inc : Nat} (h : stampTable i = some (len, inc)) (s t : State) :
    PhaseRow i s t =
      ((t.phase = .pStamp ∧ t.stampPos + 2 < Config.capacity) ∨
        (Config.capacity ≤ t.stampPos + 2 ∧ PhaseRow.PixelRow t) ∨ t.phase = .error) := by
  cases i
  case s1914 | s1926 | s1917 | s1920 | s1923 => rfl
  all_goals cases h

/-! ### The instructions -/

theorem exec_append_phaseRow {i : Instr} {n : Nat} {s t : State} (hi : appendCount i = some n) (h : exec i s = .next t) :
    PhaseRow i s t := by
  obtain ⟨v, rfl, -⟩ | ⟨o, m, rfl, -⟩ | ⟨rfl, -⟩ := appendCount_cases hi
  · obtain ⟨b, m, ⟨-, rfl⟩ | ⟨-, rfl⟩ | ⟨-, rfl⟩⟩ := exec_lLit_cases h
    · exact .inr rfl
    · exact .inl rfl
    · exact .inr rfl
  · obtain ⟨b, m, ⟨-, rfl⟩ | ⟨-, rfl⟩ | ⟨-, rfl⟩⟩ := exec_lCopy_cases h
    · exact .inr rfl
    · exact .inl rfl
    · exact .inr rfl
  · obtain ⟨b, m, ⟨-, rfl⟩ | rfl⟩ := exec_lEnd_cases h
    · exact .inr rfl
    · exact .inl rfl

theorem exec_run_phaseRow {i : Instr} {len n : Nat} {s t : State} (hi : runTable i = some (len, n))
    (h : exec i s = .next t) : PhaseRow i s t := by
  rw [phaseRow_run hi]
  obtain ⟨b, m, ⟨-, rfl⟩ | rfl⟩ := exec_run_cases hi h
  · exact .inr (.inr rfl)
  · exact State.runAdvanced_runRow _ n

theorem exec_pColor_phaseRow {r g b : Byte} {stamp : Bool} {s t : State} (h : exec (.pColor r g b stamp) s = .next t) :
    PhaseRow (.pColor r g b stamp) s t := by
  obtain ⟨b', m, ⟨-, rfl⟩ | ⟨-, ⟨-, rfl⟩ | ⟨rfl, rfl⟩ | ⟨rfl, rfl⟩⟩⟩ := exec_pColor_cases h
  · exact .inr rfl
  · exact .inr rfl
  · exact .inl rfl
  · exact .inl (State.pixelClosed_pixelRow _)

theorem exec_stamp_phaseRow {i : Instr} {len inc : Nat} {s t : State} (hi : stampTable i = some (len, inc))
    (h : exec i s = .next t) : PhaseRow i s t := by
  rw [phaseRow_stamp hi]
  obtain ⟨b, m, ⟨-, rfl⟩ | ⟨hout, rfl⟩ | ⟨hin, rfl⟩⟩ := exec_stamp_cases hi h
  · exact .inr (.inr rfl)
  · refine .inr (.inl ⟨?_, State.pixelClosed_pixelRow _⟩)
    rw [State.setStampPos_pixelClosed]
    exact hout
  · exact .inl ⟨rfl, hin⟩

theorem exec_fillStep_phaseRow {s t : State} (hs : s.phase = .pFill) (h : exec .fillStep s = .next t) :
    PhaseRow .fillStep s t := by
  obtain ⟨-, rfl⟩ := exec_fillStep_cases h
  rw [State.filled_eq]
  by_cases hout : Config.capacity ≤ s.fillPos + 3
  · exact .inr ⟨hout, if_pos hout⟩
  · exact .inl ⟨Nat.lt_of_not_le hout, (if_neg hout).trans hs⟩

theorem exec_start_phaseRow {s t : State} (hs : s.phase.busy = false) (h : exec .start s = .next t) :
    PhaseRow .start s t := by
  rw [exec_start_eq, if_neg (by simp [hs])] at h
  rw [← Host.Outcome.next.inj h]
  by_cases hshort : s.inLen.toNat < Config.blockSize
  · simp only [PhaseRow, if_pos hshort, State.withError_phase]
  by_cases hl : s.readCb 0 = Config.tagL
  · simp only [PhaseRow, if_neg hshort, if_pos hl, State.started, State.setPhase_phase]
  by_cases hp : s.readCb 0 = Config.tagP
  · simp only [PhaseRow, if_neg hshort, if_neg hl, if_pos hp, State.started, State.setPhase_phase]
  · simp only [PhaseRow, if_neg hshort, if_neg hl, if_neg hp, State.withError_phase]

/-- An instruction run in its phase ends in the phase of its row. -/
theorem exec_phaseRow {i : Instr} {s t : State} (hs : RunsIn i s.phase) (h : exec i s = .next t) : PhaseRow i s t := by
  obtain rfl | rfl | rfl | rfl | ⟨n, happ⟩ | ⟨len, n, hrun⟩ | rfl | ⟨r, g, b, stamp, rfl⟩ | rfl | ⟨len, inc, hstamp⟩ :=
    instr_shapes i
  · rw [← Host.Outcome.next.inj ((exec_tagL s).symm.trans h)]
    rfl
  · rw [← Host.Outcome.next.inj ((exec_tagP s).symm.trans h)]
    rfl
  · exact exec_start_phaseRow hs h
  · exact exec_fillStep_phaseRow hs h
  · exact exec_append_phaseRow happ h
  · exact exec_run_phaseRow hrun h
  · obtain ⟨b, m, ⟨-, rfl⟩ | rfl⟩ := exec_pEnd_cases h
    · exact .inr rfl
    · exact .inl rfl
  · exact exec_pColor_phaseRow h
  · obtain ⟨b, m, ⟨-, rfl⟩ | rfl⟩ := exec_sExit_cases h
    · exact .inr rfl
    · exact .inl (State.pixelClosed_pixelRow _)
  · exact exec_stamp_phaseRow hstamp h

/-! ### The step -/

/-- The phase stays, or becomes one that R52 lists for the phase it was. -/
abbrev Phase.MovesTo (p q : Phase) : Prop := q = p ∨ q ∈ p.mayGoTo

theorem Phase.MovesTo.of_eq {p q p' q' : Phase} (hp : p = p') (hq : q = q') (h : p'.MovesTo q') : p.MovesTo q := by
  rwa [hp, hq]

/-- What a phase that is not BUSY may become: START begins a decode, or ends in an error. -/
theorem Phase.movesTo_of_not_busy {p q : Phase} (hp : p.busy = false) (hq : q = .lCode ∨ q = .pRun ∨ q = .error) :
    p.MovesTo q := by
  cases p
  case idle | done | error => obtain rfl | rfl | rfl := hq <;> decide
  all_goals cases hp

theorem runsIn_of_site {i : Instr} {p : Phase} (h : p.site = some i.site) : RunsIn i p := by
  have hstream := Phase.site_stream h
  have hphase := Phase.site_eq_some h
  simp only [List.mem_cons, List.not_mem_nil, or_false] at hstream
  obtain hi | hi | hi | hi := hstream <;> simpa only [RunsIn, hi, sitePhase] using hphase

theorem PhaseRow.RunRow.movesTo {t : State} (h : PhaseRow.RunRow t) : Phase.pRun.MovesTo t.phase := by
  obtain ⟨-, h⟩ | ⟨-, h⟩ | h := h <;> exact .of_eq rfl h (by decide)

/-- Both phases that close a pixel record, `P_COLOR` and `P_STAMP`, list where it leads. -/
theorem PhaseRow.PixelRow.movesTo {t : State} (h : PhaseRow.PixelRow t) {p : Phase} (hp : p = .pColor ∨ p = .pStamp) :
    p.MovesTo t.phase := by
  obtain ⟨-, h⟩ | ⟨-, h⟩ := h
  · obtain rfl | rfl := hp <;> exact .of_eq rfl h (by decide)
  · obtain rfl | rfl := hp <;> exact .of_eq rfl h (by decide)

/-- Every row leads where R52 lists it. -/
theorem PhaseRow.movesTo {i : Instr} {s t : State} (hs : RunsIn i s.phase) (h : PhaseRow i s t) :
    s.phase.MovesTo t.phase := by
  obtain rfl | rfl | rfl | rfl | ⟨n, happ⟩ | ⟨len, n, hrun⟩ | rfl | ⟨r, g, b, stamp, rfl⟩ | rfl | ⟨len, inc, hstamp⟩ :=
    instr_shapes i
  · exact Phase.movesTo_of_not_busy hs (.inl h)
  · exact Phase.movesTo_of_not_busy hs (.inr (.inl h))
  · refine Phase.movesTo_of_not_busy hs ?_
    simp only [PhaseRow] at h
    split_ifs at h <;> simp [h]
  · obtain ⟨-, h⟩ | ⟨-, h⟩ := h <;> exact .of_eq hs h (by decide)
  · obtain ⟨v, rfl, -⟩ | ⟨o, m, rfl, -⟩ | ⟨rfl, -⟩ := appendCount_cases happ
    · obtain h | h := h <;> exact .of_eq hs h (by decide)
    · obtain h | h := h <;> exact .of_eq hs h (by decide)
    · obtain h | h := h <;> exact .of_eq hs h (by decide)
  · rw [phaseRow_run hrun] at h
    have hs : s.phase = .pRun := by simpa only [RunsIn, site_run hrun] using hs
    exact .of_eq hs rfl h.movesTo
  · obtain h | h := h <;> exact .of_eq hs h (by decide)
  · have hs : s.phase = .pColor := hs
    obtain h | h := h
    · cases stamp
      · exact PixelRow.movesTo h (.inl hs)
      · exact .of_eq hs h (by decide)
    · exact .of_eq hs h (by decide)
  · have hs : s.phase = .pStamp := hs
    obtain h | h := h
    · exact h.movesTo (.inr hs)
    · exact .of_eq hs h (by decide)
  · rw [phaseRow_stamp hstamp] at h
    have hs : s.phase = .pStamp := by simpa only [RunsIn, site_stamp hstamp] using hs
    obtain ⟨h, -⟩ | ⟨-, h⟩ | h := h
    · exact .of_eq hs h (by decide)
    · exact h.movesTo (.inr hs)
    · exact .of_eq hs h (by decide)

theorem exec_movesTo {i : Instr} {s t : State} (hs : RunsIn i s.phase) (h : exec i s = .next t) :
    s.phase.MovesTo t.phase :=
  (exec_phaseRow hs h).movesTo hs

theorem sequencerStep_movesTo {s t : State} (h : sequencerStep s = .next t) : s.phase.MovesTo t.phase := by
  cases hs : s.phase.site with
  | some site =>
    obtain ⟨i, -, -, rfl, hcode⟩ := sequencerStep_code hs
    exact exec_movesTo (runsIn_of_site hs) (hcode.symm.trans h)
  | none =>
    obtain hfill | hhalted := Phase.site_eq_none hs
    · exact exec_movesTo (i := .fillStep) hfill ((sequencerStep_fill hfill).symm.trans h)
    · rw [sequencerStep_halted hhalted] at h
      rw [← Host.Outcome.next.inj h]
      exact .inl rfl

/-- Of the host's accesses only the write of `CTRL.START` moves the phase. -/
theorem hostAccess_movesTo {a : HostAccess} {s t : State} (h : hostAccess a s = .next t) : s.phase.MovesTo t.phase := by
  obtain rfl | ⟨hidle, ⟨addr, v, -, -, rfl⟩ | ⟨n, -, rfl⟩ | ⟨-, hstart⟩⟩ := hostAccess_cases h
  · exact .inl rfl
  · exact .inl rfl
  · exact .inl rfl
  · exact exec_movesTo (i := .start) hidle hstart

/-- Settles O45: a step is an instruction run in its phase, or leaves the phase alone. -/
theorem onlyTheLegalPhaseTransitions : Obligations.OnlyTheLegalPhaseTransitions := by
  unfold Obligations.OnlyTheLegalPhaseTransitions
  refine ⟨fun _ _ _ => exec_phaseRow, fun s t hstep => ?_⟩
  obtain ⟨s0, hpass, heq⟩ | ⟨a, later, -, heq⟩ := step_cases s
  · obtain ⟨-, later, rfl⟩ := step_hostPasses hpass
    exact sequencerStep_movesTo (s := s.setHostSlots later) (heq.symm.trans hstep)
  · exact hostAccess_movesTo (s := s.setHostSlots later) (heq.symm.trans hstep)

end Sys2Proof.Machine
end

section
/-!
PROOF. The bit cursor: what `readBit` and `readBits` return and where they leave the cursor. The loop's result is described
bit by bit, and a loop of `a + b` rounds is two loops, the first one's result shifted up to make room.
-/

namespace Sys2Proof.Machine

/-! ### One bit -/

/-- Settles O6: the closed forms of `readBit` at a payload bit and behind the last one. -/
theorem readBitTakesTheBitAtTheCursor : Obligations.ReadBitTakesTheBitAtTheCursor := by
  unfold Obligations.ReadBitTakesTheBitAtTheCursor
  intro s p hc
  refine ⟨fun hp => ⟨s.atBit (p + 1), readBit_at hc hp, State.atBit_cursorAt s _, rfl⟩, fun hp => ?_⟩
  subst hp
  exact readBit_atEnd hc

/-! ### The loop's result, bit by bit -/

/-- One round of the loop sets bit `k` if the bit read is set, and no other. -/
theorem testBit_setBitIf (bit : Bool) (result k i : Nat) :
    (if bit then result ||| (1 <<< k) else result).testBit i = (result.testBit i || (decide (i = k) && bit)) := by
  cases bit
  · simp
  · simp [Nat.one_shiftLeft, Nat.testBit_two_pow, eq_comm]

/-- `readBitsFrom` when the bits are there: below bit `n`, bit `i` of the value is the payload bit read `i` rounds before
the last one; from there on it is bit `i` of what the loop began with (R72). -/
theorem readBitsFrom_testBit {s : State} {p : Nat} (n result : Nat) (hc : s.CursorAt p) (hp : p + n ≤ Config.payloadBits) :
    ∃ v, readBitsFrom n result s = .go v (s.atBit (p + n)) ∧
      ∀ i, v.testBit i = (result.testBit i || (decide (i < n) && s.payloadBit (p + (n - 1 - i)))) := by
  induction n generalizing s p result with
  | zero => exact ⟨result, by rw [Nat.add_zero, State.atBit_self hc]; rfl, by simp⟩
  | succ k ih =>
    rw [readBitsFrom, readBit_at hc (by omega), Flow.andThen_go]
    obtain ⟨v, hv, hbits⟩ := ih (if s.payloadBit p then result ||| (1 <<< k) else result)
      (State.atBit_cursorAt s (p + 1)) (by omega)
    have hpos : p + 1 + k = p + (k + 1) := by omega
    refine ⟨v, by rw [hv, hpos]; rfl, fun i => ?_⟩
    rw [hbits, testBit_setBitIf, State.payloadBit_atBit, Bool.or_assoc]
    congr 1
    obtain hi | rfl | hi := Nat.lt_trichotomy i k
    · have hread : p + 1 + (k - 1 - i) = p + (k + 1 - 1 - i) := by omega
      simp [hi, hi.ne, Nat.lt_succ_of_lt hi, hread]
    · simp
    · simp [hi.not_gt, hi.ne', Nat.not_lt.mpr (Nat.succ_le_of_lt hi)]

/-! ### Several bits -/

theorem readBits_eq {n : Nat} (h1 : 1 ≤ n) (h24 : n ≤ 24) (s : State) : readBits n s = readBitsFrom n 0 s :=
  if_pos ⟨h1, h24⟩

/-- Settles O7: the loop starts from 0, so its value's bits are the payload bits it read and no others. -/
theorem readBitsMakesTheFirstBitMostSignificant : Obligations.ReadBitsMakesTheFirstBitMostSignificant := by
  unfold Obligations.ReadBitsMakesTheFirstBitMostSignificant
  intro s p n hc hp h1 h24
  rw [readBits_eq h1 h24]
  refine ⟨fun hfits => ?_, fun hshort => readBitsFrom_short n 0 hc hp hshort⟩
  obtain ⟨v, hv, hbits⟩ := readBitsFrom_testBit n 0 hc hfits
  refine ⟨v, _, hv, Nat.lt_pow_two_of_testBit v fun i hi => ?_, fun k hk => ?_, State.atBit_cursorAt s _, rfl⟩
  · simp [hbits, hi.not_gt]
  · have hlt : n - 1 - k < n := by omega
    have hread : n - 1 - (n - 1 - k) = k := by omega
    simp [hbits, hlt, hread]

/-! ### A read in two parts -/

/-- Setting bit `k` and shifting by `b` is shifting by `b` and setting bit `k + b`. -/
theorem setBitIf_shiftLeft (bit : Bool) (result k b : Nat) :
    (if bit then result ||| (1 <<< k) else result) <<< b =
      if bit then (result <<< b) ||| (1 <<< (k + b)) else result <<< b := by
  cases bit
  · rfl
  · exact (Nat.shiftLeft_or_distrib ..).trans (congrArg _ (Nat.shiftLeft_add ..).symm)

/-- The loop from `result` is the loop from 0 with `result` joined to its value. -/
theorem readBitsFrom_eq_or (n result : Nat) (s : State) :
    readBitsFrom n result s = (readBitsFrom n 0 s).andThen fun v t => .go (result ||| v) t := by
  induction n generalizing result s with
  | zero => simp [readBitsFrom]
  | succ k ih =>
    simp only [readBitsFrom, Flow.andThen_assoc]
    congr 1
    funext bit t
    rw [ih, ih (if bit then 0 ||| (1 <<< k) else 0), Flow.andThen_assoc]
    cases bit <;> simp [Nat.or_assoc]

/-- A loop of `a + b` rounds is one of `a` rounds and one of `b` rounds from its value shifted up by `b`. -/
theorem readBitsFrom_add (a b result : Nat) (s : State) :
    readBitsFrom (a + b) (result <<< b) s =
      (readBitsFrom a result s).andThen fun x t => readBitsFrom b (x <<< b) t := by
  induction a generalizing result s with
  | zero => rw [Nat.zero_add]; rfl
  | succ k ih =>
    rw [Nat.succ_add]
    simp only [readBitsFrom, Flow.andThen_assoc, ← setBitIf_shiftLeft, ih]

/-- Settles O8: the loop splits after `a` rounds, and the second part joins its value to the first one's. -/
theorem readBitsOfASumIsTwoReads : Obligations.ReadBitsOfASumIsTwoReads := by
  unfold Obligations.ReadBitsOfASumIsTwoReads
  intro s a b ha hb hab
  calc readBits (a + b) s
      = readBitsFrom (a + b) (0 <<< b) s := by rw [readBits_eq (by omega) hab, Nat.zero_shiftLeft]
    _ = (readBitsFrom a 0 s).andThen fun x t => readBitsFrom b (x <<< b) t := readBitsFrom_add a b 0 s
    _ = (readBits a s).andThen fun x t => (readBits b t).andThen fun y u => .go ((x <<< b) ||| y) u := by
      simp only [readBits_eq ha (by omega), readBits_eq hb (by omega), ← readBitsFrom_eq_or]

end Sys2Proof.Machine
end

section
/-!
PROOF. FormatL (41_format_l.md). Once its bits are consumed a code only appends: `L.LIT` its own byte, `L.COPY` the bytes its
loop reads from the table, `L.END` none. The effect of each code, the frame of the three, and the table invariant are facts
about these appends.
-/

namespace Sys2Proof.Machine

/-! ### The appends of a code -/

/-- Everything the three codes have in common: after the cursor moved, at most the code's count of bytes is appended (none is
a copy loop of no iterations), and then the phase changes or an error is raised. -/
theorem exec_append_cases {i : Instr} {n : Nat} {s t : State} (hi : appendCount i = some n) (h : exec i s = .next t) :
    ∃ b m u, ((∃ v, n = 1 ∧ u = (s.setCursor b m).appended v) ∨
        ∃ offset count, count ≤ n ∧ u = (s.setCursor b m).copied offset count 0) ∧
      ((∃ p, t = u.setPhase p) ∨ ∃ e, t = u.withError e) := by
  obtain ⟨v, rfl, rfl⟩ | ⟨o, m, rfl, rfl⟩ | ⟨rfl, rfl⟩ := appendCount_cases hi
  · obtain ⟨b, m, ⟨-, ht⟩ | ⟨-, ht⟩ | ⟨-, ht⟩⟩ := exec_lLit_cases h
    · exact ⟨b, m, _, .inr ⟨0, 0, Nat.zero_le _, rfl⟩, .inr ⟨_, ht⟩⟩
    · exact ⟨b, m, _, .inl ⟨v, rfl, rfl⟩, .inl ⟨_, ht⟩⟩
    · exact ⟨b, m, _, .inr ⟨0, 0, Nat.zero_le _, rfl⟩, .inr ⟨_, ht⟩⟩
  · obtain ⟨b, m, ⟨-, ht⟩ | ⟨-, ht⟩ | ⟨hroom, ht⟩⟩ := exec_lCopy_cases h
    · exact ⟨b, m, _, .inr ⟨0, 0, Nat.zero_le _, rfl⟩, .inr ⟨_, ht⟩⟩
    · exact ⟨b, m, _, .inr ⟨_, _, Nat.le_refl _, rfl⟩, .inl ⟨_, ht⟩⟩
    · exact ⟨b, m, _, .inr ⟨_, _, Nat.le_of_lt hroom, rfl⟩, .inr ⟨_, ht⟩⟩
  · obtain ⟨b, m, ⟨-, ht⟩ | ht⟩ := exec_lEnd_cases h
    · exact ⟨b, m, _, .inr ⟨0, 0, Nat.le_refl _, rfl⟩, .inr ⟨_, ht⟩⟩
    · exact ⟨b, m, _, .inr ⟨0, 0, Nat.le_refl _, rfl⟩, .inl ⟨_, ht⟩⟩

/-- The codes of `L_CODE` are the three with a count of appended bytes. -/
theorem appendCount_of_site {i : Instr} (h : i.site = .lCode) : ∃ n, appendCount i = some n := by
  cases i
  case lLit | lCopy | lEnd => exact ⟨_, rfl⟩
  all_goals cases h

/-! ### The table invariant -/

/-- An appended byte becomes the latest one at its index, and the 65,535 output lengths before it have other indices. -/
theorem State.TableHolds.appended {s : State} (h : s.TableHolds) (v : Byte) : (s.appended v).TableHolds where
  written := by
    intro m h1 hm hlast
    change m ≤ s.outLen + 1 at hm
    change s.outLen + 1 < m + 65536 at hlast
    by_cases hnew : m = s.outLen + 1
    · subst hnew
      exact (Memory.read_write_same ..).trans (Memory.read_write_same s.pb s.outLen v).symm
    · have hindex : m % 65536 ≠ (s.outLen + 1) % 65536 := by omega
      calc (s.appended v).readLut (m % 65536)
          = s.readLut (m % 65536) := Memory.read_write_other _ _ hindex
        _ = s.readPb (m - 1) := h.written m h1 (by omega) (by simp only [Config.lutSize]; omega)
        _ = (s.appended v).readPb (m - 1) := (Memory.read_write_other _ _ (by omega)).symm
  unwritten := by
    intro j hj hnone
    have hindex : j ≠ lutIndex (s.outLen + 1) := (hnone (s.outLen + 1) (by omega) (Nat.le_refl _)).symm
    exact (Memory.read_write_other _ _ hindex).trans
      (h.unwritten j hj fun m h1 hm => hnone m h1 (Nat.le_succ_of_le hm))
  beyond := by
    intro a ha
    change s.outLen + 1 ≤ a at ha
    exact (Memory.read_write_other _ _ (by omega)).trans (h.beyond a (by omega))

theorem State.TableHolds.copied {s : State} (h : s.TableHolds) (offset count i : Nat) :
    (s.copied offset count i).TableHolds := by
  induction count generalizing i s with
  | zero => exact h
  | succ k ih => exact ih (h.appended _) (i + 1)

theorem State.TableHolds.setCursor {s : State} (h : s.TableHolds) (b : Nat) (m : BitVec 8) :
    (s.setCursor b m).TableHolds := { h with }

theorem State.TableHolds.setPhase {s : State} (h : s.TableHolds) (p : Phase) : (s.setPhase p).TableHolds := { h with }

theorem State.TableHolds.withError {s : State} (h : s.TableHolds) (e : DecodeError) : (s.withError e).TableHolds := { h with }

theorem State.TableHolds.setHostSlots {s : State} (h : s.TableHolds) (later : List (Option HostAccess)) :
    (s.setHostSlots later).TableHolds := { h with }

/-- With nothing written yet, the two empty memories are the table and the buffer of no output. -/
theorem State.started_tableHolds (s : State) (p : Phase) : (s.started p).TableHolds where
  written := fun _ h1 hm => absurd (Nat.le_trans h1 hm) (Nat.not_succ_le_zero 0)
  unwritten := fun _ _ _ => rfl
  beyond := fun _ _ => rfl

theorem State.TableHolds.exec_append {i : Instr} {n : Nat} {s t : State} (h : s.TableHolds) (hi : appendCount i = some n)
    (hexec : exec i s = .next t) : t.TableHolds := by
  obtain ⟨b, m, u, happended, hend⟩ := exec_append_cases hi hexec
  have hu : u.TableHolds := by
    obtain ⟨v, -, rfl⟩ | ⟨offset, count, -, rfl⟩ := happended
    · exact (h.setCursor b m).appended v
    · exact (h.setCursor b m).copied offset count 0
  obtain ⟨p, rfl⟩ | ⟨e, rfl⟩ := hend
  · exact hu.setPhase p
  · exact hu.withError e

/-- The sequencer leads to `L_CODE` from `L_CODE` only: a decode begins with an access of the host. -/
theorem phase_eq_lCode_of_sequencerStep {s t : State} (h : sequencerStep s = .next t) (ht : t.phase = .lCode) :
    s.phase = .lCode := by
  by_cases hhalted : s.phase = .idle ∨ s.phase = .done ∨ s.phase = .error
  · rw [sequencerStep_halted hhalted] at h
    rwa [Host.Outcome.next.inj h]
  · have hmoves := sequencerStep_movesTo h
    rw [ht] at hmoves
    cases hs : s.phase with
    | lCode => rfl
    | idle | done | error => simp [hs] at hhalted
    | pRun | pColor | pStamp | pFill => rw [hs] at hmoves; exact absurd hmoves (by decide)

theorem sequencerStep_tableHolds {s t : State} (h : s.phase = .lCode → s.TableHolds) (hstep : sequencerStep s = .next t)
    (ht : t.phase = .lCode) : t.TableHolds := by
  have hs := phase_eq_lCode_of_sequencerStep hstep ht
  obtain ⟨i, -, -, hi, hcode⟩ := sequencerStep_code (s := s) (site := .lCode) (by rw [hs]; rfl)
  obtain ⟨n, hn⟩ := appendCount_of_site hi
  exact (h hs).exec_append hn (hcode.symm.trans hstep)

/-- START ends in `L_CODE` with the decode initialised, or where it was there already. -/
theorem exec_start_tableHolds {s t : State} (h : s.phase = .lCode → s.TableHolds) (hexec : exec .start s = .next t)
    (ht : t.phase = .lCode) : t.TableHolds := by
  rw [exec_start_eq] at hexec
  rw [← Host.Outcome.next.inj hexec] at ht ⊢
  revert ht
  split
  · exact h
  split
  · nofun
  split
  · exact fun _ => State.started_tableHolds _ _
  split <;> nofun

theorem hostAccess_tableHolds {s t : State} (h : s.phase = .lCode → s.TableHolds) {a : HostAccess}
    (haccess : hostAccess a s = .next t) (ht : t.phase = .lCode) : t.TableHolds := by
  obtain rfl | ⟨-, ⟨addr, v, -, -, rfl⟩ | ⟨n, -, rfl⟩ | ⟨-, hstart⟩⟩ := hostAccess_cases haccess
  · exact h ht
  · exact { h ht with }
  · exact { h ht with }
  · exact exec_start_tableHolds h hstart ht

/-- Settles O28: the sequencer's step appends to a table that holds, and of the host's accesses only START, which empties the
table and the buffer, leads to `L_CODE`. -/
theorem stepKeepsTheTableInvariant : Obligations.StepKeepsTheTableInvariant := by
  unfold Obligations.StepKeepsTheTableInvariant
  intro s t _ h hstep ht
  obtain ⟨s0, hpass, heq⟩ | ⟨a, later, -, heq⟩ := step_cases s
  · obtain ⟨-, later, rfl⟩ := step_hostPasses hpass
    exact sequencerStep_tableHolds (s := s.setHostSlots later) (fun hs => (h hs).setHostSlots later) (heq.symm.trans hstep) ht
  · exact hostAccess_tableHolds (s := s.setHostSlots later) (fun hs => (h hs).setHostSlots later) (heq.symm.trans hstep) ht

/-! ### The frame -/

/-- `u` is `s` with at most `n` bytes appended, the cursor aside (R81): what the appends can have changed, and that no register
outside FormatL has. -/
structure State.OnlyAppends (s u : State) (n : Nat) : Prop where
  readPb : ∀ a, a < s.outLen ∨ s.outLen + n ≤ a → u.readPb a = s.readPb a
  readLut : ∀ j, (∀ k < n, j ≠ lutIndex (s.outLen + 1 + k)) → u.readLut j = s.readLut j
  outLen : n = 0 → u.outLen = s.outLen
  outputPos : u.outputPos = s.outputPos
  stampPos : u.stampPos = s.stampPos
  col : u.col = s.col
  fillPos : u.fillPos = s.fillPos
  carry : u.carry = s.carry
  err : u.err = s.err

theorem State.appended_onlyAppends (s : State) (v : Byte) : s.OnlyAppends (s.appended v) 1 where
  readPb := fun _ ha => Memory.read_write_other _ _ (by omega)
  readLut := fun _ hj => Memory.read_write_other _ _ (hj 0 Nat.one_pos)
  outLen := fun h => absurd h Nat.one_ne_zero
  outputPos := rfl
  stampPos := rfl
  col := rfl
  fillPos := rfl
  carry := rfl
  err := rfl

theorem State.copied_onlyAppends {count n : Nat} (hcount : count ≤ n) (offset i : Nat) (s : State) :
    s.OnlyAppends (s.copied offset count i) n := by
  obtain ⟨-, -, -, houtputPos, hstampPos, hcol, hfillPos, hcarry, herr, -⟩ := State.copied_frame offset count i s
  refine ⟨fun a ha => ?_, fun j hj => ?_, fun hn => ?_, houtputPos, hstampPos, hcol, hfillPos, hcarry, herr⟩
  · exact State.copied_readPb_outside _ _ _ _ (by omega)
  · exact State.copied_readLut_outside _ _ _ _ fun k hk => hj k (Nat.lt_of_lt_of_le hk hcount)
  · rw [State.copied_outLen]
    omega

theorem State.OnlyAppends.of_setCursor {s u : State} {b n : Nat} {m : BitVec 8} (h : (s.setCursor b m).OnlyAppends u n) :
    s.OnlyAppends u n := { h with }

/-- A code's appends, and the change of the phase or the error at its end. -/
theorem exec_append_onlyAppends {i : Instr} {n : Nat} {s t : State} (hi : appendCount i = some n) (h : exec i s = .next t) :
    ∃ u, s.OnlyAppends u n ∧ ((∃ p, t = u.setPhase p) ∨ ∃ e, t = u.withError e) := by
  obtain ⟨b, m, u, ⟨v, rfl, rfl⟩ | ⟨offset, count, hcount, rfl⟩, hend⟩ := exec_append_cases hi h
  · exact ⟨_, (State.appended_onlyAppends _ v).of_setCursor, hend⟩
  · exact ⟨_, (State.copied_onlyAppends hcount offset 0 _).of_setCursor, hend⟩

/-- Settles O27: a FormatL code only appends, and its end writes `phase` or, with it, `ERR`. -/
theorem formatLCodesLeaveTheRestAlone : Obligations.FormatLCodesLeaveTheRestAlone := by
  unfold Obligations.FormatLCodesLeaveTheRestAlone
  intro i n s t hi hexec
  obtain ⟨hcb, hinLen, hslots⟩ := coreNeverWritesItsInputs i s t hexec
  obtain ⟨u, hu, ⟨p, rfl⟩ | ⟨e, rfl⟩⟩ := exec_append_onlyAppends hi hexec
  · exact ⟨hu.readPb, hu.readLut, hcb, hu.outLen, hu.outputPos, hu.stampPos, hu.col, hu.fillPos, hu.carry, hinLen, hslots,
      fun _ => hu.err⟩
  · exact ⟨hu.readPb, hu.readLut, hcb, hu.outLen, hu.outputPos, hu.stampPos, hu.col, hu.fillPos, hu.carry, hinLen, hslots,
      fun hne => absurd rfl hne⟩

/-! ### The effect of each code -/

theorem exec_append_cut {i : Instr} {n p : Nat} {s : State} (hi : appendCount i = some n) (hc : s.CursorAt p)
    (hp : p ≤ Config.payloadBits) (hn : Config.payloadBits < p + codeLength i) : exec i s = .next s.overrun :=
  exec_cut_eq_overrun (by rw [isStreamCode, site_append hi]; rfl) (by simp [site_append hi]) hc hp hn

/-- Settles O24: the decoder reads the byte behind the flag, and the code appends it where there is room. -/
theorem literalIsAppended : Obligations.LiteralIsAppended := by
  unfold Obligations.LiteralIsAppended
  refine ⟨withField_append Instr.lLit, fun b s p hc hp => ⟨fun hlen hroom => ?_, fun hlen hfull => ?_, fun hcut => ?_⟩⟩
  · exact ⟨_, exec_lLit_room hc hlen hroom, Memory.read_write_same .., Memory.read_write_same .., rfl, ⟨rfl, rfl⟩, rfl, rfl⟩
  · exact ⟨_, exec_lLit_full hc hlen (Nat.le_of_eq hfull.symm), ⟨rfl, rfl⟩, rfl⟩
  · exact exec_append_cut rfl hc hp (by rwa [codeLength_eq])

/-- A code appends far fewer bytes than the table has, so it never writes an index twice. -/
theorem copyCount_le_lutSize (n : BitVec 4) : n.toNat + 3 ≤ Config.lutSize := by
  have := n.isLt
  simp only [Config.lutSize]
  omega

/-- The `k`-th byte of the copy loop is the table byte its iteration finds: one an earlier iteration wrote, or one
the code found there (R83, R87). -/
theorem State.copied_copiesByte {offset count : Nat} (s : State) {k : Nat} (hk : k < count)
    (hcount : count ≤ Config.lutSize) : s.CopiesByte (s.copied offset count 0) offset k := by
  have hbyte := State.copied_readPb (offset := offset) s hk
  refine ⟨fun j hj hindex => ?_, fun hnone => ?_⟩
  · have hjcount := Nat.lt_trans hj hk
    calc (s.copied offset count 0).readPb (s.outLen + k)
        = (s.copied offset k 0).readLut (lutIndex (s.outLen + 1 + j)) := hbyte.trans (congrArg _ hindex.symm)
      _ = (s.copied offset k 0).readPb (s.outLen + j) :=
        State.copied_readLut s hj (Nat.le_trans (Nat.le_of_lt hk) hcount)
      _ = (s.copied offset count 0).readPb (s.outLen + j) := by
        rw [State.copied_readPb s hj, State.copied_readPb s hjcount]
  · exact hbyte.trans (State.copied_readLut_outside _ _ _ _ fun j hj => (hnone j hj).symm)

/-- R83 of every iteration: the byte it appends, and its mirror in the table at the new output length. -/
theorem State.copied_expands {offset count : Nat} (s : State) {k : Nat} (hk : k < count)
    (hcount : count ≤ Config.lutSize) :
    s.CopiesByte (s.copied offset count 0) offset k ∧
      (s.copied offset count 0).readLut ((s.outLen + 1 + k) % 65536) = (s.copied offset count 0).readPb (s.outLen + k) :=
  ⟨State.copied_copiesByte s hk hcount, State.copied_readLut s hk hcount⟩

/-- Settles O25: the copy loop runs as far as there is room. -/
theorem copyExpandsTheTable : Obligations.CopyExpandsTheTable := by
  unfold Obligations.CopyExpandsTheTable
  refine ⟨fun o n rest ho => ?_, fun o n s p hc hp => ⟨fun hlen hroom => ?_, fun hlen hle hfull => ?_, fun hcut => ?_⟩⟩
  · rw [← List.append_assoc]
    exact decode_encode_lCopy ho n rest
  · have hcount : n.toNat + 3 ≤ Config.capacity - s.outLen := Nat.le_sub_of_add_le' hroom
    obtain ⟨-, hbyte, hmask, -, -, -, -, -, herr, -⟩ := State.copied_frame o.toNat (n.toNat + 3) 0 (s.atBit (p + 21))
    exact ⟨_, (exec_lCopy_at hc hlen).trans (congrArg _ (if_pos hcount)), State.copied_outLen .., ⟨hbyte, hmask⟩, rfl, herr,
      fun k hk => State.copied_expands (s.atBit (p + 21)) hk (copyCount_le_lutSize n)⟩
  · have hcount : ¬ n.toNat + 3 ≤ Config.capacity - s.outLen := by simp only [Config.capacity_eq]; omega
    obtain ⟨-, hbyte, hmask, -⟩ := State.copied_frame o.toNat (Config.capacity - s.outLen) 0 (s.atBit (p + 21))
    exact ⟨_, (exec_lCopy_at hc hlen).trans (congrArg _ (if_neg hcount)),
      (State.copied_outLen ..).trans (Nat.add_sub_of_le hle), ⟨hbyte, hmask⟩, rfl, rfl,
      fun k hk => State.copied_expands (s.atBit (p + 21)) (Nat.lt_sub_iff_add_lt'.mpr hk)
        (Nat.le_trans (Nat.le_of_not_le hcount) (copyCount_le_lutSize n))⟩
  · exact exec_append_cut rfl hc hp (by rwa [codeLength_eq])

/-- Settles O26: a zero and sixteen zeros of an offset are the terminator, which writes the phase only. -/
theorem terminatorEndsTheDecode : Obligations.TerminatorEndsTheDecode := by
  unfold Obligations.TerminatorEndsTheDecode
  refine ⟨decode_encode_lEnd, fun s p hc hp => ⟨fun hlen => ?_, fun hcut => ?_⟩⟩
  · exact ⟨_, exec_lEnd_at hc hlen, ⟨rfl, rfl⟩, rfl⟩
  · exact exec_append_cut rfl hc hp hcut

end Sys2Proof.Machine
end

section
/-!
PROOF. R97's ladder: the run codes are rungs `k` from 1 to 23, rung `k` with the value `v` in `k` bits is the run of
`2^k - 2 + v` pixels, and each rung begins where the one below it ends. `P.RUN0` and `P.RUN1` are rung 1, `P.RUNS` is rung 2.
-/

namespace Sys2Proof.Machine

/-- The run code on rung `k` of the ladder with the value `v`; no other `k` occurs. -/
def rungCode (k v : Nat) : Instr :=
  match k with
  | 1 => if v = 0 then .pRun0 else .pRun1
  | 2 => .pRuns (.ofNat 2 v)
  | 3 => .pRunx3 (.ofNat 3 v)
  | 4 => .pRunx4 (.ofNat 4 v)
  | 5 => .pRunx5 (.ofNat 5 v)
  | 6 => .pRunx6 (.ofNat 6 v)
  | 7 => .pRunx7 (.ofNat 7 v)
  | 8 => .pRunx8 (.ofNat 8 v)
  | 9 => .pRunx9 (.ofNat 9 v)
  | 10 => .pRunx10 (.ofNat 10 v)
  | 11 => .pRunx11 (.ofNat 11 v)
  | 12 => .pRunx12 (.ofNat 12 v)
  | 13 => .pRunx13 (.ofNat 13 v)
  | 14 => .pRunx14 (.ofNat 14 v)
  | 15 => .pRunx15 (.ofNat 15 v)
  | 16 => .pRunx16 (.ofNat 16 v)
  | 17 => .pRunx17 (.ofNat 17 v)
  | 18 => .pRunx18 (.ofNat 18 v)
  | 19 => .pRunx19 (.ofNat 19 v)
  | 20 => .pRunx20 (.ofNat 20 v)
  | 21 => .pRunx21 (.ofNat 21 v)
  | 22 => .pRunx22 (.ofNat 22 v)
  | 23 => .pRunx23 (.ofNat 23 v)
  | _ => .pRun0

/-- Every rung with every value of its width is a run code, of the ladder's length. -/
theorem runTable_rungCode {k v : Nat} (hk : 1 ≤ k) (hk' : k ≤ 23) (hv : v < 2 ^ k) :
    runTable (rungCode k v) = some (2 * k, 2 ^ k - 2 + v) := by
  obtain hlow | hhigh : k ≤ 2 ∨ 3 ≤ k := by omega
  · interval_cases k <;> interval_cases v <;> rfl
  · have hmod : some (2 * k, 2 ^ k - 2 + v % 2 ^ k) = some (2 * k, 2 ^ k - 2 + v) := by rw [Nat.mod_eq_of_lt hv]
    interval_cases k
    all_goals exact hmod

/-- Every run code is on a rung. -/
theorem exists_rungCode {i : Instr} {len n : Nat} (h : runTable i = some (len, n)) :
    ∃ k v, v < 2 ^ k ∧ n + 2 = 2 ^ k + v ∧ i = rungCode k v := by
  cases i <;> simp only [runTable, Option.some.injEq, Prod.mk.injEq, reduceCtorEq] at h <;> obtain ⟨-, rfl⟩ := h
  case pRun0 => exact ⟨1, 0, by decide, rfl, rfl⟩
  case pRun1 => exact ⟨1, 1, by decide, rfl, rfl⟩
  all_goals next v => exact ⟨_, v.toNat, v.isLt, by omega, by simp [rungCode]⟩

/-- The rung of a run length is the binary logarithm of the length plus 2. -/
theorem log2_add_two_of_rung {k v n : Nat} (hv : v < 2 ^ k) (hn : n + 2 = 2 ^ k + v) : (n + 2).log2 = k :=
  (Nat.log2_eq_iff (by omega)).mpr ⟨by omega, by rw [Nat.pow_succ]; omega⟩

/-- Every run length the ladder reaches is on a rung. -/
theorem exists_rung {n : Nat} (hn : n ≤ 16777213) : ∃ k v, 1 ≤ k ∧ k ≤ 23 ∧ v < 2 ^ k ∧ n + 2 = 2 ^ k + v := by
  have hlow : 2 ^ (n + 2).log2 ≤ n + 2 := Nat.log2_self_le (by omega)
  have hhigh : n + 2 < 2 ^ ((n + 2).log2 + 1) := Nat.lt_log2_self
  have hk : 1 ≤ (n + 2).log2 := (Nat.le_log2 (by omega)).mpr (by omega)
  have hk' : (n + 2).log2 < 24 := (Nat.log2_lt (by omega)).mpr (by omega)
  rw [Nat.pow_succ] at hhigh
  exact ⟨(n + 2).log2, n + 2 - 2 ^ (n + 2).log2, hk, by omega, by omega, by omega⟩

/-- Two run codes of one run length are on the same rung with the same value. -/
theorem runTable_injective {i j : Instr} {len len' n : Nat} (hi : runTable i = some (len, n))
    (hj : runTable j = some (len', n)) : j = i := by
  obtain ⟨k, v, hv, hn, rfl⟩ := exists_rungCode hi
  obtain ⟨k', v', hv', hn', rfl⟩ := exists_rungCode hj
  obtain rfl : k = k' := (log2_add_two_of_rung hv hn).symm.trans (log2_add_two_of_rung hv' hn')
  obtain rfl : v = v' := Nat.add_left_cancel (hn.symm.trans hn')
  rfl

/-- Settles O3: the rungs are disjoint, and together they are the lengths from 0 to 16,777,213. -/
theorem everyRunLengthHasExactlyOneCode : Obligations.EveryRunLengthHasExactlyOneCode := by
  unfold Obligations.EveryRunLengthHasExactlyOneCode
  refine ⟨fun n hn => ?_, fun i len n hrun => ⟨runTable_le hrun, (codeLength_run hrun).symm⟩⟩
  obtain ⟨k, v, hk, hk', hv, hsum⟩ := exists_rung hn
  have hlength : 2 ^ k - 2 + v = n := by
    have := Nat.pow_le_pow_right (n := 2) (by decide) hk
    omega
  have hrun := runTable_rungCode hk hk' hv
  rw [hlength] at hrun
  exact ⟨rungCode k v, ⟨2 * k, hrun⟩, fun j len hj => runTable_injective hrun hj⟩

end Sys2Proof.Machine
end

section
/-!
PROOF. The codes of FormatP that read a colour or close a pixel record, and the frames of all FormatP codes. A code first
writes what is its own (the cursor, for `P.COLOR` and the stamp codes also `PB` and a register); its end is a raise, a change
of the phase, the run advance, the close of a pixel record or the entry to the gap-fill pass, and all ends share one frame.
-/

namespace Sys2Proof.Machine

/-! ### The effect of each code -/

/-- Settles O30: after its bits the sentinel is the entry to the gap-fill pass. -/
theorem sentinelStartsTheGapFill : Obligations.SentinelStartsTheGapFill := by
  unfold Obligations.SentinelStartsTheGapFill
  intro s p hc hp
  refine ⟨fun hlen => ?_, fun hcut => ?_⟩
  · exact ⟨_, exec_pEnd_at hc hlen, ⟨rfl, rfl⟩, ⟨rfl, rfl, rfl⟩, rfl⟩
  · exact exec_cut_eq_overrun rfl nofun hc hp hcut

/-- Settles O32: after its bits `S.EXIT` is the close of the pixel record. -/
theorem stampExitClosesThePixel : Obligations.StampExitClosesThePixel := by
  unfold Obligations.StampExitClosesThePixel
  refine ⟨fun rest => rfl, fun s p hc hp => ⟨fun hlen => ?_, fun hcut => ?_⟩⟩
  · refine ⟨_, exec_sExit_at hc hlen, ?_, State.pixelClosed_closesPixelOf (s.atBit (p + 3)), ?_⟩
    all_goals rw [State.pixelClosed_eq]
    · exact ⟨rfl, rfl⟩
    · rfl
  · exact exec_cut_eq_overrun rfl nofun hc hp hcut

/-- The three bytes of the colour just written. -/
theorem State.colored_readPb (s : State) (c : Rgb) :
    (s.colored c).readPb s.outputPos = c.r ∧ (s.colored c).readPb (s.outputPos + 1) = c.g ∧
      (s.colored c).readPb (s.outputPos + 2) = c.b := by
  have htriple : (s.colored c).readTriple s.outputPos = c := State.readTriple_of_writeTriple rfl
  exact ⟨congrArg Rgb.r htriple, congrArg Rgb.g htriple, congrArg Rgb.b htriple⟩

/-- Settles O31: once its 24 colour bits are there the colour is written and recorded, and the flag decides what follows. -/
theorem colorIsWrittenAndRecorded : Obligations.ColorIsWrittenAndRecorded := by
  unfold Obligations.ColorIsWrittenAndRecorded
  intro r g b stamp s p hc hp hin
  refine ⟨fun hcolor => ?_, exec_pColor_short hc hp⟩
  obtain ⟨hr, hg, hb⟩ := State.colored_readPb s ⟨r, g, b⟩
  by_cases hflag : p + 25 ≤ Config.payloadBits
  · have hnotMissing : p + 24 ≠ Config.payloadBits := by omega
    cases stamp with
    | true =>
      exact ⟨_, exec_pColor_at hc hflag hin, hr, hg, hb, rfl, fun _ => ⟨⟨rfl, rfl⟩, rfl, fun _ => ⟨rfl, rfl, rfl⟩, nofun⟩,
        fun hmissing => absurd hmissing hnotMissing⟩
    | false =>
      have hexec : exec (.pColor r g b false) s = .next ((s.colored ⟨r, g, b⟩).atBit (p + 25)).pixelClosed :=
        exec_pColor_at hc hflag hin
      have hcloses := State.pixelClosed_closesPixelOf ((s.colored ⟨r, g, b⟩).atBit (p + 25))
      rw [State.pixelClosed_eq] at hexec hcloses
      exact ⟨_, hexec, hr, hg, hb, rfl, fun _ => ⟨⟨rfl, rfl⟩, rfl, nofun, fun _ => ⟨hcloses, rfl⟩⟩,
        fun hmissing => absurd hmissing hnotMissing⟩
  · have hmissing : p + 24 = Config.payloadBits := by omega
    exact ⟨_, exec_pColor_flagMissing hc hmissing hin, hr, hg, hb, rfl, fun h => absurd h hflag, fun _ => rfl⟩

/-! ### The end of a code -/

/-- `t` is `u` after the end of a FormatP code: the end stores nothing, writes `fillPos` and `carry` only on entry to the
gap-fill pass and `ERR` only by a raise. Of the cursor, the phase and `outputPos` it says nothing. -/
structure State.EndsCodeOf (t u : State) : Prop where
  pb : t.pb = u.pb
  lut : t.lut = u.lut
  outLen : t.outLen = u.outLen
  stampPos : t.stampPos = u.stampPos
  col : t.col = u.col
  fill : t.phase ≠ .pFill → t.fillPos = u.fillPos ∧ t.carry = u.carry
  err : t.phase ≠ .error → t.err = u.err

theorem State.withError_endsCodeOf (u : State) (e : DecodeError) : (u.withError e).EndsCodeOf u :=
  ⟨rfl, rfl, rfl, rfl, rfl, fun _ => ⟨rfl, rfl⟩, fun h => absurd rfl h⟩

theorem State.setPhase_endsCodeOf (u : State) (p : Phase) : (u.setPhase p).EndsCodeOf u :=
  ⟨rfl, rfl, rfl, rfl, rfl, fun _ => ⟨rfl, rfl⟩, fun _ => rfl⟩

theorem State.fillEntered_endsCodeOf (u : State) : u.fillEntered.EndsCodeOf u :=
  ⟨rfl, rfl, rfl, rfl, rfl, fun h => absurd rfl h, fun _ => rfl⟩

theorem State.EndsCodeOf.of_setOutputPos {t u : State} {a : Nat} (h : t.EndsCodeOf (u.setOutputPos a)) : t.EndsCodeOf u :=
  { h with }

theorem State.EndsCodeOf.of_setCursor {t u : State} {b : Nat} {m : BitVec 8} (h : t.EndsCodeOf (u.setCursor b m)) :
    t.EndsCodeOf u :=
  { h with }

theorem State.runAdvanced_endsCodeOf (u : State) (n : Nat) : (u.runAdvanced n).EndsCodeOf u := by
  rw [State.runAdvanced]
  split
  · exact (State.fillEntered_endsCodeOf _).of_setOutputPos
  · exact (State.setPhase_endsCodeOf _ _).of_setOutputPos

theorem State.pixelClosed_endsCodeOf (u : State) : u.pixelClosed.EndsCodeOf u := by
  rw [State.pixelClosed]
  split
  · exact (State.setPhase_endsCodeOf _ _).of_setOutputPos
  · exact (State.fillEntered_endsCodeOf _).of_setOutputPos

/-! ### The frames -/

/-- A run code, `P.END` and `S.EXIT` have nothing to write but their end. -/
theorem exec_endsCodeOf {i : Instr} {s t : State} (hi : (∃ len n, runTable i = some (len, n)) ∨ i = .pEnd ∨ i = .sExit)
    (h : exec i s = .next t) : t.EndsCodeOf s := by
  obtain ⟨len, n, hrun⟩ | rfl | rfl := hi
  · obtain ⟨b, m, ⟨-, rfl⟩ | rfl⟩ := exec_run_cases hrun h
    · exact (State.withError_endsCodeOf _ _).of_setCursor
    · exact (State.runAdvanced_endsCodeOf _ n).of_setCursor
  · obtain ⟨b, m, ⟨-, rfl⟩ | rfl⟩ := exec_pEnd_cases h
    · exact (State.withError_endsCodeOf _ _).of_setCursor
    · exact (State.fillEntered_endsCodeOf _).of_setCursor
  · obtain ⟨b, m, ⟨-, rfl⟩ | rfl⟩ := exec_sExit_cases h
    · exact (State.withError_endsCodeOf _ _).of_setCursor
    · exact (State.pixelClosed_endsCodeOf _).of_setCursor

theorem exec_pEnd_outputPos {s t : State} (h : exec .pEnd s = .next t) : t.outputPos = s.outputPos := by
  obtain ⟨b, m, ⟨-, rfl⟩ | rfl⟩ := exec_pEnd_cases h
  · rfl
  · rfl

/-- Settles O34: these codes are their end. -/
theorem runCodesAndExitsStoreNothing : Obligations.RunCodesAndExitsStoreNothing := by
  unfold Obligations.RunCodesAndExitsStoreNothing
  intro i s t hi h
  obtain ⟨hcb, hinLen, hslots⟩ := coreNeverWritesItsInputs i s t h
  obtain ⟨hpb, hlut, houtLen, hstampPos, hcol, hfill, herr⟩ := exec_endsCodeOf hi h
  exact ⟨fun a => congrArg (·.read a) hpb, fun a => congrArg (·.read a) hlut, hcb, houtLen, hstampPos, hcol, hinLen, hslots,
    hfill, herr, fun hend => exec_pEnd_outputPos (hend ▸ h)⟩

/-- `u` is `s` after what a code writes before its end: of `LUT`, `PB`, `outLen`, `fillPos`, `carry` and `ERR` at most the
triple of `PB` at `a` has changed. -/
structure State.WritesOnlyAt (u s : State) (a : Nat) : Prop where
  readPb : ∀ x, x < a ∨ a + 2 < x → u.readPb x = s.readPb x
  lut : u.lut = s.lut
  outLen : u.outLen = s.outLen
  fillPos : u.fillPos = s.fillPos
  carry : u.carry = s.carry
  err : u.err = s.err

/-- The frame of a code that writes a triple and ends. -/
theorem State.EndsCodeOf.frame {t u s : State} {a : Nat} (h : t.EndsCodeOf u) (hu : u.WritesOnlyAt s a) :
    (∀ x, x < a ∨ a + 2 < x → t.readPb x = s.readPb x) ∧ (∀ x, t.readLut x = s.readLut x) ∧ t.outLen = s.outLen ∧
      (t.phase ≠ .pFill → t.fillPos = s.fillPos ∧ t.carry = s.carry) ∧ (t.phase ≠ .error → t.err = s.err) :=
  ⟨fun x hx => (congrArg (·.read x) h.pb).trans (hu.readPb x hx), fun x => congrArg (·.read x) (h.lut.trans hu.lut),
    h.outLen.trans hu.outLen, fun hphase => (h.fill hphase).imp (·.trans hu.fillPos) (·.trans hu.carry),
    fun hphase => (h.err hphase).trans hu.err⟩

theorem State.setCursor_writesOnlyAt (s : State) (b : Nat) (m : BitVec 8) (a : Nat) : (s.setCursor b m).WritesOnlyAt s a :=
  ⟨fun _ _ => rfl, rfl, rfl, rfl, rfl, rfl⟩

theorem State.colored_writesOnlyAt (s : State) (c : Rgb) : (s.colored c).WritesOnlyAt s s.outputPos :=
  ⟨fun _ hx => Memory.read_writeTriple_outside _ _ hx, rfl, rfl, rfl, rfl, rfl⟩

theorem exec_pColor_endsCodeOf {r g b : Byte} {stamp : Bool} {s t : State} (h : exec (.pColor r g b stamp) s = .next t) :
    ∃ u, t.EndsCodeOf u ∧ u.WritesOnlyAt s s.outputPos ∧ (stamp = false → u.stampPos = s.stampPos) := by
  obtain ⟨byte, m, ⟨-, rfl⟩ | ⟨-, ⟨-, rfl⟩ | ⟨rfl, rfl⟩ | ⟨-, rfl⟩⟩⟩ := exec_pColor_cases h
  · exact ⟨_, State.withError_endsCodeOf _ _, State.setCursor_writesOnlyAt .., fun _ => rfl⟩
  · exact ⟨_, State.withError_endsCodeOf _ _, { State.colored_writesOnlyAt s _ with }, fun _ => rfl⟩
  · exact ⟨_, State.setPhase_endsCodeOf _ _, { State.colored_writesOnlyAt s _ with }, nofun⟩
  · exact ⟨_, State.pixelClosed_endsCodeOf _, { State.colored_writesOnlyAt s _ with }, fun _ => rfl⟩

theorem exec_pColor_stamp_outputPos {r g b : Byte} {s t : State} (h : exec (.pColor r g b true) s = .next t) :
    t.outputPos = s.outputPos := by
  obtain ⟨byte, m, ⟨-, rfl⟩ | ⟨-, ⟨-, rfl⟩ | ⟨-, rfl⟩ | ⟨hstamp, -⟩⟩⟩ := exec_pColor_cases h
  · rfl
  · rfl
  · rfl
  · cases hstamp

/-- Settles O35: the colour, then the end of the code. -/
theorem colorLeavesTheRestAlone : Obligations.ColorLeavesTheRestAlone := by
  unfold Obligations.ColorLeavesTheRestAlone
  intro r g b stamp s t h
  obtain ⟨hcb, hinLen, hslots⟩ := coreNeverWritesItsInputs _ s t h
  obtain ⟨u, hend, hu, hstampPos⟩ := exec_pColor_endsCodeOf h
  obtain ⟨hpb, hlut, houtLen, hfill, herr⟩ := hend.frame hu
  exact ⟨hpb, hlut, hcb, houtLen, hinLen, hslots, fun hstamp => exec_pColor_stamp_outputPos (hstamp ▸ h),
    fun hstamp => hend.stampPos.trans (hstampPos hstamp), hfill, herr⟩

theorem exec_stamp_endsCodeOf {i : Instr} {len inc : Nat} {s t : State} (hi : stampTable i = some (len, inc))
    (h : exec i s = .next t) : ∃ u, t.EndsCodeOf u ∧ u.WritesOnlyAt s (s.stampPos + inc) ∧ u.col = s.col := by
  obtain ⟨b, m, ⟨-, rfl⟩ | ⟨-, rfl⟩ | ⟨-, rfl⟩⟩ := exec_stamp_cases hi h
  · exact ⟨_, State.withError_endsCodeOf _ _, State.setCursor_writesOnlyAt .., rfl⟩
  · exact ⟨_, State.pixelClosed_endsCodeOf _, { State.setCursor_writesOnlyAt s b m _ with }, rfl⟩
  · have hwrite : ∀ x, x < s.stampPos + inc ∨ s.stampPos + inc + 2 < x →
        (s.pb.writeTriple (s.stampPos + inc) s.col).read x = s.readPb x := fun _ => Memory.read_writeTriple_outside _ _
    exact ⟨_, State.setPhase_endsCodeOf _ _, ⟨hwrite, rfl, rfl, rfl, rfl, rfl⟩, rfl⟩

theorem exec_stamp_outputPos {i : Instr} {len inc : Nat} {s t : State} (hi : stampTable i = some (len, inc))
    (h : exec i s = .next t) (hphase : t.phase = .pStamp ∨ t.phase = .error) : t.outputPos = s.outputPos := by
  obtain ⟨b, m, ⟨-, rfl⟩ | ⟨-, rfl⟩ | ⟨-, rfl⟩⟩ := exec_stamp_cases hi h
  · rfl
  · exfalso
    rcases State.pixelClosed_pixelRow ((s.setCursor b m).setStampPos (s.stampPos + inc)) with ⟨-, hrow⟩ | ⟨-, hrow⟩ <;>
      simp [hrow] at hphase
  · rfl

/-- Settles O36: the stamp, then the end of the code. -/
theorem stampCodesLeaveTheRestAlone : Obligations.StampCodesLeaveTheRestAlone := by
  unfold Obligations.StampCodesLeaveTheRestAlone
  intro i len inc s t hi h
  obtain ⟨hcb, hinLen, hslots⟩ := coreNeverWritesItsInputs i s t h
  obtain ⟨u, hend, hu, hcol⟩ := exec_stamp_endsCodeOf hi h
  obtain ⟨hpb, hlut, houtLen, hfill, herr⟩ := hend.frame hu
  exact ⟨hpb, hlut, hcb, houtLen, hend.col.trans hcol, hinLen, hslots, exec_stamp_outputPos hi h, hfill, herr⟩

end Sys2Proof.Machine
end

section
/-!
PROOF. The gap-fill pass (43_gapfill.md). One FILL.STEP is `State.filled`; the triple it leaves at its pixel and the carry it
takes on are the same colour, so R122's nearest colour is read off the carry. The invariant of the pass is kept by one pixel,
and 307,200 of them run through all of `PB`.
-/

namespace Sys2Proof.Machine

/-! ### One pixel -/

@[simp] theorem State.filled_fillPos (s : State) : s.filled.fillPos = s.fillPos + 3 := by rw [State.filled_eq]

@[simp] theorem State.filled_carry (s : State) :
    s.filled.carry = if s.readTriple s.fillPos = Rgb.zero then s.carry else s.readTriple s.fillPos := by
  rw [State.filled_eq]

@[simp] theorem State.filled_phase (s : State) :
    s.filled.phase = if Config.capacity ≤ s.fillPos + 3 then .done else s.phase := by
  rw [State.filled_eq]

theorem State.filled_pb (s : State) :
    s.filled.pb = if s.readTriple s.fillPos = Rgb.zero then s.pb.writeTriple s.fillPos s.carry else s.pb := by
  rw [State.filled_eq]

/-- The pass leaves the carry it goes on with at the pixel. -/
theorem State.filled_readTriple (s : State) : s.filled.readTriple s.fillPos = s.filled.carry := by
  rw [State.filled_carry]
  by_cases hgap : s.readTriple s.fillPos = Rgb.zero
  · rw [if_pos hgap]
    exact State.readTriple_of_writeTriple (s.filled_pb.trans (if_pos hgap))
  · rw [if_neg hgap]
    exact State.readTriple_congr (fun a => congrArg (·.read a) (s.filled_pb.trans (if_neg hgap))) _

theorem State.filled_readPb_of_color {s : State} (h : s.readTriple s.fillPos ≠ Rgb.zero) (a : Nat) :
    s.filled.readPb a = s.readPb a :=
  congrArg (·.read a) (s.filled_pb.trans (if_neg h))

theorem State.filled_readPb_outside {s : State} {a : Nat} (h : a < s.fillPos ∨ s.fillPos + 2 < a) :
    s.filled.readPb a = s.readPb a := by
  by_cases hgap : s.readTriple s.fillPos = Rgb.zero
  · rw [State.readPb, State.filled_pb, if_pos hgap]
    exact Memory.read_writeTriple_outside _ _ h
  · exact State.filled_readPb_of_color hgap a

theorem State.filled_readTriple_behind {s : State} {a : Nat} (h : a + 2 < s.fillPos) :
    s.filled.readTriple a = s.readTriple a := by
  simp only [State.readTriple]
  rw [State.filled_readPb_outside (by omega), State.filled_readPb_outside (by omega), State.filled_readPb_outside (by omega)]

/-- Settles O37: one FILL.STEP is `State.filled`. -/
theorem fillStepFillsAGapOrCarriesAColor : Obligations.FillStepFillsAGapOrCarriesAColor := by
  unfold Obligations.FillStepFillsAGapOrCarriesAColor
  intro s hs hin
  refine ⟨s.filled, exec_fillStep_inside hin, s.filled_fillPos, fun hgap => ?_, fun hcolor => ?_, fun hmore => ?_,
    fun hend => ?_, ?_⟩
  · have hcarry : s.filled.carry = s.carry := s.filled_carry.trans (if_pos hgap)
    exact ⟨s.filled_readTriple.trans hcarry, hcarry⟩
  · have hcarry : s.filled.carry = s.readTriple s.fillPos := s.filled_carry.trans (if_neg hcolor)
    exact ⟨s.filled_readTriple.trans hcarry, hcarry⟩
  · rw [State.filled_fillPos] at hmore
    exact (s.filled_phase.trans (if_neg (Nat.not_le.mpr hmore))).trans hs
  · rw [State.filled_fillPos] at hend
    exact s.filled_phase.trans (if_pos hend)
  · rw [State.filled_eq]
    exact ⟨rfl, rfl, rfl⟩

/-- Settles O38: `State.filled` writes `PB` at the pixel alone, and there only over a gap. -/
theorem fillStepLeavesTheRestAlone : Obligations.FillStepLeavesTheRestAlone := by
  unfold Obligations.FillStepLeavesTheRestAlone
  intro s t h
  obtain ⟨-, rfl⟩ := exec_fillStep_cases h
  refine ⟨fun a => State.filled_readPb_outside, State.filled_readPb_of_color, ?_⟩
  rw [State.filled_eq]
  exact ⟨fun _ => rfl, fun _ => rfl, rfl, rfl, rfl, rfl, rfl, rfl, rfl, rfl, rfl⟩

/-! ### The nearest colour -/

theorem State.nearestColor_zero (s : State) : s.NearestColor 0 Rgb.zero := .inr ⟨nofun, rfl⟩

theorem State.nearestColor_succ_of_color {s : State} {q : Nat} (h : s.readTriple (3 * q) ≠ Rgb.zero) :
    s.NearestColor (q + 1) (s.readTriple (3 * q)) :=
  .inl ⟨q, q.lt_succ_self, h, rfl, fun _ hq hm => absurd hq (by omega)⟩

/-- Behind a gap the nearest colour is what it was before the gap. -/
theorem State.NearestColor.succ_of_gap {s : State} {q : Nat} {c : Rgb} (h : s.NearestColor q c)
    (hgap : s.readTriple (3 * q) = Rgb.zero) : s.NearestColor (q + 1) c := by
  obtain ⟨j, hj, hcolor, hc, hbetween⟩ | ⟨hgaps, hc⟩ := h
  · refine .inl ⟨j, Nat.lt_succ_of_lt hj, hcolor, hc, fun m hjm hm => ?_⟩
    obtain hm | rfl := Nat.lt_succ_iff_lt_or_eq.mp hm
    · exact hbetween m hjm hm
    · exact hgap
  · refine .inr ⟨fun j hj => ?_, hc⟩
    obtain hj | rfl := Nat.lt_succ_iff_lt_or_eq.mp hj
    · exact hgaps j hj
    · exact hgap

/-- A colour with only gaps between it and `q` is the nearest one: any other would lie in those gaps, or have this one
among its own. -/
theorem State.NearestColor.eq_of_color {s : State} {q j : Nat} {c : Rgb} (h : s.NearestColor q c) (hj : j < q)
    (hcolor : s.readTriple (3 * j) ≠ Rgb.zero)
    (hbetween : ∀ m, j < m → m < q → s.readTriple (3 * m) = Rgb.zero) : c = s.readTriple (3 * j) := by
  obtain ⟨i, hi, hcolor', rfl, hbetween'⟩ | ⟨hgaps, -⟩ := h
  · obtain hij | rfl | hji := Nat.lt_trichotomy i j
    · exact absurd (hbetween' j hij hj) hcolor
    · rfl
    · exact absurd (hbetween i hji hi) hcolor'
  · exact absurd (hgaps j hj) hcolor

theorem State.NearestColor.eq_zero_of_gaps {s : State} {q : Nat} {c : Rgb} (h : s.NearestColor q c)
    (hgaps : ∀ j < q, s.readTriple (3 * j) = Rgb.zero) : c = Rgb.zero := by
  obtain ⟨j, hj, hcolor, -⟩ | ⟨-, hc⟩ := h
  · exact absurd (hgaps j hj) hcolor
  · exact hc

/-! ### The invariant of the pass -/

/-- Before the first pixel nothing is behind the pass, and no colour was seen. -/
theorem State.AtFillStart.passHolds {s : State} (h : s.AtFillStart) : s.PassHolds s := by
  obtain ⟨hphase, hpos, hcarry⟩ := h
  exact {
    position := by rw [hpos]; decide
    phase := ⟨fun _ => hphase, fun hend => absurd (hpos.symm.trans hend) (by decide)⟩
    behind := fun q hq => absurd (hpos ▸ hq) (Nat.not_lt_zero _)
    ahead := fun _ _ => rfl
    carry := by rw [hpos, hcarry]; exact s.nearestColor_zero }

theorem State.PassHolds.setHostSlots {s s0 : State} (h : s.PassHolds s0) (later : List (Option HostAccess)) :
    (s.setHostSlots later).PassHolds s0 :=
  { h with }

/-- The pixel the pass stands at is as it was. -/
theorem State.PassHolds.readTriple_fillPos {s s0 : State} (h : s.PassHolds s0) :
    s.readTriple s.fillPos = s0.readTriple s.fillPos := by
  simp only [State.readTriple, h.ahead _ (Nat.le_refl _), h.ahead _ (Nat.le_add_right _ _)]

/-- One pixel keeps the invariant: the pixels behind are not written, and the one it goes over holds the new carry. -/
theorem State.PassHolds.filled {s s0 : State} (h : s.PassHolds s0) (hin : s.fillPos < 921600) : s.filled.PassHolds s0 := by
  obtain ⟨q, hq⟩ : ∃ q, s.fillPos = 3 * q := Nat.dvd_of_mod_eq_zero h.position.1
  have hpixel : s.readTriple s.fillPos = s0.readTriple (3 * q) := hq ▸ h.readTriple_fillPos
  have hcarry : s0.NearestColor q s.carry := by simpa [hq] using h.carry
  constructor
  case position => rw [State.filled_fillPos]; omega
  case phase =>
    rw [State.filled_fillPos, State.filled_phase, Config.capacity_eq]
    exact ⟨fun hmore => (if_neg (Nat.not_le.mpr hmore)).trans (h.phase.1 hin), fun hend => if_pos hend.ge⟩
  case behind =>
    intro p hp
    rw [State.filled_fillPos] at hp
    obtain hp | rfl : 3 * p < s.fillPos ∨ p = q := by omega
    · rw [State.filled_readTriple_behind (by omega)]
      exact h.behind p hp
    · rw [← hq, State.filled_readTriple, State.filled_carry, hpixel, hq]
      exact ⟨fun hcolor => if_neg hcolor, fun hgap => by rwa [if_pos hgap]⟩
  case ahead =>
    intro a ha
    rw [State.filled_fillPos] at ha
    rw [State.filled_readPb_outside (.inr ha)]
    exact h.ahead a (by omega)
  case carry =>
    have hnext : s.filled.fillPos / 3 = q + 1 := by rw [State.filled_fillPos]; omega
    rw [hnext, State.filled_carry, hpixel]
    split
    · exact hcarry.succ_of_gap ‹_›
    · exact State.nearestColor_succ_of_color ‹_›

/-- In `P_FILL` the pass still stands at a pixel. -/
theorem State.PassHolds.fillPos_lt {s s0 : State} (h : s.PassHolds s0) (hs : s.phase = .pFill) : s.fillPos < 921600 := by
  refine Nat.lt_of_le_of_ne h.position.2 fun hend => ?_
  cases hs.symm.trans (h.phase.2 hend)

/-- While BUSY a host access that has a next state changes nothing. -/
theorem hostAccess_busy {a : HostAccess} {s t : State} (hbusy : s.phase.busy = true) (h : hostAccess a s = .next t) :
    t = s := by
  obtain hsame | ⟨hidle, -⟩ := hostAccess_cases h
  · exact hsame
  · exact absurd (hbusy.symm.trans hidle) nofun

/-- Settles O49: the sequencer's step is one pixel, and a host access changes nothing. -/
theorem stepKeepsThePassInvariant : Obligations.StepKeepsThePassInvariant := by
  unfold Obligations.StepKeepsThePassInvariant
  refine ⟨fun s => State.AtFillStart.passHolds, fun s0 s t hs h hstep => ?_⟩
  obtain ⟨u, hpass, -⟩ | ⟨a, later, -, heq⟩ := step_cases s
  · have hexec : step s = exec .fillStep u := (stepWithoutACode s u).1 hpass hs
    obtain ⟨-, rfl⟩ := exec_fillStep_cases (hexec.symm.trans hstep)
    obtain ⟨-, later, rfl⟩ := step_hostPasses hpass
    exact (h.setHostSlots later).filled (h.fillPos_lt hs)
  · have hbusy : (s.setHostSlots later).phase.busy = true := congrArg Phase.busy hs
    rw [hostAccess_busy hbusy (heq.symm.trans hstep)]
    exact h.setHostSlots later

/-! ### The whole pass -/

/-- Left alone by the host, the pass takes one step for each pixel ahead of it. -/
theorem State.PassHolds.runSteps {s s0 : State} (n : Nat) (h : s.PassHolds s0) (hslots : s.hostSlots = [])
    (hn : s.fillPos + 3 * n = 921600) : ∃ t, runSteps n s = some t ∧ t.PassHolds s0 ∧ t.fillPos = 921600 := by
  induction n generalizing s with
  | zero => exact ⟨s, rfl, h, hn⟩
  | succ n ih =>
    have hin : s.fillPos + 2 < 921600 := by omega
    have hs : s.phase = .pFill := h.phase.1 (by omega)
    have hstep : step s = .next s.filled := calc
      step s = exec .fillStep s := (stepWithoutACode s s).1 (.inl ⟨hslots, rfl⟩) hs
      _ = .next s.filled := exec_fillStep_inside hin
    obtain ⟨-, -, hslotsKept⟩ := State.inputs_eq_iff.mp s.filled_inputs
    rw [runSteps_succ n hstep]
    exact ih (h.filled (by omega)) (hslotsKept.trans hslots) (by rw [State.filled_fillPos]; omega)

/-- Settles O39: at its end the pass has every pixel behind it, and a nearest colour is the one the statement names. -/
theorem gapFillCarriesTheLastColorForward : Obligations.GapFillCarriesTheLastColorForward := by
  unfold Obligations.GapFillCarriesTheLastColorForward
  intro s hstart hslots
  have hbegin : s.PassHolds s := hstart.passHolds
  obtain ⟨-, hpos, -⟩ := hstart
  obtain ⟨t, hrun, hpass, hend⟩ := hbegin.runSteps 307200 hslots (by rw [hpos])
  refine ⟨t, hrun, hpass.phase.2 hend, fun q hq => ?_⟩
  obtain ⟨hcolor, hgap⟩ := hpass.behind q (by omega)
  exact ⟨hcolor, fun hzero => ⟨fun j hj => (hgap hzero).eq_of_color hj, (hgap hzero).eq_zero_of_gaps⟩⟩

end Sys2Proof.Machine
end

section
/-!
PROOF. The errors of START: a block that is too short, and a tag that no format has.
-/

namespace Sys2Proof.Machine

/-- R126: the length is checked before the tag is read. -/
theorem exec_start_short {s : State} (hidle : s.phase.busy = false) (hlen : s.inLen.toNat < 921600) :
    exec .start s = .next (s.withError .truncatedInput) := by
  rw [exec_start_eq, if_neg (by simp [hidle]), if_pos (show s.inLen.toNat < Config.blockSize from hlen)]

theorem exec_start_unknown {s : State} (hidle : s.phase.busy = false) (hlen : 921600 ≤ s.inLen.toNat)
    (hl : s.readCb 0 ≠ 0x4C#8) (hp : s.readCb 0 ≠ 0x50#8) :
    exec .start s = .next (s.withError .unsupportedFormat) := by
  have hfull : ¬ s.inLen.toNat < Config.blockSize := Nat.not_lt.mpr hlen
  have htagL : s.readCb 0 ≠ Config.tagL := hl
  have htagP : s.readCb 0 ≠ Config.tagP := hp
  rw [exec_start_eq, if_neg (by simp [hidle]), if_neg hfull, if_neg htagL, if_neg htagP]

/-- Settles O17: of START's branches only the length check is reached, and raising an error writes `ERR` and the phase alone. -/
theorem shortInputRaisesTruncatedInput : Obligations.ShortInputRaisesTruncatedInput := by
  unfold Obligations.ShortInputRaisesTruncatedInput
  exact fun s hidle hlen => exec_start_short hidle hlen

/-- Settles O18: past the length check and both tags START raises the error, which writes `ERR` and the phase alone. -/
theorem unknownTagRaisesUnsupportedFormat : Obligations.UnknownTagRaisesUnsupportedFormat := by
  unfold Obligations.UnknownTagRaisesUnsupportedFormat
  exact fun s hidle hlen hl hp => exec_start_unknown hidle hlen hl hp

end Sys2Proof.Machine
end

section
/-!
PROOF. The errors a code can end in (60_exceptions.md). A stream code runs out of bits, or does what follows its bits; of what
may follow them, only the appends of FormatL raise an error.
-/

namespace Sys2Proof.Machine

/-- Settles O13: `raise` is the end of its instruction, and in ERROR the sequencer has no instruction to run. -/
theorem raiseRecordsTheErrorAndHalts : Obligations.RaiseRecordsTheErrorAndHalts := by
  unfold Obligations.RaiseRecordsTheErrorAndHalts
  refine ⟨fun e s k => ?_, fun s s0 herror hpass => ?_⟩
  · rw [raise_eq, Flow.andThen_raised]
    cases e <;> rfl
  · obtain ⟨-, hhalted, -⟩ := stepWithoutACode s s0
    exact hhalted hpass (.inr (.inr herror))

/-! ### The causes of an error -/

/-- `t` is the end of a code that needed a bit when the payload was used up (R144). -/
structure State.RanOut (t : State) : Prop where
  err : t.err = 3#3
  phase : t.phase = .error
  curByte : Config.blockSize ≤ t.curByte

/-- `t` is the end of code `i`, run from `s`, that appended past a full buffer (R145). -/
structure State.Overflowed (i : Instr) (s t : State) : Prop where
  pastFull : ∃ n, appendCount i = some n ∧ 921600 < s.outLen + n
  err : t.err = 4#3
  phase : t.phase = .error

theorem State.ranOut_withError (u : State) {b : Nat} (m : BitVec 8) (hb : Config.blockSize ≤ b) :
    ((u.setCursor b m).withError .streamOverrun).RanOut :=
  ⟨rfl, rfl, hb⟩

/-- Everything a stream code can do, from any state: it runs out of bits, or does what follows them. -/
theorem exec_code_cases {i : Instr} {s t : State} (hi : isStreamCode i = true) (h : exec i s = .next t) :
    t.RanOut ∨ ∃ b m, t = (s.setCursor b m).afterCode i := by
  obtain ⟨v, rfl⟩ | ⟨o, n, rfl⟩ | rfl | ⟨len, n, hrun⟩ | rfl | ⟨r, g, b, stamp, rfl⟩ | rfl | ⟨len, inc, hstamp⟩ :=
    streamCode_shapes hi
  · obtain ⟨b, m, ⟨hb, rfl⟩ | ⟨hroom, rfl⟩ | ⟨hfull, rfl⟩⟩ := exec_lLit_cases h
    · exact .inl (State.ranOut_withError s m hb)
    · exact .inr ⟨b, m, (if_pos hroom).symm⟩
    · exact .inr ⟨b, m, (if_neg (Nat.not_lt.mpr hfull)).symm⟩
  · obtain ⟨b, m, ⟨hb, rfl⟩ | ⟨hroom, rfl⟩ | ⟨hfull, rfl⟩⟩ := exec_lCopy_cases h
    · exact .inl (State.ranOut_withError s m hb)
    · exact .inr ⟨b, m, (if_pos hroom).symm⟩
    · exact .inr ⟨b, m, (if_neg (Nat.not_le.mpr hfull)).symm⟩
  · obtain ⟨b, m, ⟨hb, rfl⟩ | rfl⟩ := exec_lEnd_cases h
    · exact .inl (State.ranOut_withError s m hb)
    · exact .inr ⟨b, m, rfl⟩
  · obtain ⟨b, m, ⟨hb, rfl⟩ | rfl⟩ := exec_run_cases hrun h
    · exact .inl (State.ranOut_withError s m hb)
    · exact .inr ⟨b, m, (State.afterCode_run hrun _).symm⟩
  · obtain ⟨b, m, ⟨hb, rfl⟩ | rfl⟩ := exec_pEnd_cases h
    · exact .inl (State.ranOut_withError s m hb)
    · exact .inr ⟨b, m, rfl⟩
  · obtain ⟨b', m, ⟨hb, rfl⟩ | ⟨-, ⟨hb, rfl⟩ | ⟨rfl, rfl⟩ | ⟨rfl, rfl⟩⟩⟩ := exec_pColor_cases h
    · exact .inl (State.ranOut_withError s m hb)
    · exact .inl (State.ranOut_withError _ m hb)
    · exact .inr ⟨b', m, rfl⟩
    · exact .inr ⟨b', m, rfl⟩
  · obtain ⟨b, m, ⟨hb, rfl⟩ | rfl⟩ := exec_sExit_cases h
    · exact .inl (State.ranOut_withError s m hb)
    · exact .inr ⟨b, m, rfl⟩
  · obtain ⟨b, m, ⟨hb, rfl⟩ | ⟨hout, rfl⟩ | ⟨hin, rfl⟩⟩ := exec_stamp_cases hstamp h
    · exact .inl (State.ranOut_withError s m hb)
    · exact .inr ⟨b, m, ((State.afterCode_stamp hstamp (s.setCursor b m)).trans (if_pos hout)).symm⟩
    · exact .inr ⟨b, m, ((State.afterCode_stamp hstamp (s.setCursor b m)).trans (if_neg (Nat.not_le.mpr hin))).symm⟩

theorem State.copied_err (offset count i : Nat) (s : State) : (s.copied offset count i).err = s.err := by
  obtain ⟨-, -, -, -, -, -, -, -, herr, -⟩ := State.copied_frame offset count i s
  exact herr

theorem State.pixelClosed_err (s : State) : s.pixelClosed.err = s.err := by rw [State.pixelClosed_eq]

/-- Behind its bits a code leaves `ERR` alone, but for an append past a full buffer. -/
theorem State.afterCode_err {i : Instr} (hi : isStreamCode i = true) (s : State) :
    (s.afterCode i).err = s.err ∨ s.Overflowed i (s.afterCode i) := by
  obtain ⟨v, rfl⟩ | ⟨o, n, rfl⟩ | rfl | ⟨len, n, hrun⟩ | rfl | ⟨r, g, b, stamp, rfl⟩ | rfl | ⟨len, inc, hstamp⟩ :=
    streamCode_shapes hi
  · change (if _ then _ else _ : State).err = _ ∨ s.Overflowed _ (if _ then _ else _ : State)
    by_cases hroom : s.outLen < Config.capacity
    · rw [if_pos hroom]
      exact .inl rfl
    · rw [if_neg hroom]
      exact .inr ⟨⟨1, rfl, Nat.lt_succ_of_le (Nat.le_of_not_lt hroom)⟩, rfl, rfl⟩
  · change (if _ then _ else _ : State).err = _ ∨ s.Overflowed _ (if _ then _ else _ : State)
    by_cases hroom : n.toNat + 3 ≤ Config.capacity - s.outLen
    · rw [if_pos hroom]
      exact .inl (State.copied_err _ _ _ s)
    · rw [if_neg hroom]
      have hfull : 921600 < s.outLen + (n.toNat + 3) := by
        simp only [Config.capacity_eq] at hroom
        omega
      exact .inr ⟨⟨_, rfl, hfull⟩, rfl, rfl⟩
  · exact .inl rfl
  · rw [State.afterCode_run hrun, State.runAdvanced_eq]
    exact .inl rfl
  · exact .inl rfl
  · cases stamp
    · exact .inl (s.colored ⟨r, g, b⟩).pixelClosed_err
    · exact .inl rfl
  · exact .inl s.pixelClosed_err
  · rw [State.afterCode_stamp hstamp, State.stampAdvanced]
    split
    · exact .inl (State.pixelClosed_err _)
    · exact .inl rfl

/-- A code that ran out of bits did need a bit that was not there: with all of them there it would not have ended so. -/
theorem State.RanOut.lt_of_cursorAt {i : Instr} {s t : State} (h : t.RanOut) (hi : isStreamCode i = true)
    (hexec : exec i s = .next t) (hne : t.err ≠ s.err) {p : Nat} (hc : s.CursorAt p) :
    Config.payloadBits < p + codeLength i := by
  by_contra hlen
  have hdone := exec_code_at hi hc (Nat.le_of_not_lt hlen) (colorFits_of_next hc hexec)
  obtain rfl := Host.Outcome.next.inj (hexec.symm.trans hdone)
  obtain hsame | hover := State.afterCode_err hi (s.atBit (p + codeLength i))
  · exact hne hsame
  · exact absurd (h.err.symm.trans hover.err) (by decide)

theorem exec_start_err {s t : State} (h : exec .start s = .next t) :
    t.err = s.err ∨ t.err = 0#3 ∨
      (t.err = 1#3 ∧ 921600 ≤ s.inLen.toNat ∧ s.readCb 0 ≠ 0x4C#8 ∧ s.readCb 0 ≠ 0x50#8) ∨
      (t.err = 2#3 ∧ s.inLen.toNat < 921600) := by
  rw [exec_start_eq] at h
  rw [← Host.Outcome.next.inj h]
  split
  · exact .inl rfl
  split
  next hshort => exact .inr (.inr (.inr ⟨rfl, hshort⟩))
  next hfull =>
    split
    · exact .inr (.inl rfl)
    split
    · exact .inr (.inl rfl)
    · exact .inr (.inr (.inl ⟨rfl, Nat.le_of_not_lt hfull, ‹_›, ‹_›⟩))

/-- Every instruction is START, a code of the stream, or one that leaves `ERR` alone. -/
theorem exec_err_cases {i : Instr} {s t : State} (h : exec i s = .next t) :
    i = .start ∨ isStreamCode i = true ∨ t.err = s.err := by
  cases i
  case start => exact .inl rfl
  case tagL =>
    rw [← Host.Outcome.next.inj ((exec_tagL s).symm.trans h)]
    exact .inr (.inr rfl)
  case tagP =>
    rw [← Host.Outcome.next.inj ((exec_tagP s).symm.trans h)]
    exact .inr (.inr rfl)
  case fillStep =>
    obtain ⟨-, rfl⟩ := exec_fillStep_cases h
    rw [State.filled_eq]
    exact .inr (.inr rfl)
  all_goals exact .inr (.inl rfl)

/-- Settles O14: START's branches each have their own error, and a stream code has the two of running out of bits and of
appending past a full buffer. -/
theorem errorsHaveTheirOwnCauses : Obligations.ErrorsHaveTheirOwnCauses := by
  unfold Obligations.ErrorsHaveTheirOwnCauses
  intro i s t hexec hne
  obtain rfl | hi | hsame := exec_err_cases hexec
  · obtain hsame | hclear | htag | hshort := exec_start_err hexec
    · exact absurd hsame hne
    · exact .inl ⟨rfl, hclear⟩
    · exact .inr (.inl ⟨rfl, htag⟩)
    · exact .inr (.inr (.inl ⟨rfl, hshort⟩))
  · obtain hout | ⟨b, m, rfl⟩ := exec_code_cases hi hexec
    · exact .inr (.inr (.inr (.inl ⟨hi, hout.err, hout.phase, hout.curByte, fun p hc _ =>
        hout.lt_of_cursorAt hi hexec hne hc⟩)))
    · obtain hsame | ⟨hfull, herr, hphase⟩ := State.afterCode_err hi (s.setCursor b m)
      · exact absurd hsame hne
      · exact .inr (.inr (.inr (.inr ⟨hfull, herr, hphase⟩)))
  · exact absurd hsame hne

/-! ### DecodeOverflow -/

/-- A FormatL code with its bits there that has no room for all its bytes (R145, R148). -/
theorem exec_append_full {i : Instr} {n p : Nat} {s : State} (hi : appendCount i = some n) (hc : s.CursorAt p)
    (hlen : p + codeLength i ≤ Config.payloadBits) (hle : s.outLen ≤ 921600) (hfull : 921600 < s.outLen + n) :
    ∃ t, exec i s = .next t ∧ t.err = 4#3 ∧ t.phase = .error ∧ t.outLen = 921600 ∧ t.CursorAt (p + codeLength i) ∧
      ∀ o m, i = .lCopy o m → ∀ k, s.outLen + k < 921600 → s.CopiesByte t o.toNat k := by
  have hp : p ≤ Config.payloadBits := Nat.le_of_add_right_le hlen
  rw [codeLength_eq] at hlen ⊢
  obtain ⟨v, rfl, rfl⟩ | ⟨o, m, rfl, rfl⟩ | ⟨rfl, rfl⟩ := appendCount_cases hi
  · obtain ⟨-, hlit⟩ := literalIsAppended
    obtain ⟨-, hlit, -⟩ := hlit v s p hc hp
    have hout : s.outLen = 921600 := by omega
    obtain ⟨t, hexec, hcursor, ht⟩ := hlit hlen hout
    rw [ht] at hexec hcursor
    exact ⟨_, hexec, rfl, rfl, hout, hcursor, nofun⟩
  · obtain ⟨-, hcopy⟩ := copyExpandsTheTable
    obtain ⟨-, hcopy, -⟩ := hcopy o m s p hc hp
    obtain ⟨t, hexec, hout, hcursor, hphase, herr, hbytes⟩ := hcopy hlen hle hfull
    refine ⟨t, hexec, herr, hphase, hout, hcursor, fun o' m' hcode k hk => ?_⟩
    obtain ⟨rfl, rfl⟩ := Instr.lCopy.inj hcode
    obtain ⟨hbyte, -⟩ := hbytes k hk
    exact hbyte
  · omega

/-- A FormatL code with its bits there that has room for all its bytes. -/
theorem exec_append_room {i : Instr} {n p : Nat} {s : State} (hi : appendCount i = some n) (hc : s.CursorAt p)
    (hlen : p + codeLength i ≤ Config.payloadBits) (hroom : s.outLen + n ≤ 921600) :
    ∃ t, exec i s = .next t ∧ t.err = s.err ∧ t.outLen = s.outLen + n := by
  have hp : p ≤ Config.payloadBits := Nat.le_of_add_right_le hlen
  rw [codeLength_eq] at hlen
  obtain ⟨v, rfl, rfl⟩ | ⟨o, m, rfl, rfl⟩ | ⟨rfl, rfl⟩ := appendCount_cases hi
  · exact ⟨_, exec_lLit_room hc hlen hroom, rfl, rfl⟩
  · have hcount : m.toNat + 3 ≤ Config.capacity - s.outLen := Nat.le_sub_of_add_le' hroom
    exact ⟨_, (exec_lCopy_at hc hlen).trans (congrArg _ (if_pos hcount)), State.copied_err .., State.copied_outLen ..⟩
  · exact ⟨_, exec_lEnd_at hc hlen, rfl, rfl⟩

/-- Settles O15: whether the appends fit decides between the two ends, the bytes before are in the frame of FormatL, and O14
leaves no other cause for ERR 4. -/
theorem decodeOverflowOnlyPastAFullBuffer : Obligations.DecodeOverflowOnlyPastAFullBuffer := by
  unfold Obligations.DecodeOverflowOnlyPastAFullBuffer
  refine ⟨fun i n s p hi hc hlen hle => ⟨fun hfull => ?_, exec_append_room hi hc hlen⟩, fun i s t hi hexec herr => ?_⟩
  · obtain ⟨t, hexec, herr, hphase, hout, hcursor, hbytes⟩ := exec_append_full hi hc hlen hle hfull
    obtain ⟨hpb, -⟩ := formatLCodesLeaveTheRestAlone i n s t hi hexec
    exact ⟨t, hexec, herr, hphase, hout, hcursor, fun a ha => hpb a (.inl ha), hbytes⟩
  · by_contra hne
    have hchanged : t.err ≠ s.err := fun h => hne (h.symm.trans herr)
    have hcauses := errorsHaveTheirOwnCauses i s t hexec hchanged
    simp [herr, hi] at hcauses

end Sys2Proof.Machine
end

section
/-!
PROOF. Every decode ends (70_reset_and_hazards.md R169): a stream code takes at least two of the payload bits left, the
gap-fill pass at least a pixel, and in a legal state there is always a next step.
-/

namespace Sys2Proof.Machine

/-! ### The bound on the steps left -/

theorem State.stepsLeft_of_site {s : State} {site : DecodeSite} (h : s.phase.site = some site) :
    s.stepsLeft = (Config.payloadBits - s.bitPos) / 2 + Config.pixels := by
  unfold State.stepsLeft
  cases hs : s.phase with
  | lCode | pRun | pColor | pStamp => rfl
  | idle | pFill | done | error => rw [hs] at h; cases h

/-- In every phase the bound is at most the stream's: the pass has no more pixels left than the buffer has. -/
theorem State.stepsLeft_le (s : State) : s.stepsLeft ≤ (Config.payloadBits - s.bitPos) / 2 + Config.pixels := by
  unfold State.stepsLeft
  cases s.phase with
  | lCode | pRun | pColor | pStamp => exact Nat.le_refl _
  | idle | done | error => exact Nat.zero_le _
  | pFill => simp only [Config.capacity_eq, Config.pixels_eq]; omega

theorem State.stepsLeft_fill {s : State} (h : s.phase = .pFill) : s.stepsLeft = (Config.capacity - s.fillPos) / 3 := by
  simp only [State.stepsLeft, h]

theorem State.stepsLeft_halted {s : State} (h : s.phase.busy = false) : s.stepsLeft = 0 := by
  unfold State.stepsLeft
  cases hs : s.phase with
  | idle | done | error => rfl
  | lCode | pRun | pColor | pStamp | pFill => rw [hs] at h; cases h

/-- The shortest codes are the two-bit ones of `P_RUN` and `P_STAMP`. -/
theorem two_le_codeLength {i : Instr} (h : isStreamCode i = true) : 2 ≤ codeLength i := by
  rw [codeLength_eq]
  cases i
  case start | fillStep => cases h
  all_goals exact Nat.le_of_ble_eq_true rfl

/-! ### One step -/

/-- A code uses up two payload bits or more, or the block ends inside it and the decode is over. -/
theorem exec_code_stepsLeft {i : Instr} {s t : State} (h : s.Legal) (hs : s.phase.site = some i.site)
    (hexec : exec i s = .next t) : t.stepsLeft < s.stepsLeft := by
  have hi := isStreamCode_of_site hs
  obtain ⟨hcursor, hpos⟩ := h.cursor
  obtain ⟨hthere, hcut, -⟩ := cursorMovesForwardByTheCodeLength i s t s.bitPos hcursor hpos hexec
  rw [State.stepsLeft_of_site hs]
  by_cases hlen : s.bitPos + codeLength i ≤ Config.payloadBits
  · have hleft := t.stepsLeft_le
    rw [(hthere hi hlen).bitPos] at hleft
    have htwo := two_le_codeLength hi
    omega
  · obtain ⟨-, -, herror⟩ := hcut hi (Nat.lt_of_not_le hlen)
    rw [State.stepsLeft_halted (by rw [herror]; rfl)]
    exact Nat.add_pos_right _ (by decide)

theorem State.filled_stepsLeft {s : State} (hs : s.phase = .pFill) (hin : s.fillPos ≤ 921597) :
    s.filled.stepsLeft < s.stepsLeft := by
  rw [State.stepsLeft_fill hs]
  have hphase := s.filled_phase
  by_cases hend : Config.capacity ≤ s.fillPos + 3
  · rw [State.stepsLeft_halted (by rw [hphase, if_pos hend]; rfl)]
    simp only [Config.capacity_eq]
    omega
  · rw [State.stepsLeft_fill (by rw [hphase, if_neg hend, hs]), State.filled_fillPos]
    simp only [Config.capacity_eq]
    omega

theorem State.Legal.sequencerStep_stepsLeft {s t : State} (h : s.Legal) (hbusy : s.phase.busy = true)
    (hstep : Machine.sequencerStep s = .next t) : t.stepsLeft < s.stepsLeft := by
  cases hs : s.phase.site with
  | some site =>
    obtain ⟨i, -, -, rfl, hcode⟩ := sequencerStep_code hs
    exact exec_code_stepsLeft h hs (hcode.symm.trans hstep)
  | none =>
    obtain hfill | hhalted := Phase.site_eq_none hs
    · rw [sequencerStep_fill hfill, h.exec_fillStep hfill] at hstep
      rw [← Host.Outcome.next.inj hstep]
      exact State.filled_stepsLeft hfill (h.fillLoop hfill)
    · obtain hphase | hphase | hphase := hhalted <;> rw [hphase] at hbusy <;> cases hbusy

/-- Settles O46: the step is the sequencer's, and the slot it uses up is no part of the bound. -/
theorem eachStepBringsTheEndNearer : Obligations.EachStepBringsTheEndNearer := by
  unfold Obligations.EachStepBringsTheEndNearer
  intro s s0 t h hpass hbusy hstep
  obtain ⟨hrun, later, rfl⟩ := step_hostPasses hpass
  exact (h.setHostSlots later).sequencerStep_stepsLeft hbusy (hrun.symm.trans hstep)

/-! ### The whole decode -/

/-- A step leads from a running decode to a running one or to its end. -/
theorem Phase.MovesTo.busy_or_ended {p q : Phase} (h : p.MovesTo q) (hp : p.busy = true) :
    q.busy = true ∨ q = .done ∨ q = .error := by
  revert hp h
  cases p <;> cases q <;> decide

/-- Left alone by the host, a running decode has a next state, which is nearer its end, or at it. -/
theorem State.Legal.exists_nearer {s : State} (h : s.Legal) (hbusy : s.phase.busy = true) (hslots : s.hostSlots = []) :
    ∃ t, step s = .next t ∧ t.Legal ∧ t.hostSlots = [] ∧ (t.phase.busy = true ∨ t.phase = .done ∨ t.phase = .error) ∧
      t.stepsLeft < s.stepsLeft := by
  have hpass : s.HostPasses s := .inl ⟨hslots, rfl⟩
  obtain ⟨t, hstep⟩ := legalStateAlwaysSteps s s h hpass
  have hrun : Machine.sequencerStep s = .next t := (step_hostPasses hpass).1.symm.trans hstep
  obtain ⟨-, -, hslotsKept⟩ := State.inputs_eq_iff.mp (sequencerStep_inputs hrun)
  exact ⟨t, hstep, h.sequencerStep hrun, hslotsKept.trans hslots, (sequencerStep_movesTo hrun).busy_or_ended hbusy,
    h.sequencerStep_stepsLeft hbusy hrun⟩

/-- Left alone by the host, a running decode ends within the bound on its steps. -/
theorem State.Legal.ends_within {s : State} (n : Nat) (h : s.Legal) (hbusy : s.phase.busy = true)
    (hslots : s.hostSlots = []) (hn : s.stepsLeft ≤ n) :
    ∃ k ≤ n, ∃ t, runSteps k s = some t ∧ (t.phase = .done ∨ t.phase = .error) := by
  induction n generalizing s with
  | zero =>
    obtain ⟨u, -, -, -, -, hnearer⟩ := h.exists_nearer hbusy hslots
    omega
  | succ n ih =>
    obtain ⟨u, hstep, hlegal, hslots', hbusy' | hend, hnearer⟩ := h.exists_nearer hbusy hslots
    · obtain ⟨k, hk, t, hrun, hend⟩ := ih hlegal hbusy' hslots' (by omega)
      exact ⟨k + 1, Nat.succ_le_succ hk, t, (runSteps_succ k hstep).trans hrun, hend⟩
    · exact ⟨1, Nat.succ_pos n, u, runSteps_succ 0 hstep, hend⟩

/-- Settles O47: the bound of the step lemma is at most the one of a decode that has not read a bit. -/
theorem everyDecodeEnds : Obligations.EveryDecodeEnds := by
  unfold Obligations.EveryDecodeEnds
  intro s h hbusy hslots
  have hbound : s.stepsLeft ≤ 3686392 + 307200 := calc
    s.stepsLeft ≤ (Config.payloadBits - s.bitPos) / 2 + Config.pixels := s.stepsLeft_le
    _ ≤ Config.payloadBits / 2 + Config.pixels := by gcongr; exact Nat.sub_le _ _
    _ = 3686392 + 307200 := rfl
  exact h.ends_within _ hbusy hslots hbound

end Sys2Proof.Machine
end

section
/-!
PROOF. The words written out from the tables of encodings (30_encoding.md section 3).
-/

namespace Sys2Proof

/-- Settles O5: each word is its instruction's encoding, bit for bit, and what is behind it is left over. -/
theorem writtenOutWordsDecode : Obligations.WrittenOutWordsDecode := by
  unfold Obligations.WrittenOutWordsDecode
  refine ⟨?lLit, ?lCopy, ?pRunx5, ?pColor, ?s1926⟩
  case lLit => exact decode_encode (i := .lLit 0x41#8) rfl []
  case lCopy => exact decode_encode (i := .lCopy 0x1234#16 1#4) rfl []
  case pRunx5 => exact decode_encode (i := .pRunx5 1#5) rfl []
  case pColor => exact decode_encode (i := .pColor 10#8 20#8 30#8 true) rfl []
  case s1926 => exact decode_encode (i := .s1926) rfl [false]

end Sys2Proof
end
